-- ==== Sys2Proof/Word.lean ====
section
/-! DEFINITION. The data every layer shares: the 32-bit word, the two radixes, the big unsigned float, the FloatSpec
value. Plain types only; what is computed from them stands under Machine/. -/

namespace Sys2Proof

/-- A command word, an extension word or a limb: 32 bits (30_encoding.md R70, 10_state.md R23). -/
abbrev Word := BitVec 32

/-- The two radixes of the unit (00_scope.md R5, R8). -/
inductive Radix where
  /-- radix 2, 32 digits a limb -/
  | bin
  /-- radix 10, 8 digits a limb -/
  | dec
deriving DecidableEq, Repr, Inhabited

/-- The three fields of a value (10_state.md R23): the low place, the count of significant digits, and the limbs, least
significant first. R23 stores `lp` and `nd` in 32 bits each and says that the widths cannot be observed; here they are the
integers of R10 (notes/assumptions/1.md). -/
structure BigFloat where
  lp : Int
  nd : Nat
  f  : List Word
deriving DecidableEq, Repr, Inhabited

/-- The one zero of either radix (10_state.md R24, R25). -/
def BigFloat.zero : BigFloat := { lp := 0, nd := 0, f := [] }

/-- The description of a binary float format (10_state.md R34): mantissaBits, exponentBits, exponentOfOne (two's
complement), supportsDenormals, supportsNaNs. -/
structure FloatSpec where
  m   : BitVec 16
  eb  : BitVec 8
  e1  : BitVec 32
  den : Bool
  nan : Bool
deriving DecidableEq, Repr, Inhabited

end Sys2Proof
end

