-- ==== Sys2Proof/Config.lean ====
section
/-! DEFINITION. What an implementation fixes (named constants with the values the spec gives them) and the free values,
which have no body: nothing in Lean can evaluate them (00_scope.md R6, R7; 92_eei_decisions.md, parameters left open). -/

namespace Sys2Proof.Config

/-- `NV`, the number of value registers (00_scope.md R7; notes/assumptions/16.md). -/
abbrev numValueRegs : Nat := 8

/-- `K_MAX_DIGITS` (00_scope.md R6; notes/assumptions/16.md). -/
def kMaxDigits : Nat := 65536

/-- `K_MIN_LOW_PLACE`, inclusive (00_scope.md R6; notes/assumptions/16.md). -/
def kMinLowPlace : Int := -65536

/-- `K_MAX_LOW_PLACE`, inclusive (00_scope.md R6; notes/assumptions/16.md). -/
def kMaxLowPlace : Int := 65536

/-- DESIGN CHOICE (form only). The allocator's answer number `k`: true means that it returned null. FREE: 00_scope.md R7
calls it a free input of the step, 20_memory.md R58 ties it to nothing (notes/assumptions/4.md). -/
opaque allocFails : Nat → Bool

/-- DESIGN CHOICE (form only). The either-outcome draw number `k`: true means that the command raises IntegerOverflow.
FREE: 10_state.md R31 (the grey band) and 42_normalize_shift.md R145 (SHIFT of zero) admit both
(notes/assumptions/5.md). -/
opaque eitherFaults : Nat → Bool

/-- DESIGN CHOICE (form only). The `Unspec_t` draw number `k` for radix `t`, before it is held to the limit of 10_state.md
R38 (a normalized in-bounds value). FREE within that limit (notes/assumptions/6.md). -/
opaque unspecified : Nat → Radix → BigFloat

end Sys2Proof.Config
end

