-- ==== Sys2Proof/Syntax.lean ====
section
/-! DEFINITION. The sixteen commands (30_encoding.md R72, R74), one constructor per row of spec/opcode_table.json. -/

namespace Sys2Proof

/-- The index of a value register V0 .. V7 (10_state.md R21). A register field of 8 to 15 names none (30_encoding.md R77). -/
abbrev VIx := Fin Config.numValueRegs

/-- A command of the unit with its operands (30_encoding.md R72). `d` is Vd, `r` is Vs (the second, borrowed operand).
Immediates are the whole extension words of R73; how each is read is said in Machine/Operands.lean. -/
inductive Instr where
  /-- NOP -/
  | nop
  /-- LDFS m, eb, e1, den, nan -/
  | ldfs (spec : FloatSpec)
  /-- LDL.B Vd, #limb -/
  | ldlB (d : VIx) (limb : Word)
  /-- LDL.D Vd, #limb -/
  | ldlD (d : VIx) (limb : Word)
  /-- NRM.B Vd, #place, limbs (least significant first) -/
  | nrmB (d : VIx) (place : Word) (limbs : List Word)
  /-- NRM.D Vd, #place, limbs (least significant first) -/
  | nrmD (d : VIx) (place : Word) (limbs : List Word)
  /-- MOV Vd, Vs -/
  | mov (d r : VIx)
  /-- CLONE Vd, Vs -/
  | clone (d r : VIx)
  /-- FREE Vd -/
  | free (d : VIx)
  /-- ISZERO Vs (the register of field `a`) -/
  | isZero (r : VIx)
  /-- CMP Va, Vb -/
  | cmp (a b : VIx)
  /-- SHIFT Vd, #offset -/
  | shift (d : VIx) (offset : Word)
  /-- ADD Vd, Vs -/
  | add (d r : VIx)
  /-- SUB Vd, Vs -/
  | sub (d r : VIx)
  /-- MUL Vd, Vs -/
  | mul (d r : VIx)
  /-- ROUND Vd -/
  | round (d : VIx)
deriving DecidableEq, Repr

/-- The length of a command in 32-bit words (30_encoding.md R72, R80). -/
def Instr.length : Instr → Nat
  | .nop => 1
  | .ldfs _ => 3
  | .ldlB _ _ => 2
  | .ldlD _ _ => 2
  | .nrmB _ _ limbs => limbs.length + 2
  | .nrmD _ _ limbs => limbs.length + 2
  | .mov _ _ => 1
  | .clone _ _ => 1
  | .free _ => 1
  | .isZero _ => 1
  | .cmp _ _ => 1
  | .shift _ _ => 2
  | .add _ _ => 1
  | .sub _ _ => 1
  | .mul _ _ => 1
  | .round _ => 1

end Sys2Proof
end

