-- ==== Sys2Proof/WellFormed.lean ====
section
/-! DEFINITION. What a command must meet beyond its types: distinct operands where an operand is mutated (30_encoding.md
R78) and a limb count that fits the `n` field (30_encoding.md R70, R71). -/

namespace Sys2Proof

/-- The largest limb count of NRM.B and NRM.D, the field `n` being 16 bits wide (30_encoding.md R70). -/
def maxLimbCount : Nat := 65535

/-- The commands that may not name one register twice (30_encoding.md R78), with the two registers they name. -/
def Instr.mustDiffer : Instr → Option (VIx × VIx)
  | .mov d r => some (d, r)
  | .clone d r => some (d, r)
  | .add d r => some (d, r)
  | .sub d r => some (d, r)
  | .mul d r => some (d, r)
  | .nop => none
  | .ldfs _ => none
  | .ldlB _ _ => none
  | .ldlD _ _ => none
  | .nrmB _ _ _ => none
  | .nrmD _ _ _ => none
  | .free _ => none
  | .isZero _ => none
  | .cmp _ _ => none
  | .shift _ _ => none
  | .round _ => none

/-- The limbs a command carries in its extension words (30_encoding.md R72, format AN). -/
def Instr.limbList : Instr → List Word
  | .nrmB _ _ limbs => limbs
  | .nrmD _ _ limbs => limbs
  | .nop => []
  | .ldfs _ => []
  | .ldlB _ _ => []
  | .ldlD _ _ => []
  | .mov _ _ => []
  | .clone _ _ => []
  | .free _ => []
  | .isZero _ => []
  | .cmp _ _ => []
  | .shift _ _ => []
  | .add _ _ => []
  | .sub _ _ => []
  | .mul _ _ => []
  | .round _ => []

/-- The operands are distinct where 30_encoding.md R78 asks it. -/
def Instr.operandsDiffer (i : Instr) : Bool :=
  match i.mustDiffer with
  | some (d, r) => d != r
  | none => true

/-- The limb count fits the field `n` (30_encoding.md R71). -/
def Instr.limbCountFits (i : Instr) : Bool := decide (i.limbList.length ≤ maxLimbCount)

/-- A command the encoding of 30_encoding.md can spell and that raises no IllegalCommand. -/
def Instr.wellFormed (i : Instr) : Bool := i.operandsDiffer && i.limbCountFits

end Sys2Proof
end

