-- ==== Sys2Proof/Decode.lean ====
section
/-! DEFINITION. Decoding (30_encoding.md R70 to R81) and encoding (R71 to R74) of commands, and the host's reading of one
table word. A decoder's refusal has a name; the unit turns every one of them into IllegalCommand (60_exceptions.md R237). -/

namespace Sys2Proof

/-- The sixteen opcodes (30_encoding.md R74). -/
inductive Opcode where
  | nop | ldfs | ldlB | ldlD | nrmB | nrmD | mov | clone | free | isZero | cmp | shift | add | sub | mul | round
deriving DecidableEq, Repr

/-- The six command formats (30_encoding.md R72). -/
inductive Format where
  | z | a | ab | ai | an | f
deriving DecidableEq, Repr

/-- Why a word sequence is no command: the decode checks of 30_encoding.md R81 that look at words alone, in their order. -/
inductive DecodeError where
  /-- check (1): `op` is not in the table (30_encoding.md R76) -/
  | illegalOpcode
  /-- check (2): a must-be-zero bit of the command word is set (30_encoding.md R75) -/
  | mustBeZero
  /-- check (3): the command's words run past the program (30_encoding.md R79) -/
  | truncated
  /-- check (4): one of bits 29:24 of `FS0` is set (30_encoding.md R75, 46_system.md R201) -/
  | floatSpecReserved
  /-- check (5): a used register field is NV or more (30_encoding.md R77) -/
  | registerRange
deriving DecidableEq, Repr

/-- The opcode column of the map (30_encoding.md R74). -/
def Opcode.code : Opcode → BitVec 8
  | .nop => 0x00#8
  | .ldfs => 0x01#8
  | .ldlB => 0x10#8
  | .ldlD => 0x11#8
  | .nrmB => 0x12#8
  | .nrmD => 0x13#8
  | .mov => 0x14#8
  | .clone => 0x15#8
  | .free => 0x16#8
  | .isZero => 0x20#8
  | .cmp => 0x21#8
  | .shift => 0x30#8
  | .add => 0x31#8
  | .sub => 0x32#8
  | .mul => 0x33#8
  | .round => 0x34#8

/-- The format column of the map (30_encoding.md R74). -/
def Opcode.format : Opcode → Format
  | .nop => .z
  | .ldfs => .f
  | .ldlB => .ai
  | .ldlD => .ai
  | .nrmB => .an
  | .nrmD => .an
  | .mov => .ab
  | .clone => .ab
  | .free => .a
  | .isZero => .a
  | .cmp => .ab
  | .shift => .ai
  | .add => .ab
  | .sub => .ab
  | .mul => .ab
  | .round => .a

/-- The rows of the map in its order (30_encoding.md R74). -/
def opcodeRows : List Opcode :=
  [.nop, .ldfs, .ldlB, .ldlD, .nrmB, .nrmD, .mov, .clone, .free, .isZero, .cmp, .shift, .add, .sub, .mul, .round]

/-- The row whose opcode is `c`, if there is one (30_encoding.md R74, R76). -/
def opcodeOf (c : BitVec 8) : Option Opcode := opcodeRows.find? (fun o => o.code == c)

/-- The must-be-zero bits of a format's command word, the dots of 30_encoding.md R72. -/
def Format.zeroMask : Format → Word
  | .z => 0x00FFFFFF#32
  | .a => 0x000FFFFF#32
  | .ab => 0x0000FFFF#32
  | .ai => 0x000FFFFF#32
  | .an => 0x000F0000#32
  | .f => 0x00FFFFFF#32

/-- The match column of the map (30_encoding.md R74). -/
def Opcode.matchWord (o : Opcode) : Word := o.code ++ (0#24 : BitVec 24)

/-- The mask column of the map: `op` and every must-be-zero bit (30_encoding.md R74). -/
def Opcode.matchMask (o : Opcode) : Word := 0xFF000000#32 ||| o.format.zeroMask

/-- Field `op`, bits 31:24 (30_encoding.md R71). -/
def opField (w : Word) : BitVec 8 := w.extractLsb' 24 8

/-- Field `a`, bits 23:20 (30_encoding.md R71). -/
def aField (w : Word) : BitVec 4 := w.extractLsb' 20 4

/-- Field `b`, bits 19:16 (30_encoding.md R71). -/
def bField (w : Word) : BitVec 4 := w.extractLsb' 16 4

/-- Field `n`, bits 15:0 (30_encoding.md R71). -/
def nField (w : Word) : BitVec 16 := w.extractLsb' 0 16

/-- The number of words of a command of this format with this command word (30_encoding.md R80). -/
def Format.words : Format → Word → Nat
  | .z, _ => 1
  | .a, _ => 1
  | .ab, _ => 1
  | .ai, _ => 2
  | .an, w => (nField w).toNat + 2
  | .f, _ => 3

/-- The value register a field names, if it names one (30_encoding.md R77). -/
def regOf (x : BitVec 4) : Option VIx :=
  if h : x.toNat < Config.numValueRegs then some ⟨x.toNat, h⟩ else none

/-- Check (5) of 30_encoding.md R81 on field `a`. -/
def decodeA (w : Word) (mk : VIx → Instr) : Except DecodeError Instr :=
  match regOf (aField w) with
  | some d => .ok (mk d)
  | none => .error .registerRange

/-- Check (5) of 30_encoding.md R81 on fields `a` and `b`. -/
def decodeAB (w : Word) (mk : VIx → VIx → Instr) : Except DecodeError Instr :=
  match regOf (aField w), regOf (bField w) with
  | some d, some r => .ok (mk d r)
  | _, _ => .error .registerRange

/-- Format AI: the immediate is word 1 (30_encoding.md R72). -/
def decodeAI (w : Word) (ext : List Word) (mk : VIx → Word → Instr) : Except DecodeError Instr :=
  match ext with
  | imm :: _ => decodeA w (fun d => mk d imm)
  | [] => .error .truncated

/-- Format AN: the place is word 1, the limbs are words 2 to n + 1 (30_encoding.md R72). -/
def decodeAN (w : Word) (ext : List Word) (mk : VIx → Word → List Word → Instr) : Except DecodeError Instr :=
  match ext with
  | place :: limbs => decodeA w (fun d => mk d place (limbs.take (nField w).toNat))
  | [] => .error .truncated

/-- The fields of `FS0` and `FS1` (30_encoding.md R73). -/
def unpackFloatSpec (fs0 fs1 : Word) : FloatSpec :=
  { m := fs0.extractLsb' 0 16
    eb := fs0.extractLsb' 16 8
    e1 := fs1
    den := fs0.getLsbD 30
    nan := fs0.getLsbD 31 }

/-- The reserved bits 29:24 of `FS0` (30_encoding.md R73, R75). -/
def floatSpecReservedBits (fs0 : Word) : BitVec 6 := fs0.extractLsb' 24 6

/-- Format F with check (4) of 30_encoding.md R81. -/
def decodeF (ext : List Word) : Except DecodeError Instr :=
  match ext with
  | fs0 :: fs1 :: _ =>
    if floatSpecReservedBits fs0 = 0#6 then .ok (.ldfs (unpackFloatSpec fs0 fs1)) else .error .floatSpecReserved
  | _ => .error .truncated

/-- The command of an opcode from its command word and the words after it: checks (4) and (5) of 30_encoding.md R81. -/
def decodeOperands (o : Opcode) (w : Word) (ext : List Word) : Except DecodeError Instr :=
  match o with
  | .nop => .ok .nop
  | .ldfs => decodeF ext
  | .ldlB => decodeAI w ext .ldlB
  | .ldlD => decodeAI w ext .ldlD
  | .nrmB => decodeAN w ext .nrmB
  | .nrmD => decodeAN w ext .nrmD
  | .mov => decodeAB w .mov
  | .clone => decodeAB w .clone
  | .free => decodeA w .free
  | .isZero => decodeA w .isZero
  | .cmp => decodeAB w .cmp
  | .shift => decodeAI w ext .shift
  | .add => decodeAB w .add
  | .sub => decodeAB w .sub
  | .mul => decodeAB w .mul
  | .round => decodeA w .round

/-- The command at the head of a word list, or the first decode check of 30_encoding.md R81 that fails, checks (1) to (5).
`ws` is the program from the command counter on, so that its end is PLEN. Check (6), equal register fields, is the first
thing the meanings of MOV, CLONE, ADD, SUB and MUL do (notes/assumptions/11.md). -/
def decode (ws : List Word) : Except DecodeError Instr :=
  match ws with
  | [] => .error .truncated
  | w :: ext =>
    match opcodeOf (opField w) with
    | none => .error .illegalOpcode
    | some o =>
      if w &&& o.format.zeroMask ≠ 0#32 then .error .mustBeZero
      else if ext.length + 1 < o.format.words w then .error .truncated
      else decodeOperands o w ext

/-! ### The encoder -/

/-- A register index as a register field (30_encoding.md R71). -/
def regField (d : VIx) : BitVec 4 := BitVec.ofNat 4 d.val

/-- A command word from its fields (30_encoding.md R71). -/
def commandWord (o : Opcode) (a b : BitVec 4) (n : BitVec 16) : Word := o.code ++ a ++ b ++ n

/-- `FS0` from the FloatSpec (30_encoding.md R73, R82). -/
def packFloatSpec (spec : FloatSpec) : Word :=
  BitVec.ofBool spec.nan ++ BitVec.ofBool spec.den ++ (0#6 : BitVec 6) ++ spec.eb ++ spec.m

/-- Formats A and AI, command word. -/
def wordA (o : Opcode) (d : VIx) : Word := commandWord o (regField d) 0#4 0#16

/-- Format AB, command word. -/
def wordAB (o : Opcode) (d r : VIx) : Word := commandWord o (regField d) (regField r) 0#16

/-- Format AN, command word: `n` is the limb count. -/
def wordAN (o : Opcode) (d : VIx) (n : Nat) : Word := commandWord o (regField d) 0#4 (BitVec.ofNat 16 n)

/-- The words of a command (30_encoding.md R72, R82). -/
def encode : Instr → List Word
  | .nop => [commandWord .nop 0#4 0#4 0#16]
  | .ldfs spec => [commandWord .ldfs 0#4 0#4 0#16, packFloatSpec spec, spec.e1]
  | .ldlB d limb => [wordA .ldlB d, limb]
  | .ldlD d limb => [wordA .ldlD d, limb]
  | .nrmB d place limbs => wordAN .nrmB d limbs.length :: place :: limbs
  | .nrmD d place limbs => wordAN .nrmD d limbs.length :: place :: limbs
  | .mov d r => [wordAB .mov d r]
  | .clone d r => [wordAB .clone d r]
  | .free d => [wordA .free d]
  | .isZero r => [wordA .isZero r]
  | .cmp a b => [wordAB .cmp a b]
  | .shift d offset => [wordA .shift d, offset]
  | .add d r => [wordAB .add d r]
  | .sub d r => [wordAB .sub d r]
  | .mul d r => [wordAB .mul d r]
  | .round d => [wordA .round d]

/-! ### One word of the opcode table -/

/-- The first `k` words of a number read 32 bits at a time, its low bits first. -/
def splitWords : Nat → Nat → List Word
  | 0, _ => []
  | k + 1, x => BitVec.ofNat 32 x :: splitWords k (x / 4294967296)

/-- How many words the command with this command word takes (30_encoding.md R80; one for an undefined opcode, R76). -/
def commandLength (w : Word) : Nat :=
  match opcodeOf (opField w) with
  | some o => o.format.words w
  | none => 1

/-- The program that holds just the instruction whose low `nbits` bits are those of `w` and whose other bits are 0: as many
words as its command word announces. -/
def tableProgram (nbits w : Nat) : List Word :=
  splitWords (commandLength (BitVec.ofNat 32 (w % 2 ^ nbits))) (w % 2 ^ nbits)

/-- The instruction the decoder reads from an instruction whose bits are `w`, numbered as spec/opcode_table.json numbers
them, with every bit from `nbits` on 0; none where it refuses. -/
def decodeTableWord (nbits w : Nat) : Option Instr :=
  match decode (tableProgram nbits w) with
  | .ok i => some i
  | .error _ => none

end Sys2Proof
end

