-- ==== Sys2Proof/Machine/State.lean ====
section
/-! DEFINITION. The state of the unit as plain data (10_state.md R20 to R39), the model's own input fields, the reasons a
step can stop, and the state after reset. -/

namespace Sys2Proof.Machine

open Sys2Proof

/-- A value register (10_state.md R22, R23): EMPTY owns no value, else the tag is the radix and the value its fields. -/
inductive VReg where
  /-- tag EMPTY: "the register owns no value"; it is not zero (10_state.md R22, R27) -/
  | empty
  /-- tag BIN or DEC with the value's fields -/
  | value (t : Radix) (v : BigFloat)
deriving DecidableEq, Repr

/-- The limb store, the unit's one memory: the eight value registers with their limb lists (20_memory.md R50(a), 10_state.md
R21). -/
abbrev Memory := Vector VReg Config.numValueRegs

/-- The four flags (10_state.md R32). -/
structure Flags where
  z  : Bool
  lt : Bool
  eq : Bool
  gt : Bool
deriving DecidableEq, Repr

/-- `STATUS.RUN` (10_state.md R33). -/
inductive RunState where
  | idle | running | done | faulted
deriving DecidableEq, Repr

/-- The fault codes of `STATUS.ERR` (60_exceptions.md R230). Codes 8 to 15 are reserved and never produced. -/
inductive FaultCode where
  /-- 0, whenever RUN is not FAULTED -/
  | none
  /-- 1 -/
  | outOfMemory
  /-- 2 -/
  | integerOverflow
  /-- 3, host software's: the unit never raises it (60_exceptions.md R233) -/
  | malformedNumber
  /-- 4, host software's: the unit never raises it (60_exceptions.md R234) -/
  | notYetImplemented
  /-- 5, never raised (60_exceptions.md R235) -/
  | internalError
  /-- 6 -/
  | illegalCommand
  /-- 7 -/
  | invalidOperand
deriving DecidableEq, Repr

/-- What the host may do to the unit (60_exceptions.md R247): RESET (70_reset_and_hazards.md R260), START with a program
(R263), CLRERR (60_exceptions.md R245). -/
inductive HostAction where
  | reset
  | start (prog : List Word)
  | clrerr
deriving DecidableEq, Repr

/-- The step's free inputs (46_system.md R202) that are already fixed, oldest first, for each kind of draw; past their end
the opaque constants of Config answer, applied to `taken`. The MODEL's own field (notes/assumptions/4.md, 5.md, 6.md). -/
structure Oracle where
  /-- the allocator's answers, true for "returned null" (20_memory.md R58) -/
  alloc : List Bool
  /-- the either-outcome draws, true for IntegerOverflow (10_state.md R31, 42_normalize_shift.md R145) -/
  either : List Bool
  /-- the `Unspec_t` draws (10_state.md R38) -/
  unspec : List BigFloat
  /-- how many draws were answered by the opaque constants -/
  taken : Nat
deriving DecidableEq, Repr

/-- The whole state. `v`, `fs`, `flags`, `run`, `err`, `fsv`, `pc`, `epc` are the spec's (10_state.md R20); `prog` is the
launched program, a parameter of the run (its length is PLEN; notes/assumptions/2.md); `host` and `oracle` are the model's
own (notes/assumptions/3.md, 4.md). -/
structure State where
  /-- V0 .. V7 (10_state.md R21) -/
  v : Memory
  /-- the FloatSpec register (10_state.md R34) -/
  fs : FloatSpec
  /-- FLAGS (10_state.md R32) -/
  flags : Flags
  /-- STATUS.RUN (10_state.md R33) -/
  run : RunState
  /-- STATUS.ERR (10_state.md R33) -/
  err : FaultCode
  /-- STATUS.FSV (10_state.md R33) -/
  fsv : Bool
  /-- the command counter, a word index (10_state.md R29) -/
  pc : BitVec 32
  /-- the command counter of the faulting command (10_state.md R30) -/
  epc : BitVec 32
  /-- `Prog[0..PLEN-1]` (20_memory.md R50(b)) -/
  prog : List Word
  /-- what the host does at each coming step; none, or the list's end, for nothing -/
  host : List (Option HostAction)
  /-- the free inputs already fixed -/
  oracle : Oracle
deriving DecidableEq, Repr

/-- Why the model stops with a fault. -/
inductive Fault where
  /-- Raised by the sequencer when RUN is RUNNING and PC is past PLEN, which 70_reset_and_hazards.md R264 says "cannot
  occur". SAFE: no reachable state raises it (notes/assumptions/8.md). -/
  | pcPastProgram
deriving DecidableEq, Repr

/-- Why the model refuses to go on. -/
inductive Refusal where
  /-- An instruction with no meaning yet: raised by no arm of exec. SAFE. -/
  | notModelled (mnemonic : String)
  /-- Raised by START with 2^32 words or more, which is no program by 70_reset_and_hazards.md R263. SAFE
  (notes/assumptions/9.md). -/
  | programTooLong
deriving DecidableEq, Repr

/-- The machine right after reset (10_state.md R37). The model's own fields start empty (notes/assumptions/2.md, 7.md). -/
def State.reset : State :=
  { v := Vector.replicate Config.numValueRegs .empty
    fs := { m := 0#16, eb := 0#8, e1 := 0#32, den := false, nan := false }
    flags := { z := false, lt := false, eq := false, gt := false }
    run := .idle
    err := .none
    fsv := false
    pc := 0#32
    epc := 0#32
    prog := []
    host := []
    oracle := { alloc := [], either := [], unspec := [], taken := 0 } }

end Sys2Proof.Machine
end

