-- ==== Sys2Proof/Machine/Flags.lean ====
section
/-! DEFINITION. The flag computations (10_state.md R32): Z by ISZERO, LT EQ GT by CMP, nothing else. -/

namespace Sys2Proof.Machine

open Sys2Proof

/-- ISZERO's write: Z alone (43_compare.md R160; 10_state.md R32). -/
def Flags.withZero (f : Flags) (z : Bool) : Flags := { f with z := z }

/-- CMP's write from the relation of Va to Vb: LT, EQ, GT, exactly one of them 1; Z as it was (43_compare.md R161;
10_state.md R32). -/
def Flags.withOrdering (f : Flags) (o : Ordering) : Flags :=
  { f with lt := decide (o = .lt), eq := decide (o = .eq), gt := decide (o = .gt) }

/-- FLAGS as the host reads them, bit 0 Z, bit 1 LT, bit 2 EQ, bit 3 GT (10_state.md R32). -/
def Flags.word (f : Flags) : BitVec 4 :=
  BitVec.ofBool f.gt ++ BitVec.ofBool f.eq ++ BitVec.ofBool f.lt ++ BitVec.ofBool f.z

end Sys2Proof.Machine
end

