-- ==== Sys2Proof/Machine/Digits.lean ====
section
/-! DEFINITION. Radix properties, digit primitives, the normalized form, values and bounds (00_scope.md R5 to R15,
10_state.md R24 to R26). -/

namespace Sys2Proof.Machine

open Sys2Proof

/-! ### Radix properties (00_scope.md R5) -/

/-- `beta` (00_scope.md R5). -/
def base : Radix → Nat
  | .bin => 2
  | .dec => 10

/-- `D`, digits per limb (00_scope.md R5). -/
def digitsPerLimb : Radix → Nat
  | .bin => 32
  | .dec => 8

/-- `Pow[k] = beta^k` (00_scope.md R5). -/
def radixPow (t : Radix) (k : Nat) : Nat := base t ^ k

/-- `Mod = beta^D` (00_scope.md R5): 2^32 and 10^8. -/
def limbMod : Radix → Nat
  | .bin => 4294967296
  | .dec => 100000000

/-! ### Digit primitives (00_scope.md R12) -/

/-- Count the low zero digits of `x`, looking at no more than `fuel` digits. -/
def trailingZeros (beta : Nat) : Nat → Nat → Nat
  | 0, _ => 0
  | fuel + 1, x => if x % beta = 0 then trailingZeros beta fuel (x / beta) + 1 else 0

/-- `tz_t(x)` for x > 0: the largest k with `beta^k` dividing x (00_scope.md R12). Never asked of 0
(notes/assumptions/20.md). -/
def tz (t : Radix) (x : Nat) : Nat := trailingZeros (base t) (Nat.log2 x + 1) x

/-- `lsb(x)`, the index of the lowest 1 bit of x > 0 (00_scope.md R12, 42_normalize_shift.md R148). -/
def lsb (x : Nat) : Nat := tz .bin x

/-- `msb(x)`, the index of the highest 1 bit of x > 0 (00_scope.md R12, 42_normalize_shift.md R148). -/
def msb (x : Nat) : Nat := Nat.log2 x

/-- Count the decimal digits of `x`, no more than `fuel`. -/
def decimalScan : Nat → Nat → Nat
  | 0, _ => 0
  | fuel + 1, x => if x = 0 then 0 else decimalScan fuel (x / 10) + 1

/-- `dc_t(x)`: the number of base-beta digits of x, 0 for 0; "for BIN and x > 0 this is msb(x) + 1", for DEC it is found by
scanning the powers of ten (00_scope.md R12). -/
def digitCount : Radix → Nat → Nat
  | .bin, x => if x = 0 then 0 else msb x + 1
  | .dec, x => decimalScan (Nat.log2 x + 1) x

/-- `ceil(x / d)`. -/
def ceilDiv (x d : Nat) : Nat := (x + d - 1) / d

/-! ### Limb lists (00_scope.md R10, R11, 20_memory.md R53) -/

/-- The limbs of a list of words, each read as an unsigned number. -/
def limbNats (f : List Word) : List Nat := f.map BitVec.toNat

/-- Limbs as they are stored, 32 bits each. -/
def limbWords (s : List Nat) : List Word := s.map (BitVec.ofNat 32)

/-- `Σ s[k] * Mod^k` (00_scope.md R11). -/
def limbSum (t : Radix) : List Nat → Nat
  | [] => 0
  | x :: xs => x + limbMod t * limbSum t xs

/-- The `k` low limbs of a significand, least significant first (00_scope.md R13: `f[k] = (M div Mod^k) mod Mod`). -/
def limbsOf (t : Radix) : Nat → Nat → List Nat
  | 0, _ => []
  | k + 1, x => x % limbMod t :: limbsOf t k (x / limbMod t)

/-- `M(v)`, the integer significand (00_scope.md R11). -/
def significand (t : Radix) (v : BigFloat) : Nat := limbSum t (limbNats v.f)

/-- `val(v) = M(v) * beta^lp`, a rational number (00_scope.md R11). -/
def valueOf (t : Radix) (v : BigFloat) : ℚ := (significand t v : ℚ) * (base t : ℚ) ^ v.lp

/-- The extent `lp + nd`, one more than the place of the most-significant digit (00_scope.md, glossary). -/
def extent (v : BigFloat) : Int := v.lp + v.nd

/-- `M(v) * beta^(lp - L)`: the significand counted from the lower place L. -/
def significandAt (t : Radix) (v : BigFloat) (L : Int) : Nat := significand t v * radixPow t (v.lp - L).toNat

/-- `digit_t(v, p)`: the digit of weight `beta^p` in `val(v)` (00_scope.md R12). -/
def digitAt (t : Radix) (v : BigFloat) (p : Int) : Nat :=
  if p < v.lp then 0 else significand t v / radixPow t (p - v.lp).toNat % base t

/-! ### The normalized form (10_state.md R24) and the bounds (R26) -/

/-- A nonzero normalized value's conditions (a) to (e) (10_state.md R24), on limbs as numbers. -/
def limbsNormal (t : Radix) (nd : Nat) (s : List Nat) : Bool :=
  match s with
  | [] => false
  | x :: xs =>
    decide (x % base t ≠ 0)
      && decide ((x :: xs).getLastD 0 ≠ 0)
      && decide (nd = digitsPerLimb t * xs.length + digitCount t ((x :: xs).getLastD 0))
      && (x :: xs).all (fun y => decide (y < limbMod t))

/-- The invariant of a stored value: "normalized — no leading/trailing zero limb, lowest digit nonzero unless value is
exactly zero (then numDigits=0, fragments empty, lowPlace=0)" (10_state.md R24). -/
def normalized (t : Radix) (v : BigFloat) : Bool :=
  if v.nd = 0 then decide (v.lp = 0) && v.f.isEmpty else limbsNormal t v.nd (limbNats v.f)

/-- `InBounds(lp, nd)` (00_scope.md R15). -/
def inBounds (lp : Int) (nd : Nat) : Bool :=
  decide (nd ≤ Config.kMaxDigits) && decide (Config.kMinLowPlace ≤ lp) && decide (lp ≤ Config.kMaxLowPlace)

/-- A legal stored value of radix `t`: normalized and in bounds (10_state.md R24, R26). -/
def legalValue (t : Radix) (v : BigFloat) : Bool := normalized t v && inBounds v.lp v.nd

/-- `Canon_t(n * beta^e)` (00_scope.md R13). -/
def canon (t : Radix) (n : Nat) (e : Int) : BigFloat :=
  if n = 0 then .zero
  else
    { lp := e + tz t n
      nd := digitCount t (n / radixPow t (tz t n))
      f := limbWords
        (limbsOf t (ceilDiv (digitCount t (n / radixPow t (tz t n))) (digitsPerLimb t)) (n / radixPow t (tz t n))) }

/-- `v` is `Canon_t(q)`: it has the value `q` and meets 10_state.md R24 (00_scope.md R13: "the only triple that has value q
and meets the invariant"). -/
def IsCanon (t : Radix) (q : ℚ) (v : BigFloat) : Prop := normalized t v = true ∧ valueOf t v = q

end Sys2Proof.Machine
end

