-- ==== Sys2Proof/Machine/Limbs.lean ====
section
/-! DEFINITION. The limb-level procedures: the normalizer (42_normalize_shift.md R140 to R143), alignment (00_scope.md
R14), the carry chains of the adder and subtractor (41_add_sub.md R122, R127), the schoolbook multiplier (44_multiply.md
R171), the comparison (43_compare.md R162, R164) and the rounder's drop and round-up (45_round.md R185). NRM.B and NRM.D
run the normalizer; the other commands compute by their value rules, which are normative for results, and these
procedures are what the spec says the carry propagation is (notes/assumptions/19.md). -/

namespace Sys2Proof.Machine

open Sys2Proof

/-! ### The normalizer -/

/-- What the normalizer returns: low digits trimmed, digit count, limbs (42_normalize_shift.md R140). -/
structure Trimmed where
  trim : Nat
  nd   : Nat
  f    : List Nat
deriving DecidableEq, Repr

/-- Step 1: drop the zero limbs at the low end (42_normalize_shift.md R141). -/
def dropLowZeros : List Nat → List Nat
  | [] => []
  | x :: xs => if x = 0 then dropLowZeros xs else x :: xs

/-- Step 2: divide the list by `beta^j`, each limb's low `j` digits going to the top of the limb below
(42_normalize_shift.md R142). For `j = 0` this is the list itself. -/
def digitShift (t : Radix) (j : Nat) : List Nat → List Nat
  | [] => []
  | [x] => [x / radixPow t j]
  | x :: y :: rest => (x / radixPow t j + y % radixPow t j * radixPow t (digitsPerLimb t - j)) :: digitShift t j (y :: rest)

/-- Step 3: drop the zero limbs at the high end (42_normalize_shift.md R143). -/
def dropHighZeros : List Nat → List Nat
  | [] => []
  | x :: xs =>
    match dropHighZeros xs with
    | [] => if x = 0 then [] else [x]
    | y :: ys => x :: y :: ys

/-- Step 3's digit count: `D * h + dc_t(w[h])` (42_normalize_shift.md R143). -/
def countDigits (t : Radix) : List Nat → Nat
  | [] => 0
  | x :: xs => digitsPerLimb t * xs.length + digitCount t ((x :: xs).getLastD 0)

/-- `Normalize_t(s)` (42_normalize_shift.md R140 to R143). -/
def normalizeLimbs (t : Radix) (s : List Nat) : Trimmed :=
  match dropLowZeros s with
  | [] => { trim := 0, nd := 0, f := [] }
  | x :: xs =>
    { trim := (s.length - (xs.length + 1)) * digitsPerLimb t + tz t x
      nd := countDigits t (dropHighZeros (digitShift t (tz t x) (x :: xs)))
      f := dropHighZeros (digitShift t (tz t x) (x :: xs)) }

/-- The value whose raw grid is `s` with low place `L`: the caller adds `trim` to the grid's low place, and zero is the
canonical zero (42_normalize_shift.md R140, R141). -/
def fromGrid (t : Radix) (s : List Nat) (L : Int) : BigFloat :=
  if (normalizeLimbs t s).nd = 0 then .zero
  else { lp := L + (normalizeLimbs t s).trim, nd := (normalizeLimbs t s).nd, f := limbWords (normalizeLimbs t s).f }

/-! ### Alignment -/

/-- Limb `k - q` of `f`, and 0 outside the list (00_scope.md R14; 43_compare.md R165: no out-of-range limb is read). -/
def limbBelow (f : List Nat) (k q : Nat) : Nat := if q ≤ k then f.getD (k - q) 0 else 0

/-- `Align_t(f, delta, n)` (00_scope.md R14). -/
def align (t : Radix) (f : List Nat) (delta n : Nat) : List Nat :=
  (List.range n).map fun k =>
    limbBelow f k (delta / digitsPerLimb t) % radixPow t (digitsPerLimb t - delta % digitsPerLimb t)
        * radixPow t (delta % digitsPerLimb t)
      + limbBelow f k (delta / digitsPerLimb t + 1) / radixPow t (digitsPerLimb t - delta % digitsPerLimb t)

/-- The anchor `L = min(lpA, lpB)` of the limb grid (41_add_sub.md R122 step 1). -/
def anchor (a b : BigFloat) : Int := min a.lp b.lp

/-- `ceil((top - L) / D)`, the limbs that hold every digit from place L up to place top (41_add_sub.md R122 step 2). -/
def gridSize (t : Radix) (top L : Int) : Nat := ceilDiv (top - L).toNat (digitsPerLimb t)

/-- A value's limbs on the grid of `n` limbs anchored at `L`. -/
def alignAt (t : Radix) (v : BigFloat) (L : Int) (n : Nat) : List Nat :=
  align t (limbNats v.f) (v.lp - L).toNat n

/-! ### The carry chain -/

/-- The ripple-carry sum of two limb lists of one length with a carry in, and the carry out (41_add_sub.md R122 step 4). -/
def ripple (t : Radix) : List Nat → List Nat → Nat → List Nat × Nat
  | a :: as, b :: bs, c =>
    ((a + b + c) % limbMod t :: (ripple t as bs ((a + b + c) / limbMod t)).1,
      (ripple t as bs ((a + b + c) / limbMod t)).2)
  | _, _, c => ([], c)

/-- Limbs of the addition grid (41_add_sub.md R122 step 2). -/
def addGrid (t : Radix) (a b : BigFloat) : Nat := gridSize t (max (extent a) (extent b)) (anchor a b)

/-- The limb rule of ADD, both operands nonzero (41_add_sub.md R122). -/
def addLimbs (t : Radix) (a b : BigFloat) : BigFloat :=
  match ripple t (alignAt t a (anchor a b) (addGrid t a b)) (alignAt t b (anchor a b) (addGrid t a b)) 0 with
  | (s, c) => fromGrid t (if c = 1 then s ++ [1] else s) (anchor a b)

/-- Limbs of the subtraction grid (41_add_sub.md R127 step 1). -/
def subGrid (t : Radix) (a b : BigFloat) : Nat := gridSize t (extent a) (anchor a b)

/-- "invert aligned digits mod limbModulo−1" (41_add_sub.md R127 step 2). -/
def invertLimbs (t : Radix) (s : List Nat) : List Nat := s.map (fun x => limbMod t - 1 - x)

/-- The sum and carry out of the complement subtraction (41_add_sub.md R127 steps 2 to 4). -/
def complementSum (t : Radix) (a b : BigFloat) : List Nat × Nat :=
  ripple t (alignAt t a (anchor a b) (subGrid t a b)) (invertLimbs t (alignAt t b (anchor a b) (subGrid t a b))) 1

/-- The limb rule of SUB, both operands nonzero, the subtrahend not above the minuend (41_add_sub.md R127). -/
def subLimbs (t : Radix) (a b : BigFloat) : BigFloat := fromGrid t (complementSum t a b).1 (anchor a b)

/-! ### The schoolbook multiplier -/

/-- One row: `x` times the limbs of B added to the accumulator from index i on, with the running carry (44_multiply.md
R171). -/
def mulRow (t : Radix) (x : Nat) : List Nat → List Nat → Nat → List Nat
  | b :: bs, y :: ys, c => (x * b + y + c) % limbMod t :: mulRow t x bs ys ((x * b + y + c) / limbMod t)
  | [], _ :: ys, c => c :: ys
  | _, [], _ => []

/-- The rows for the limbs of A in order; after row i limb i of the accumulator is final (44_multiply.md R171). -/
def mulRows (t : Radix) : List Nat → List Nat → List Nat → List Nat
  | [], _, acc => acc
  | x :: xs, fB, acc =>
    match mulRow t x fB acc 0 with
    | [] => []
    | y :: ys => y :: mulRows t xs fB ys

/-- The limb rule of MUL, both operands nonzero (44_multiply.md R171). -/
def mulLimbs (t : Radix) (a b : BigFloat) : BigFloat :=
  fromGrid t (mulRows t (limbNats a.f) (limbNats b.f) (List.replicate (a.f.length + b.f.length) 0)) (a.lp + b.lp)

/-! ### Comparison -/

/-- Compare two limb lists of one length from the top; stop at the first mismatch (43_compare.md R162 step 2). -/
def compareTop : List Nat → List Nat → Ordering
  | a :: as, b :: bs =>
    match compareTop as bs with
    | .eq => compare a b
    | o => o
  | _, _ => .eq

/-- The procedure for two nonzero operands: extents first, then aligned limbs from the top (43_compare.md R162). -/
def compareNonzero (t : Radix) (a b : BigFloat) : Ordering :=
  match compare (extent a) (extent b) with
  | .eq =>
    compareTop (alignAt t a (anchor a b) (gridSize t (extent a) (anchor a b)))
      (alignAt t b (anchor a b) (gridSize t (extent a) (anchor a b)))
  | o => o

/-- The comparison with zero operands decided first (43_compare.md R164; 90_conflicts.md C4). -/
def compareLimbs (t : Radix) (a b : BigFloat) : Ordering :=
  if a.nd = 0 then (if b.nd = 0 then .eq else .lt)
  else if b.nd = 0 then .gt
  else compareNonzero t a b

/-! ### The rounder's limbs -/

/-- The limbs of `M div 2^drop`, at least one (45_round.md R185 step 1). -/
def dropBits (f : List Nat) (drop : Nat) : List Nat :=
  (List.range (max (f.length - drop / 32) 1)).map fun k =>
    f.getD (k + drop / 32) 0 / 2 ^ (drop % 32) + f.getD (k + drop / 32 + 1) 0 % 2 ^ (drop % 32) * 2 ^ (32 - drop % 32)

/-- Add a carry at the lowest limb; a carry out of the top limb is a new limb (45_round.md R185 step 2). -/
def addCarry : List Nat → Nat → List Nat
  | [], c => if c = 0 then [] else [c]
  | x :: xs, c => (x + c) % 4294967296 :: addCarry xs ((x + c) / 4294967296)

/-- The limb rule of the round-up: drop, add `up`, renormalize (45_round.md R185). -/
def roundLimbs (v : BigFloat) (drop up : Nat) : BigFloat :=
  fromGrid .bin (addCarry (dropBits (limbNats v.f) drop) up) (v.lp + drop)

end Sys2Proof.Machine
end

