-- ==== Sys2Proof/Machine/Ops.lean ====
section
/-! DEFINITION. The named operations over the state: register access, the command counter, the draws, fault entry and the
return from one, bound checking, allocation, delivery of a result, fetch, the host actions, and what the host reads. -/

namespace Sys2Proof.Machine

open Sys2Proof

/-! ### The limb store -/

/-- A register that holds no value, or a legal one (10_state.md R24, R26). -/
def VReg.legal : VReg → Bool
  | .empty => true
  | .value t v => legalValue t v

/-- The limb store's one canonical form: every non-empty register is normalized and in bounds (10_state.md R24, R26), so
that equal values are equal data (43_compare.md R163). -/
abbrev Memory.wf (m : Memory) : Prop := ∀ i : VIx, (m.get i).legal = true

/-- `V[i]` (00_scope.md R10). -/
def State.reg (s : State) (i : VIx) : VReg := s.v.get i

/-- `V[i] <- x`, all fields at once (00_scope.md R10). The buffer `V[i]` held before is released, which has no
architectural effect (20_memory.md R64). -/
def State.setReg (s : State) (i : VIx) (x : VReg) : State := { s with v := s.v.set i.val x i.isLt }

/-- The limbs of a register: none of an EMPTY one. -/
def VReg.limbs : VReg → List Word
  | .empty => []
  | .value _ v => v.f

/-- `MemRead((i,k), 1)`, the limb store's one read; a location (i, k) that does not exist answers none (20_memory.md R50,
R52). -/
def State.memRead (s : State) (i : VIx) (k : Nat) : Option Word := (s.reg i).limbs[k]?

/-! ### The command counter -/

/-- A command that completes adds its own length in words to PC (10_state.md R29). -/
def State.advance (s : State) (words : Nat) : State := { s with pc := s.pc + BitVec.ofNat 32 words }

/-! ### The free inputs of a step (46_system.md R202) -/

/-- The next answer of the allocator: true for "returned null" (20_memory.md R58; notes/assumptions/4.md). -/
def Oracle.allocFails (o : Oracle) : Bool :=
  match o.alloc with
  | b :: _ => b
  | [] => Config.allocFails o.taken

/-- The draws left after one answer of the allocator. -/
def Oracle.afterAlloc (o : Oracle) : Oracle :=
  match o.alloc with
  | _ :: bs => { o with alloc := bs }
  | [] => { o with taken := o.taken + 1 }

/-- The next either-outcome draw: true for IntegerOverflow (10_state.md R31, 42_normalize_shift.md R145;
notes/assumptions/5.md). -/
def Oracle.eitherFaults (o : Oracle) : Bool :=
  match o.either with
  | b :: _ => b
  | [] => Config.eitherFaults o.taken

/-- The draws left after one either-outcome draw. -/
def Oracle.afterEither (o : Oracle) : Oracle :=
  match o.either with
  | _ :: bs => { o with either := bs }
  | [] => { o with taken := o.taken + 1 }

/-- A draw held to its limit: "some triple meeting rules R24 and R26"; every such triple is itself (10_state.md R38;
notes/assumptions/6.md). -/
def legalized (t : Radix) (v : BigFloat) : BigFloat := if legalValue t v then v else .zero

/-- The next `Unspec_t` (10_state.md R38). -/
def Oracle.unspecified (o : Oracle) (t : Radix) : BigFloat :=
  match o.unspec with
  | v :: _ => legalized t v
  | [] => legalized t (Config.unspecified o.taken t)

/-- The draws left after one `Unspec_t`. -/
def Oracle.afterUnspec (o : Oracle) : Oracle :=
  match o.unspec with
  | _ :: vs => { o with unspec := vs }
  | [] => { o with taken := o.taken + 1 }

/-- The state with other draws left. -/
def State.withOracle (s : State) (o : Oracle) : State := { s with oracle := o }

/-! ### Fault entry and the return from it -/

/-- `raise X`: the one fault entry. ERR takes the code, EPC the command counter of the faulting command, RUN is FAULTED; PC
is not advanced and nothing else changes (60_exceptions.md R240, R241). -/
def State.raise (s : State) (code : FaultCode) : State := { s with run := .faulted, err := code, epc := s.pc }

/-- `raise X` for OutOfMemory and IntegerOverflow: the destination Vd is left with `Unspec_t` (60_exceptions.md R241,
10_state.md R38), then fault entry. -/
def State.raiseInto (s : State) (code : FaultCode) (d : VIx) (t : Radix) : State :=
  ((s.setReg d (.value t (s.oracle.unspecified t))).withOracle s.oracle.afterUnspec).raise code

/-- CLRERR, the host's return from a fault: needs RUN = FAULTED, else it does nothing (60_exceptions.md R245). -/
def State.clearError (s : State) : State :=
  match s.run with
  | .faulted => { s with run := .idle, err := .none }
  | .idle => s
  | .running => s
  | .done => s

/-! ### Bounds, allocation, delivery -/

/-- The three answers of `BoundCheck` (10_state.md R31). -/
inductive BoundAnswer where
  /-- both pairs in bounds: no IntegerOverflow -/
  | fits
  /-- the final pair out of bounds: IntegerOverflow -/
  | overflow
  /-- only the intermediate out of bounds: a draw decides -/
  | grey
deriving DecidableEq, Repr

/-- `BoundCheck(final, pre)` (10_state.md R31). -/
def boundCheck (lp : Int) (nd : Nat) (plp : Int) (pnd : Nat) : BoundAnswer :=
  if inBounds lp nd = false then .overflow
  else if inBounds plp pnd = false then .grey
  else .fits

/-- The allocation of an allocating command: one answer of the allocator is taken; null raises OutOfMemory with `Unspec_t` in
Vd, else the command goes on (20_memory.md R58). -/
def State.allocating (s : State) (d : VIx) (t : Radix) (rest : State → State) : State :=
  if s.oracle.allocFails then (s.withOracle s.oracle.afterAlloc).raiseInto .outOfMemory d t
  else rest (s.withOracle s.oracle.afterAlloc)

/-- A command of `words` words completes with `V[d] <- (t, v)`. -/
def State.complete (s : State) (d : VIx) (t : Radix) (v : BigFloat) (words : Nat) : State :=
  (s.setReg d (.value t v)).advance words

/-- `BoundCheck(final = (v.lp, v.nd), pre = (plp, pnd))`, then `V[d] <- (t, v)` and the end of a command of `words` words;
IntegerOverflow leaves `Unspec_t` in Vd (10_state.md R31, R38). -/
def State.deliver (s : State) (d : VIx) (t : Radix) (v : BigFloat) (plp : Int) (pnd words : Nat) : State :=
  match boundCheck v.lp v.nd plp pnd with
  | .fits => s.complete d t v words
  | .overflow => s.raiseInto .integerOverflow d t
  | .grey =>
    if s.oracle.eitherFaults then (s.withOracle s.oracle.afterEither).raiseInto .integerOverflow d t
    else (s.withOracle s.oracle.afterEither).complete d t v words

/-! ### The FloatSpec register -/

/-- FS takes all five fields together and FSV becomes 1 (46_system.md R201). -/
def State.loadFloatSpec (s : State) (spec : FloatSpec) : State := { s with fs := spec, fsv := true }

/-- FLAGS take a new value. -/
def State.withFlags (s : State) (f : Flags) : State := { s with flags := f }

/-! ### Fetch -/

/-- What the command counter points at (46_system.md R202, 70_reset_and_hazards.md R264). -/
inductive Fetched where
  /-- PC = PLEN: the run is over -/
  | endOfProgram
  /-- PC > PLEN, which cannot occur -/
  | pastProgram
  /-- the program's words from PC on -/
  | words (ws : List Word)
deriving DecidableEq, Repr

/-- The program's words from PC on; no word at or beyond PLEN is read (30_encoding.md R79, 10_state.md R29). -/
def State.fetch (s : State) : Fetched :=
  if s.pc.toNat = s.prog.length then .endOfProgram
  else if s.prog.length < s.pc.toNat then .pastProgram
  else .words (s.prog.drop s.pc.toNat)

/-! ### Host actions -/

/-- START's effect in IDLE and DONE: PC is 0 and RUN is RUNNING, every other item of state is kept; in RUNNING and FAULTED
it is refused and changes nothing (70_reset_and_hazards.md R263). -/
def State.launch (s : State) (prog : List Word) : State :=
  match s.run with
  | .idle => { s with pc := 0#32, run := .running, prog := prog }
  | .done => { s with pc := 0#32, run := .running, prog := prog }
  | .running => s
  | .faulted => s

/-- RESET: every item of the spec's state at its reset value (70_reset_and_hazards.md R260); the model's own inputs go on
(notes/assumptions/17.md). -/
def State.hostReset (s : State) : State := { State.reset with host := s.host, oracle := s.oracle }

/-- One host action (60_exceptions.md R247). A START with 2^32 words or more is no START (70_reset_and_hazards.md R263;
notes/assumptions/9.md). -/
def hostAct (a : HostAction) (s : State) : Host.Outcome State Fault Refusal :=
  match a with
  | .reset => .next s.hostReset
  | .start prog => if prog.length < 4294967296 then .next (s.launch prog) else .refused .programTooLong
  | .clrerr => .next s.clearError

/-! ### What the host reads (10_state.md R39) -/

/-- `STATUS.RUN`'s code (10_state.md R33). -/
def RunState.code : RunState → BitVec 2
  | .idle => 0#2
  | .running => 1#2
  | .done => 2#2
  | .faulted => 3#2

/-- The number of a fault code (60_exceptions.md R230). -/
def FaultCode.code : FaultCode → BitVec 4
  | .none => 0#4
  | .outOfMemory => 1#4
  | .integerOverflow => 2#4
  | .malformedNumber => 3#4
  | .notYetImplemented => 4#4
  | .internalError => 5#4
  | .illegalCommand => 6#4
  | .invalidOperand => 7#4

/-- STATUS as the host reads it: RUN in bits 1:0, ERR in bits 7:4, FSV in bit 8, every other bit 0 (10_state.md R33). -/
def State.statusWord (s : State) : Word :=
  (0#23 : BitVec 23) ++ BitVec.ofBool s.fsv ++ s.err.code ++ (0#2 : BitVec 2) ++ s.run.code

end Sys2Proof.Machine
end

