-- ==== Sys2Proof/Machine/Operands.lean ====
section
/-! DEFINITION. How a command reads its operands: the immediates (30_encoding.md R73) and the operand checks of step (7)
(30_encoding.md R81, 60_exceptions.md R236), with check (6), distinct registers (30_encoding.md R78). -/

namespace Sys2Proof.Machine

open Sys2Proof

/-! ### Immediates (30_encoding.md R73) -/

/-- `zext_32`: the limb value of LDL and of an NRM limb. -/
def zeroExtended (w : Word) : Nat := w.toNat

/-- `sext_32`: the offset of SHIFT, the place of NRM, `FS1`. -/
def signExtended (w : Word) : Int := w.toInt

/-- A limb of radix `t`: below `Mod` (40_construct_move.md R102, 42_normalize_shift.md R147). Every word is a BIN limb. -/
def isLimb (t : Radix) (w : Word) : Bool := decide (zeroExtended w < limbMod t)

/-! ### Registers -/

/-- Check (6): the command goes on if its two registers differ, else IllegalCommand (30_encoding.md R78). -/
def State.distinct (s : State) (d r : VIx) (rest : State → State) : State :=
  if d = r then s.raise .illegalCommand else rest s

/-- The shared check of two operands: both non-empty and of one radix, else nothing (41_add_sub.md R120). -/
def operandPair (x y : VReg) : Option (Radix × BigFloat × BigFloat) :=
  match x, y with
  | .value t a, .value u b => if t = u then some (t, a, b) else none
  | _, _ => none

/-- The command goes on with `V[d]` and `V[r]` if R120 holds of them, else InvalidOperand (41_add_sub.md R120). -/
def State.withPair (s : State) (d r : VIx) (rest : Radix → BigFloat → BigFloat → State) : State :=
  match operandPair (s.reg d) (s.reg r) with
  | some (t, a, b) => rest t a b
  | none => s.raise .invalidOperand

/-- The command goes on with the value of `V[i]`, or raises InvalidOperand if it is EMPTY (10_state.md R27). -/
def State.withValue (s : State) (i : VIx) (rest : Radix → BigFloat → State) : State :=
  match s.reg i with
  | .value t v => rest t v
  | .empty => s.raise .invalidOperand

/-- The relation of two values of one radix, compared as exact numbers on their common low place (43_compare.md R161). -/
def compareValues (t : Radix) (a b : BigFloat) : Ordering :=
  compare (significandAt t a (anchor a b)) (significandAt t b (anchor a b))

end Sys2Proof.Machine
end

