-- ==== Sys2Proof/Machine/AddSub.lean ====
section
/-! DEFINITION. ADD and SUB by their value rules (41_add_sub.md R121, R125). -/

namespace Sys2Proof.Machine

open Sys2Proof

/-- `Canon_t(val(A) + val(B))`, summed on the common low place (41_add_sub.md R121). -/
def sumValue (t : Radix) (a b : BigFloat) : BigFloat :=
  canon t (significandAt t a (anchor a b) + significandAt t b (anchor a b)) (anchor a b)

/-- `Canon_t(val(A) - val(B))` for `val(B) ≤ val(A)`, on the common low place (41_add_sub.md R125). -/
def diffValue (t : Radix) (a b : BigFloat) : BigFloat :=
  canon t (significandAt t a (anchor a b) - significandAt t b (anchor a b)) (anchor a b)

/-- The digit count of ADD's intermediate, `D * (n + 1)` (41_add_sub.md R123). -/
def addPreDigits (t : Radix) (a b : BigFloat) : Nat := digitsPerLimb t * (addGrid t a b + 1)

/-- The digit count of SUB's intermediate, `D * n` (41_add_sub.md R128). -/
def subPreDigits (t : Radix) (a b : BigFloat) : Nat := digitsPerLimb t * subGrid t a b

/-- ADD (41_add_sub.md R121). -/
def execAdd (d r : VIx) (s : State) : Host.Outcome State Fault Refusal :=
  .next (s.distinct d r fun s => s.withPair d r fun t a b =>
    s.allocating d t fun s' =>
      if b.nd = 0 then s'.advance 1
      else if a.nd = 0 then s'.complete d t b 1
      else s'.deliver d t (sumValue t a b) (anchor a b) (addPreDigits t a b) 1)

/-- SUB (41_add_sub.md R125, R126). -/
def execSub (d r : VIx) (s : State) : Host.Outcome State Fault Refusal :=
  .next (s.distinct d r fun s => s.withPair d r fun t a b =>
    match compareValues t a b with
    | .lt => s.raise .invalidOperand
    | .eq => s.allocating d t fun s' => if b.nd = 0 then s'.advance 1 else s'.complete d t .zero 1
    | .gt => s.allocating d t fun s' =>
      if b.nd = 0 then s'.advance 1
      else s'.deliver d t (diffValue t a b) (anchor a b) (subPreDigits t a b) 1)

end Sys2Proof.Machine
end

