-- ==== Sys2Proof/Machine/Compare.lean ====
section
/-! DEFINITION. ISZERO and CMP (43_compare.md R160, R161). -/

namespace Sys2Proof.Machine

open Sys2Proof

/-- ISZERO (43_compare.md R160). -/
def execIsZero (r : VIx) (s : State) : Host.Outcome State Fault Refusal :=
  .next (s.withValue r fun _ v => (s.withFlags (s.flags.withZero (decide (v.nd = 0)))).advance 1)

/-- CMP (43_compare.md R161); the two registers may be one. -/
def execCmp (a b : VIx) (s : State) : Host.Outcome State Fault Refusal :=
  .next (s.withPair a b fun t x y => (s.withFlags (s.flags.withOrdering (compareValues t x y))).advance 1)

end Sys2Proof.Machine
end

