-- ==== Sys2Proof/Machine/ConstructMove.lean ====
section
/-! DEFINITION. LDL.B, LDL.D, MOV, CLONE, FREE (40_construct_move.md R101 to R107). -/

namespace Sys2Proof.Machine

open Sys2Proof

/-- Construct: strip the limb's trailing zero digits into the low place, count the digits left (40_construct_move.md R101,
R102). -/
def construct (t : Radix) (x : Nat) : BigFloat :=
  if x = 0 then .zero
  else { lp := tz t x, nd := digitCount t (x / radixPow t (tz t x)), f := [BitVec.ofNat 32 (x / radixPow t (tz t x))] }

/-- The common part of LDL.B and LDL.D: the limb must be a limb of the radix, then one allocation (40_construct_move.md
R101, R102). -/
def State.loadLimb (s : State) (t : Radix) (d : VIx) (limb : Word) : State :=
  if isLimb t limb then s.allocating d t fun s' => s'.complete d t (construct t (zeroExtended limb)) 2
  else s.raise .invalidOperand

/-- LDL.B (40_construct_move.md R101). -/
def execLdlB (d : VIx) (limb : Word) (s : State) : Host.Outcome State Fault Refusal := .next (s.loadLimb .bin d limb)

/-- LDL.D (40_construct_move.md R102). -/
def execLdlD (d : VIx) (limb : Word) (s : State) : Host.Outcome State Fault Refusal := .next (s.loadLimb .dec d limb)

/-- MOV (40_construct_move.md R105): the value changes owner and the source is EMPTY. -/
def execMov (d r : VIx) (s : State) : Host.Outcome State Fault Refusal :=
  .next (s.distinct d r fun s =>
    s.withValue r fun t v => ((s.setReg d (.value t v)).setReg r .empty).advance 1)

/-- CLONE (40_construct_move.md R106). -/
def execClone (d r : VIx) (s : State) : Host.Outcome State Fault Refusal :=
  .next (s.distinct d r fun s =>
    s.withValue r fun t v => s.allocating d t fun s' => s'.complete d t v 1)

/-- FREE (40_construct_move.md R107), legal on an EMPTY register. -/
def execFree (d : VIx) (s : State) : Host.Outcome State Fault Refusal := .next ((s.setReg d .empty).advance 1)

end Sys2Proof.Machine
end

