-- ==== Sys2Proof/Machine/Multiply.lean ====
section
/-! DEFINITION. MUL by its value rule (44_multiply.md R170). -/

namespace Sys2Proof.Machine

open Sys2Proof

/-- `Canon_t(val(A) * val(B))` (44_multiply.md R170). -/
def productValue (t : Radix) (a b : BigFloat) : BigFloat :=
  canon t (significand t a * significand t b) (a.lp + b.lp)

/-- The digit count of MUL's intermediate (44_multiply.md R173). -/
def mulPreDigits (t : Radix) (a b : BigFloat) : Nat :=
  max (a.nd + b.nd + 1) (digitsPerLimb t * (a.f.length + b.f.length))

/-- MUL (44_multiply.md R170). -/
def execMul (d r : VIx) (s : State) : Host.Outcome State Fault Refusal :=
  .next (s.distinct d r fun s => s.withPair d r fun t a b =>
    s.allocating d t fun s' =>
      if a.nd = 0 ∨ b.nd = 0 then s'.complete d t .zero 1
      else s'.deliver d t (productValue t a b) (a.lp + b.lp) (mulPreDigits t a b) 1)

end Sys2Proof.Machine
end

