-- ==== Sys2Proof/Machine/NormalizeShift.lean ====
section
/-! DEFINITION. NRM.B, NRM.D, SHIFT (42_normalize_shift.md R145 to R147). -/

namespace Sys2Proof.Machine

open Sys2Proof

/-- The common part of NRM.B and NRM.D: every limb must be a limb of the radix, then one allocation, the normalizer, and the
bounds tested on the normalized result only, so `pre` is the result itself and there is no grey band
(42_normalize_shift.md R146, R147). -/
def State.loadGrid (s : State) (t : Radix) (d : VIx) (place : Word) (limbs : List Word) : State :=
  if limbs.all (isLimb t) then
    s.allocating d t fun s' =>
      s'.deliver d t (fromGrid t (limbNats limbs) (signExtended place))
        (fromGrid t (limbNats limbs) (signExtended place)).lp (fromGrid t (limbNats limbs) (signExtended place)).nd
        (limbs.length + 2)
  else s.raise .invalidOperand

/-- NRM.B (42_normalize_shift.md R146). -/
def execNrmB (d : VIx) (place : Word) (limbs : List Word) (s : State) : Host.Outcome State Fault Refusal :=
  .next (s.loadGrid .bin d place limbs)

/-- NRM.D (42_normalize_shift.md R147). -/
def execNrmD (d : VIx) (place : Word) (limbs : List Word) (s : State) : Host.Outcome State Fault Refusal :=
  .next (s.loadGrid .dec d place limbs)

/-- A place or an offset outside the place bounds (42_normalize_shift.md R145). -/
def placeBad (p : Int) : Bool := decide (p < Config.kMinLowPlace) || decide (Config.kMaxLowPlace < p)

/-- SHIFT of a value by a digit offset (42_normalize_shift.md R145). Zero with an offset out of bounds is an either-outcome
draw (93_implementation_defined.md U2; notes/assumptions/5.md). -/
def State.shiftValue (s : State) (d : VIx) (t : Radix) (v : BigFloat) (off : Int) : State :=
  if v.nd = 0 then
    if placeBad off then
      if s.oracle.eitherFaults then (s.withOracle s.oracle.afterEither).raiseInto .integerOverflow d t
      else (s.withOracle s.oracle.afterEither).advance 2
    else s.advance 2
  else if placeBad off then s.raiseInto .integerOverflow d t
  else if placeBad (v.lp + off) then s.raiseInto .integerOverflow d t
  else s.complete d t { v with lp := v.lp + off } 2

/-- SHIFT (42_normalize_shift.md R145). -/
def execShift (d : VIx) (offset : Word) (s : State) : Host.Outcome State Fault Refusal :=
  .next (s.withValue d fun t v => s.shiftValue d t v (signExtended offset))

end Sys2Proof.Machine
end

