-- ==== Sys2Proof/Machine/Round.lean ====
section
/-! DEFINITION. ROUND (45_round.md R180 to R188): round to nearest, ties to even, to the FloatSpec in FS. -/

namespace Sys2Proof.Machine

open Sys2Proof

/-- `high = lp + nd - 1`, the place of a nonzero value's top digit (45_round.md R181). -/
def highBit (v : BigFloat) : Int := extent v - 1

/-- The value's exponent is at or below the subnormal floor: denormals are supported and `high + e1 ≤ 0`, the biased
exponent (45_round.md R182; 90_conflicts.md C1). -/
def isSubnormal (spec : FloatSpec) (v : BigFloat) : Bool := spec.den && decide (highBit v + spec.e1.toInt ≤ 0)

/-- The place of the last kept bit: `high - m`, or the floor `1 - e1 - m` (45_round.md R182). -/
def lastBit (spec : FloatSpec) (v : BigFloat) : Int :=
  if isSubnormal spec v then 1 - spec.e1.toInt - spec.m.toNat else highBit v - spec.m.toNat

/-- Too small to round to anything but zero: the top bit lies below even the rounding bit (45_round.md R183;
90_conflicts.md C3). -/
def flushes (spec : FloatSpec) (v : BigFloat) : Bool := isSubnormal spec v && decide (highBit v < lastBit spec v - 1)

/-- The low bits to drop, `last - lp` (45_round.md R180). -/
def dropCount (spec : FloatSpec) (v : BigFloat) : Nat := (lastBit spec v - v.lp).toNat

/-- The retained bits, `M div 2^drop` (45_round.md R180). -/
def keptBits (spec : FloatSpec) (v : BigFloat) : Nat := significand .bin v / 2 ^ dropCount spec v

/-- The decision: a tie goes to the even neighbour, else the rounding bit decides (45_round.md R184; 90_conflicts.md C2). -/
def roundUp (spec : FloatSpec) (v : BigFloat) : Nat :=
  if lastBit spec v - 1 = v.lp then keptBits spec v % 2
  else significand .bin v / 2 ^ (dropCount spec v - 1) % 2

/-- `Canon_BIN((kept + up) * 2^last)` (45_round.md R185, R186). -/
def roundedValue (spec : FloatSpec) (v : BigFloat) : BigFloat :=
  canon .bin (keptBits spec v + roundUp spec v) (lastBit spec v)

/-- The digit count of ROUND's intermediate, `32 * (ng + 1)` with `ng = max(nf - q, 1)` (45_round.md R185, R187). -/
def roundPreDigits (spec : FloatSpec) (v : BigFloat) : Nat := 32 * (max (v.f.length - dropCount spec v / 32) 1 + 1)

/-- The value a nonzero operand rounds to, bounds aside: zero when it flushes, itself when no bit lies below `last`, else the
rounded value (45_round.md R180). -/
def roundTo (spec : FloatSpec) (v : BigFloat) : BigFloat :=
  if v.nd = 0 then v
  else if flushes spec v then .zero
  else if lastBit spec v - 1 < v.lp then v
  else roundedValue spec v

/-- ROUND (45_round.md R180). Only a value that loses bits is bound-checked. -/
def execRound (d : VIx) (s : State) : Host.Outcome State Fault Refusal :=
  .next (s.withValue d fun t v =>
    match t with
    | .dec => s.raise .invalidOperand
    | .bin =>
      if s.fsv = false then s.raise .invalidOperand
      else s.allocating d .bin fun s' =>
        if v.nd = 0 then s'.advance 1
        else if flushes s'.fs v then s'.complete d .bin .zero 1
        else if lastBit s'.fs v - 1 < v.lp then s'.advance 1
        else s'.deliver d .bin (roundedValue s'.fs v) (lastBit s'.fs v) (roundPreDigits s'.fs v) 1)

end Sys2Proof.Machine
end

