-- ==== Sys2Proof/Machine/System.lean ====
section
/-! DEFINITION. NOP and LDFS (46_system.md R200, R201). -/

namespace Sys2Proof.Machine

open Sys2Proof

/-- NOP (46_system.md R200). -/
def execNop (s : State) : Host.Outcome State Fault Refusal := .next (s.advance 1)

/-- LDFS (46_system.md R201). The reserved bits of `FS0` are a decode check (30_encoding.md R81, check 4). -/
def execLdfs (spec : FloatSpec) (s : State) : Host.Outcome State Fault Refusal :=
  .next ((s.loadFloatSpec spec).advance 3)

end Sys2Proof.Machine
end

