-- ==== Sys2Proof/Machine/Dispatch.lean ====
section
/-! DEFINITION. One arm per command: which meaning it has. -/

namespace Sys2Proof.Machine

open Sys2Proof

def exec (i : Instr) (s : State) : Host.Outcome State Fault Refusal :=
  match i with
  | .nop => Sys2Proof.Machine.execNop s
  | .ldfs spec => Sys2Proof.Machine.execLdfs spec s
  | .ldlB d limb => Sys2Proof.Machine.execLdlB d limb s
  | .ldlD d limb => Sys2Proof.Machine.execLdlD d limb s
  | .nrmB d place limbs => Sys2Proof.Machine.execNrmB d place limbs s
  | .nrmD d place limbs => Sys2Proof.Machine.execNrmD d place limbs s
  | .mov d r => Sys2Proof.Machine.execMov d r s
  | .clone d r => Sys2Proof.Machine.execClone d r s
  | .free d => Sys2Proof.Machine.execFree d s
  | .isZero r => Sys2Proof.Machine.execIsZero r s
  | .cmp a b => Sys2Proof.Machine.execCmp a b s
  | .shift d offset => Sys2Proof.Machine.execShift d offset s
  | .add d r => Sys2Proof.Machine.execAdd d r s
  | .sub d r => Sys2Proof.Machine.execSub d r s
  | .mul d r => Sys2Proof.Machine.execMul d r s
  | .round d => Sys2Proof.Machine.execRound d s

end Sys2Proof.Machine
end

