-- ==== Sys2Proof/Machine/Sequencer.lean ====
section
/-! DEFINITION. The sequencing of commands (46_system.md R202) and of the host's actions (70_reset_and_hazards.md R260,
R263; 60_exceptions.md R245). -/

namespace Sys2Proof.Machine

open Sys2Proof

/-- PC reached PLEN: the run is over, ERR stays 0, PC stays at PLEN (70_reset_and_hazards.md R264(a)). -/
def State.endRun (s : State) : State := { s with run := .done }

/-- The command at PC runs to completion or faults; a word sequence that is no command raises IllegalCommand
(46_system.md R202, 60_exceptions.md R237). -/
def runCommand (s : State) : Host.Outcome State Fault Refusal :=
  match s.fetch with
  | .endOfProgram => .next s.endRun
  | .pastProgram => .fault .pcPastProgram
  | .words ws =>
    match decode ws with
    | .ok i => exec i s
    | .error _ => .next (s.raise .illegalCommand)

/-- The unit's own step: a command while RUN is RUNNING (46_system.md R202); else it waits and nothing changes
(70_reset_and_hazards.md R260; notes/assumptions/10.md). -/
def unitStep (s : State) : Host.Outcome State Fault Refusal :=
  match s.run with
  | .running => runCommand s
  | .idle => .next s
  | .done => .next s
  | .faulted => .next s

/-- The state after the host's entry for this step is taken off its schedule. -/
def State.withHost (s : State) (host : List (Option HostAction)) : State := { s with host := host }

/-- One step: what the host's schedule says for it, or the unit's own step (notes/assumptions/3.md). -/
def stepScheduled (s : State) : Host.Outcome State Fault Refusal :=
  match s.host with
  | some a :: rest => hostAct a (s.withHost rest)
  | none :: rest => unitStep (s.withHost rest)
  | [] => unitStep s

/-- `prog` launched and the unit at its first word, with no host action in the way of the next step. -/
def State.launched (s : State) (prog : List Word) : State :=
  { s with prog := prog, pc := 0#32, run := .running, err := .none, host := [] }

end Sys2Proof.Machine
end

