-- ==== Sys2Proof/Machine/Step.lean ====
section
/-! DEFINITION. The step function (46_system.md R202) and the placing of one table word where it fetches. -/

namespace Sys2Proof.Machine

open Sys2Proof

/-- One step of the unit and its host (46_system.md R202). -/
def step (s : State) : Host.Outcome State Fault Refusal := stepScheduled s

/-- `s` with the one-instruction program of a table word launched: the next step fetches and runs exactly that instruction
(notes/assumptions/3.md). -/
def State.withFetchWord (s : State) (nbits w : Nat) : State := s.launched (tableProgram nbits w)

end Sys2Proof.Machine
end

