-- ==== Sys2Proof/Laws/Digits.lean ====
section
/-! SUPPORT. What the radix properties, the digit primitives and the limb lists are (00_scope.md R5, R11, R12). -/

namespace Sys2Proof.Machine

open Sys2Proof

/-! ### Radix properties -/

theorem base_gt_one (t : Radix) : 1 < base t := by cases t <;> decide

theorem base_pos (t : Radix) : 0 < base t := by cases t <;> decide

theorem digitsPerLimb_pos (t : Radix) : 0 < digitsPerLimb t := by cases t <;> decide

theorem limbMod_pos (t : Radix) : 0 < limbMod t := by cases t <;> decide

/-- `Mod = beta^D` (00_scope.md R5). -/
theorem limbMod_eq (t : Radix) : limbMod t = base t ^ digitsPerLimb t := by cases t <;> rfl

/-- A limb fits its 32-bit storage (00_scope.md R5). -/
theorem limbMod_le_word (t : Radix) : limbMod t ≤ 4294967296 := by cases t <;> decide

theorem radixPow_pos (t : Radix) (k : Nat) : 0 < radixPow t k := Nat.pow_pos (base_pos t)

/-! ### Trailing zero digits -/

/-- The digits counted by `trailingZeros` are zeros: `beta` to that count divides. -/
theorem trailingZeros_dvd (beta fuel x : Nat) : beta ^ trailingZeros beta fuel x ∣ x := by
  induction fuel generalizing x with
  | zero => simp [trailingZeros]
  | succ fuel ih =>
    unfold trailingZeros
    split
    · rename_i h
      obtain ⟨y, rfl⟩ := Nat.dvd_of_mod_eq_zero h
      rcases Nat.eq_zero_or_pos beta with rfl | hb
      · simp
      · rw [Nat.mul_div_cancel_left y hb, Nat.pow_succ, Nat.mul_comm]
        exact Nat.mul_dvd_mul_left beta (ih y)
    · simp

/-- With fuel enough the count stops at a nonzero digit. -/
theorem trailingZeros_stops (beta fuel x : Nat) (hb : 1 < beta) (hx : 0 < x) (hf : x < beta ^ fuel) :
    x / beta ^ trailingZeros beta fuel x % beta ≠ 0 := by
  induction fuel generalizing x with
  | zero => simp at hf; omega
  | succ fuel ih =>
    unfold trailingZeros
    split
    · rename_i h
      have hpos : 0 < x / beta :=
        Nat.div_pos (Nat.le_of_dvd hx (Nat.dvd_of_mod_eq_zero h)) (by omega)
      have hlt : x / beta < beta ^ fuel := by
        rw [Nat.div_lt_iff_lt_mul (by omega)]
        simpa [Nat.pow_succ] using hf
      have := ih (x / beta) hpos hlt
      rwa [Nat.div_div_eq_div_mul, Nat.mul_comm, ← Nat.pow_succ] at this
    · rename_i h
      simpa using h

theorem lt_base_pow_log2 (t : Radix) (x : Nat) : x < base t ^ (Nat.log2 x + 1) :=
  Nat.lt_of_lt_of_le Nat.lt_log2_self (Nat.pow_le_pow_left (base_gt_one t) _)

/-- `beta^tz(x)` divides x (00_scope.md R12). -/
theorem radixPow_tz_dvd (t : Radix) (x : Nat) : radixPow t (tz t x) ∣ x := trailingZeros_dvd _ _ _

/-- No higher power does: the next digit of a nonzero x is not 0 (00_scope.md R12). -/
theorem tz_next_digit (t : Radix) (x : Nat) (hx : 0 < x) : x / radixPow t (tz t x) % base t ≠ 0 :=
  trailingZeros_stops _ _ _ (base_gt_one t) hx (lt_base_pow_log2 t x)

/-! ### Digit counts -/

theorem decimalScan_lt (fuel x : Nat) (hf : x < 10 ^ fuel) : x < 10 ^ decimalScan fuel x := by
  induction fuel generalizing x with
  | zero => simpa [decimalScan] using hf
  | succ fuel ih =>
    unfold decimalScan
    split
    · omega
    · have := ih (x / 10) (by rw [Nat.pow_succ] at hf; omega)
      rw [Nat.pow_succ]
      omega

theorem le_of_decimalScan (fuel x k : Nat) (h : decimalScan fuel x = k + 1) : 10 ^ k ≤ x := by
  induction fuel generalizing x k with
  | zero => simp [decimalScan] at h
  | succ fuel ih =>
    unfold decimalScan at h
    split at h
    · omega
    · cases k with
      | zero => simp; omega
      | succ k =>
        have := ih (x / 10) k (by omega)
        rw [Nat.pow_succ]
        omega

/-- x has no more digits than `dc_t(x)` (00_scope.md R12). -/
theorem lt_pow_digitCount (t : Radix) (x : Nat) : x < base t ^ digitCount t x := by
  cases t with
  | bin =>
    show x < 2 ^ (if x = 0 then 0 else Nat.log2 x + 1)
    split
    · rename_i h; subst h; simp
    · exact Nat.lt_log2_self
  | dec => exact decimalScan_lt _ x (lt_base_pow_log2 .dec x)

/-- x has no fewer digits than `dc_t(x)` (00_scope.md R12). -/
theorem pow_le_of_digitCount (t : Radix) (x k : Nat) (h : digitCount t x = k + 1) : base t ^ k ≤ x := by
  cases t with
  | bin =>
    change (if x = 0 then 0 else Nat.log2 x + 1) = k + 1 at h
    split at h
    · omega
    · rename_i hx
      have : Nat.log2 x = k := by omega
      subst this
      exact Nat.log2_self_le hx
  | dec => exact le_of_decimalScan _ x k h

@[simp] theorem digitCount_zero (t : Radix) : digitCount t 0 = 0 := by cases t <;> decide

/-- A number has digits exactly when it is not zero. -/
theorem digitCount_eq_zero (t : Radix) (x : Nat) : digitCount t x = 0 ↔ x = 0 := by
  constructor
  · intro h
    have := lt_pow_digitCount t x
    rw [h] at this
    simpa using this
  · rintro rfl; simp

/-! ### Limb lists -/

theorem limbSum_append (t : Radix) (s u : List Nat) :
    limbSum t (s ++ u) = limbSum t s + limbMod t ^ s.length * limbSum t u := by
  induction s with
  | nil => simp [limbSum]
  | cons x xs ih => simp only [List.cons_append, limbSum, ih, List.length_cons, Nat.pow_succ]; ring

/-- A list of `n` limbs stands for a number below `Mod^n`. -/
theorem limbSum_lt (t : Radix) (s : List Nat) (h : ∀ x ∈ s, x < limbMod t) : limbSum t s < limbMod t ^ s.length := by
  induction s with
  | nil => simp [limbSum]
  | cons x xs ih =>
    have hx := h x (by simp)
    have hs := ih (fun y hy => h y (by simp [hy]))
    simp only [limbSum, List.length_cons, Nat.pow_succ]
    have : limbMod t * limbSum t xs + limbMod t ≤ limbMod t ^ xs.length * limbMod t := by
      calc limbMod t * limbSum t xs + limbMod t = limbMod t * (limbSum t xs + 1) := by ring
        _ ≤ limbMod t * limbMod t ^ xs.length := Nat.mul_le_mul_left _ hs
        _ = _ := Nat.mul_comm _ _
    omega

@[simp] theorem limbsOf_length (t : Radix) (k x : Nat) : (limbsOf t k x).length = k := by
  induction k generalizing x with
  | zero => rfl
  | succ k ih => simp [limbsOf, ih]

/-- The limbs cut from a number are limbs of the radix. -/
theorem limbsOf_lt (t : Radix) (k x : Nat) : ∀ y ∈ limbsOf t k x, y < limbMod t := by
  induction k generalizing x with
  | zero => simp [limbsOf]
  | succ k ih =>
    intro y hy
    simp only [limbsOf, List.mem_cons] at hy
    rcases hy with rfl | hy
    · exact Nat.mod_lt _ (limbMod_pos t)
    · exact ih _ y hy

/-- The limbs cut from a number that fits them stand for it (00_scope.md R11, R13). -/
theorem limbSum_limbsOf (t : Radix) (k x : Nat) (h : x < limbMod t ^ k) : limbSum t (limbsOf t k x) = x := by
  induction k generalizing x with
  | zero => simp at h; simp [limbsOf, limbSum, h]
  | succ k ih =>
    have hq : x / limbMod t < limbMod t ^ k := by
      rw [Nat.div_lt_iff_lt_mul (limbMod_pos t)]
      simpa [Nat.pow_succ] using h
    simp only [limbsOf, limbSum, ih _ hq]
    exact Nat.mod_add_div x (limbMod t)

/-- Storing limbs and reading them back. -/
theorem limbNats_limbWords (s : List Nat) (h : ∀ x ∈ s, x < 4294967296) : limbNats (limbWords s) = s := by
  induction s with
  | nil => rfl
  | cons x xs ih =>
    have hx := h x (by simp)
    have hs := ih (fun y hy => h y (by simp [hy]))
    simp only [limbNats, limbWords, List.map_map, List.map_cons] at hs ⊢
    simp only [BitVec.toNat_ofNat, Nat.reducePow, hs, List.cons.injEq, and_true]
    omega

@[simp] theorem limbNats_length (f : List Word) : (limbNats f).length = f.length := by simp [limbNats]

/-! ### The carry chain -/

/-- The chain's limbs and its carry out stand for the sum (41_add_sub.md R122 step 4). -/
theorem ripple_sum (t : Radix) (a b : List Nat) (c : Nat) (h : a.length = b.length) :
    limbSum t (ripple t a b c).1 + limbMod t ^ a.length * (ripple t a b c).2 = limbSum t a + limbSum t b + c := by
  induction a generalizing b c with
  | nil => cases b <;> simp_all [ripple, limbSum]
  | cons x xs ih =>
    cases b with
    | nil => simp at h
    | cons y ys =>
      have hl : xs.length = ys.length := by simpa using h
      have := ih ys ((x + y + c) / limbMod t) hl
      simp only [ripple, limbSum, List.length_cons, Nat.pow_succ]
      have hd := Nat.mod_add_div (x + y + c) (limbMod t)
      calc (x + y + c) % limbMod t + limbMod t * limbSum t (ripple t xs ys ((x + y + c) / limbMod t)).1
            + limbMod t ^ xs.length * limbMod t * (ripple t xs ys ((x + y + c) / limbMod t)).2
          = (x + y + c) % limbMod t + limbMod t * (limbSum t (ripple t xs ys ((x + y + c) / limbMod t)).1
            + limbMod t ^ xs.length * (ripple t xs ys ((x + y + c) / limbMod t)).2) := by ring
        _ = (x + y + c) % limbMod t + limbMod t * (limbSum t xs + limbSum t ys + (x + y + c) / limbMod t) := by rw [this]
        _ = ((x + y + c) % limbMod t + limbMod t * ((x + y + c) / limbMod t))
              + limbMod t * limbSum t xs + limbMod t * limbSum t ys := by ring
        _ = _ := by rw [hd]; ring

/-- The chain has one limb for each pair. -/
theorem ripple_length (t : Radix) (a b : List Nat) (c : Nat) (h : a.length = b.length) :
    (ripple t a b c).1.length = a.length := by
  induction a generalizing b c with
  | nil => cases b <;> simp_all [ripple]
  | cons x xs ih =>
    cases b with
    | nil => simp at h
    | cons y ys => simp [ripple, ih ys _ (by simpa using h)]

/-- Every limb of the chain is a limb of the radix. -/
theorem ripple_lt (t : Radix) (a b : List Nat) (c : Nat) : ∀ x ∈ (ripple t a b c).1, x < limbMod t := by
  induction a generalizing b c with
  | nil => cases b <;> simp [ripple]
  | cons x xs ih =>
    cases b with
    | nil => simp [ripple]
    | cons y ys =>
      intro z hz
      simp only [ripple, List.mem_cons] at hz
      rcases hz with rfl | hz
      · exact Nat.mod_lt _ (limbMod_pos t)
      · exact ih _ _ z hz

end Sys2Proof.Machine
end

