-- ==== Sys2Proof/Safety.lean ====
section
/-! DEFINITION. What the claims speak of: which registers, flags and fields a command may write, which commands allocate,
and what a state of the unit that a run can reach meets. -/

namespace Sys2Proof

/-- The value registers a command writes when it completes (10_state.md R28): MOV writes both of its registers. -/
def Instr.writes : Instr → List VIx
  | .nop => []
  | .ldfs _ => []
  | .ldlB d _ => [d]
  | .ldlD d _ => [d]
  | .nrmB d _ _ => [d]
  | .nrmD d _ _ => [d]
  | .mov d r => [d, r]
  | .clone d _ => [d]
  | .free d => [d]
  | .isZero _ => []
  | .cmp _ _ => []
  | .shift d _ => [d]
  | .add d _ => [d]
  | .sub d _ => [d]
  | .mul d _ => [d]
  | .round d => [d]

/-- The destination register Vd of a command that can leave `Unspec_t` in it (60_exceptions.md R241). -/
def Instr.spoils : Instr → List VIx
  | .nop => []
  | .ldfs _ => []
  | .ldlB d _ => [d]
  | .ldlD d _ => [d]
  | .nrmB d _ _ => [d]
  | .nrmD d _ _ => [d]
  | .mov _ _ => []
  | .clone d _ => [d]
  | .free _ => []
  | .isZero _ => []
  | .cmp _ _ => []
  | .shift d _ => [d]
  | .add d _ => [d]
  | .sub d _ => [d]
  | .mul d _ => [d]
  | .round d => [d]

/-- The allocating commands (20_memory.md R58). -/
def Instr.allocates : Instr → Bool
  | .nop => false
  | .ldfs _ => false
  | .ldlB _ _ => true
  | .ldlD _ _ => true
  | .nrmB _ _ _ => true
  | .nrmD _ _ _ => true
  | .mov _ _ => false
  | .clone _ _ => true
  | .free _ => false
  | .isZero _ => false
  | .cmp _ _ => false
  | .shift _ _ => false
  | .add _ _ => true
  | .sub _ _ => true
  | .mul _ _ => true
  | .round _ => true

/-- The commands that write FLAGS (10_state.md R32). -/
def Instr.writesFlags : Instr → Bool
  | .nop => false
  | .ldfs _ => false
  | .ldlB _ _ => false
  | .ldlD _ _ => false
  | .nrmB _ _ _ => false
  | .nrmD _ _ _ => false
  | .mov _ _ => false
  | .clone _ _ => false
  | .free _ => false
  | .isZero _ => true
  | .cmp _ _ => true
  | .shift _ _ => false
  | .add _ _ => false
  | .sub _ _ => false
  | .mul _ _ => false
  | .round _ => false

/-- The command that writes FS and FSV (10_state.md R34, 46_system.md R204). -/
def Instr.writesFloatSpec : Instr → Bool
  | .nop => false
  | .ldfs _ => true
  | .ldlB _ _ => false
  | .ldlD _ _ => false
  | .nrmB _ _ _ => false
  | .nrmD _ _ _ => false
  | .mov _ _ => false
  | .clone _ _ => false
  | .free _ => false
  | .isZero _ => false
  | .cmp _ _ => false
  | .shift _ _ => false
  | .add _ _ => false
  | .sub _ _ => false
  | .mul _ _ => false
  | .round _ => false

end Sys2Proof

namespace Sys2Proof.Machine

open Sys2Proof

/-- The tag of a register, none for EMPTY (10_state.md R22). -/
def VReg.tag : VReg → Option Radix
  | .empty => none
  | .value t _ => some t

/-- Two registers that R120 does not let CMP, ADD, SUB and MUL read: one is EMPTY, or the radixes differ
(60_exceptions.md R236 (a), (b)). -/
def State.badPair (s : State) (a b : VIx) : Prop :=
  s.reg a = .empty ∨ s.reg b = .empty ∨ (s.reg a).tag ≠ (s.reg b).tag

/-- At most one of LT, EQ, GT is 1: none before the first CMP, exactly one after it (10_state.md R32,
70_reset_and_hazards.md R261). -/
def Flags.atMostOne (f : Flags) : Bool := !(f.lt && f.eq) && !(f.lt && f.gt) && !(f.eq && f.gt)

/-- The codes the unit itself can leave in ERR (60_exceptions.md R230, R233 to R235). -/
def FaultCode.ofUnit : FaultCode → Bool
  | .none => true
  | .outOfMemory => true
  | .integerOverflow => true
  | .malformedNumber => false
  | .notYetImplemented => false
  | .internalError => false
  | .illegalCommand => true
  | .invalidOperand => true

/-- What every state meets that a run can reach. -/
structure State.Inv (s : State) : Prop where
  /-- every register is EMPTY or normalized and in bounds (10_state.md R24, R26) -/
  memory : Memory.wf s.v
  /-- PLEN < 2^32 (00_scope.md R7) -/
  programFits : s.prog.length < 4294967296
  /-- while a run goes on, PC is not past PLEN (70_reset_and_hazards.md R264) -/
  runningPc : s.run = .running → s.pc.toNat ≤ s.prog.length
  /-- after a run that ended DONE, PC is PLEN (70_reset_and_hazards.md R264) -/
  donePc : s.run = .done → s.pc.toNat = s.prog.length
  /-- after a fault, PC = EPC < PLEN (60_exceptions.md R240, 70_reset_and_hazards.md R264) -/
  faultedPc : s.run = .faulted → s.pc = s.epc ∧ s.pc.toNat < s.prog.length
  /-- ERR is 0 when RUN is not FAULTED, and not 0 when it is (10_state.md R33) -/
  errWhenFaulted : s.err ≠ .none ↔ s.run = .faulted
  /-- no other code than the unit's own (60_exceptions.md R230) -/
  errOfUnit : s.err.ofUnit = true
  /-- no two of LT, EQ, GT (10_state.md R32) -/
  flagsExclusive : s.flags.atMostOne = true
  /-- FS is all zero until an LDFS has completed (10_state.md R33, R34, R37) -/
  noFloatSpec : s.fsv = false → s.fs = State.reset.fs

end Sys2Proof.Machine

namespace Sys2Proof

open Sys2Proof.Machine

/-- A cause of InvalidOperand for this command in this state (60_exceptions.md R236, (a) to (f)). -/
def Instr.operandCause (i : Instr) (s : State) : Prop :=
  match i with
  | .nop => False
  | .ldfs _ => False
  | .ldlB _ _ => False
  | .ldlD _ x => 100000000 ≤ x.toNat
  | .nrmB _ _ _ => False
  | .nrmD _ _ l => ∃ x ∈ l, 100000000 ≤ x.toNat
  | .mov _ r => s.reg r = .empty
  | .clone _ r => s.reg r = .empty
  | .free _ => False
  | .isZero r => s.reg r = .empty
  | .cmp a b => s.badPair a b
  | .shift d _ => s.reg d = .empty
  | .add d r => s.badPair d r
  | .sub d r =>
    s.badPair d r ∨ ∃ t a b, s.reg d = .value t a ∧ s.reg r = .value t b ∧ valueOf t a < valueOf t b
  | .mul d r => s.badPair d r
  | .round d => s.reg d = .empty ∨ (s.reg d).tag = some .dec ∨ s.fsv = false

end Sys2Proof
end

