-- ==== Sys2Proof/Laws/State.lean ====
section
/-! SUPPORT. One lemma per field per update of the state, true by rfl, and the register file's read after write. -/

namespace Sys2Proof.Machine

open Sys2Proof

variable (s : State)

/-! ### setReg -/

@[simp] theorem State.setReg_v (i : VIx) (x : VReg) : (s.setReg i x).v = s.v.set i.val x i.isLt := rfl
@[simp] theorem State.setReg_fs (i : VIx) (x : VReg) : (s.setReg i x).fs = s.fs := rfl
@[simp] theorem State.setReg_flags (i : VIx) (x : VReg) : (s.setReg i x).flags = s.flags := rfl
@[simp] theorem State.setReg_run (i : VIx) (x : VReg) : (s.setReg i x).run = s.run := rfl
@[simp] theorem State.setReg_err (i : VIx) (x : VReg) : (s.setReg i x).err = s.err := rfl
@[simp] theorem State.setReg_fsv (i : VIx) (x : VReg) : (s.setReg i x).fsv = s.fsv := rfl
@[simp] theorem State.setReg_pc (i : VIx) (x : VReg) : (s.setReg i x).pc = s.pc := rfl
@[simp] theorem State.setReg_epc (i : VIx) (x : VReg) : (s.setReg i x).epc = s.epc := rfl
@[simp] theorem State.setReg_prog (i : VIx) (x : VReg) : (s.setReg i x).prog = s.prog := rfl
@[simp] theorem State.setReg_host (i : VIx) (x : VReg) : (s.setReg i x).host = s.host := rfl
@[simp] theorem State.setReg_oracle (i : VIx) (x : VReg) : (s.setReg i x).oracle = s.oracle := rfl

/-! ### advance -/

@[simp] theorem State.advance_v (n : Nat) : (s.advance n).v = s.v := rfl
@[simp] theorem State.advance_fs (n : Nat) : (s.advance n).fs = s.fs := rfl
@[simp] theorem State.advance_flags (n : Nat) : (s.advance n).flags = s.flags := rfl
@[simp] theorem State.advance_run (n : Nat) : (s.advance n).run = s.run := rfl
@[simp] theorem State.advance_err (n : Nat) : (s.advance n).err = s.err := rfl
@[simp] theorem State.advance_fsv (n : Nat) : (s.advance n).fsv = s.fsv := rfl
@[simp] theorem State.advance_pc (n : Nat) : (s.advance n).pc = s.pc + BitVec.ofNat 32 n := rfl
@[simp] theorem State.advance_epc (n : Nat) : (s.advance n).epc = s.epc := rfl
@[simp] theorem State.advance_prog (n : Nat) : (s.advance n).prog = s.prog := rfl
@[simp] theorem State.advance_host (n : Nat) : (s.advance n).host = s.host := rfl
@[simp] theorem State.advance_oracle (n : Nat) : (s.advance n).oracle = s.oracle := rfl

/-! ### withOracle -/

@[simp] theorem State.withOracle_v (o : Oracle) : (s.withOracle o).v = s.v := rfl
@[simp] theorem State.withOracle_fs (o : Oracle) : (s.withOracle o).fs = s.fs := rfl
@[simp] theorem State.withOracle_flags (o : Oracle) : (s.withOracle o).flags = s.flags := rfl
@[simp] theorem State.withOracle_run (o : Oracle) : (s.withOracle o).run = s.run := rfl
@[simp] theorem State.withOracle_err (o : Oracle) : (s.withOracle o).err = s.err := rfl
@[simp] theorem State.withOracle_fsv (o : Oracle) : (s.withOracle o).fsv = s.fsv := rfl
@[simp] theorem State.withOracle_pc (o : Oracle) : (s.withOracle o).pc = s.pc := rfl
@[simp] theorem State.withOracle_epc (o : Oracle) : (s.withOracle o).epc = s.epc := rfl
@[simp] theorem State.withOracle_prog (o : Oracle) : (s.withOracle o).prog = s.prog := rfl
@[simp] theorem State.withOracle_host (o : Oracle) : (s.withOracle o).host = s.host := rfl
@[simp] theorem State.withOracle_oracle (o : Oracle) : (s.withOracle o).oracle = o := rfl

/-! ### raise -/

@[simp] theorem State.raise_v (code : FaultCode) : (s.raise code).v = s.v := rfl
@[simp] theorem State.raise_fs (code : FaultCode) : (s.raise code).fs = s.fs := rfl
@[simp] theorem State.raise_flags (code : FaultCode) : (s.raise code).flags = s.flags := rfl
@[simp] theorem State.raise_run (code : FaultCode) : (s.raise code).run = .faulted := rfl
@[simp] theorem State.raise_err (code : FaultCode) : (s.raise code).err = code := rfl
@[simp] theorem State.raise_fsv (code : FaultCode) : (s.raise code).fsv = s.fsv := rfl
@[simp] theorem State.raise_pc (code : FaultCode) : (s.raise code).pc = s.pc := rfl
@[simp] theorem State.raise_epc (code : FaultCode) : (s.raise code).epc = s.pc := rfl
@[simp] theorem State.raise_prog (code : FaultCode) : (s.raise code).prog = s.prog := rfl
@[simp] theorem State.raise_host (code : FaultCode) : (s.raise code).host = s.host := rfl
@[simp] theorem State.raise_oracle (code : FaultCode) : (s.raise code).oracle = s.oracle := rfl

/-! ### raiseInto -/

@[simp] theorem State.raiseInto_v (code : FaultCode) (d : VIx) (t : Radix) : (s.raiseInto code d t).v = s.v.set d.val (.value t (s.oracle.unspecified t)) d.isLt := rfl
@[simp] theorem State.raiseInto_fs (code : FaultCode) (d : VIx) (t : Radix) : (s.raiseInto code d t).fs = s.fs := rfl
@[simp] theorem State.raiseInto_flags (code : FaultCode) (d : VIx) (t : Radix) : (s.raiseInto code d t).flags = s.flags := rfl
@[simp] theorem State.raiseInto_run (code : FaultCode) (d : VIx) (t : Radix) : (s.raiseInto code d t).run = .faulted := rfl
@[simp] theorem State.raiseInto_err (code : FaultCode) (d : VIx) (t : Radix) : (s.raiseInto code d t).err = code := rfl
@[simp] theorem State.raiseInto_fsv (code : FaultCode) (d : VIx) (t : Radix) : (s.raiseInto code d t).fsv = s.fsv := rfl
@[simp] theorem State.raiseInto_pc (code : FaultCode) (d : VIx) (t : Radix) : (s.raiseInto code d t).pc = s.pc := rfl
@[simp] theorem State.raiseInto_epc (code : FaultCode) (d : VIx) (t : Radix) : (s.raiseInto code d t).epc = s.pc := rfl
@[simp] theorem State.raiseInto_prog (code : FaultCode) (d : VIx) (t : Radix) : (s.raiseInto code d t).prog = s.prog := rfl
@[simp] theorem State.raiseInto_host (code : FaultCode) (d : VIx) (t : Radix) : (s.raiseInto code d t).host = s.host := rfl
@[simp] theorem State.raiseInto_oracle (code : FaultCode) (d : VIx) (t : Radix) : (s.raiseInto code d t).oracle = s.oracle.afterUnspec := rfl

/-! ### complete -/

@[simp] theorem State.complete_v (d : VIx) (t : Radix) (x : BigFloat) (n : Nat) : (s.complete d t x n).v = s.v.set d.val (.value t x) d.isLt := rfl
@[simp] theorem State.complete_fs (d : VIx) (t : Radix) (x : BigFloat) (n : Nat) : (s.complete d t x n).fs = s.fs := rfl
@[simp] theorem State.complete_flags (d : VIx) (t : Radix) (x : BigFloat) (n : Nat) : (s.complete d t x n).flags = s.flags := rfl
@[simp] theorem State.complete_run (d : VIx) (t : Radix) (x : BigFloat) (n : Nat) : (s.complete d t x n).run = s.run := rfl
@[simp] theorem State.complete_err (d : VIx) (t : Radix) (x : BigFloat) (n : Nat) : (s.complete d t x n).err = s.err := rfl
@[simp] theorem State.complete_fsv (d : VIx) (t : Radix) (x : BigFloat) (n : Nat) : (s.complete d t x n).fsv = s.fsv := rfl
@[simp] theorem State.complete_pc (d : VIx) (t : Radix) (x : BigFloat) (n : Nat) : (s.complete d t x n).pc = s.pc + BitVec.ofNat 32 n := rfl
@[simp] theorem State.complete_epc (d : VIx) (t : Radix) (x : BigFloat) (n : Nat) : (s.complete d t x n).epc = s.epc := rfl
@[simp] theorem State.complete_prog (d : VIx) (t : Radix) (x : BigFloat) (n : Nat) : (s.complete d t x n).prog = s.prog := rfl
@[simp] theorem State.complete_host (d : VIx) (t : Radix) (x : BigFloat) (n : Nat) : (s.complete d t x n).host = s.host := rfl
@[simp] theorem State.complete_oracle (d : VIx) (t : Radix) (x : BigFloat) (n : Nat) : (s.complete d t x n).oracle = s.oracle := rfl

/-! ### loadFloatSpec -/

@[simp] theorem State.loadFloatSpec_v (spec : FloatSpec) : (s.loadFloatSpec spec).v = s.v := rfl
@[simp] theorem State.loadFloatSpec_fs (spec : FloatSpec) : (s.loadFloatSpec spec).fs = spec := rfl
@[simp] theorem State.loadFloatSpec_flags (spec : FloatSpec) : (s.loadFloatSpec spec).flags = s.flags := rfl
@[simp] theorem State.loadFloatSpec_run (spec : FloatSpec) : (s.loadFloatSpec spec).run = s.run := rfl
@[simp] theorem State.loadFloatSpec_err (spec : FloatSpec) : (s.loadFloatSpec spec).err = s.err := rfl
@[simp] theorem State.loadFloatSpec_fsv (spec : FloatSpec) : (s.loadFloatSpec spec).fsv = true := rfl
@[simp] theorem State.loadFloatSpec_pc (spec : FloatSpec) : (s.loadFloatSpec spec).pc = s.pc := rfl
@[simp] theorem State.loadFloatSpec_epc (spec : FloatSpec) : (s.loadFloatSpec spec).epc = s.epc := rfl
@[simp] theorem State.loadFloatSpec_prog (spec : FloatSpec) : (s.loadFloatSpec spec).prog = s.prog := rfl
@[simp] theorem State.loadFloatSpec_host (spec : FloatSpec) : (s.loadFloatSpec spec).host = s.host := rfl
@[simp] theorem State.loadFloatSpec_oracle (spec : FloatSpec) : (s.loadFloatSpec spec).oracle = s.oracle := rfl

/-! ### withFlags -/

@[simp] theorem State.withFlags_v (f : Flags) : (s.withFlags f).v = s.v := rfl
@[simp] theorem State.withFlags_fs (f : Flags) : (s.withFlags f).fs = s.fs := rfl
@[simp] theorem State.withFlags_flags (f : Flags) : (s.withFlags f).flags = f := rfl
@[simp] theorem State.withFlags_run (f : Flags) : (s.withFlags f).run = s.run := rfl
@[simp] theorem State.withFlags_err (f : Flags) : (s.withFlags f).err = s.err := rfl
@[simp] theorem State.withFlags_fsv (f : Flags) : (s.withFlags f).fsv = s.fsv := rfl
@[simp] theorem State.withFlags_pc (f : Flags) : (s.withFlags f).pc = s.pc := rfl
@[simp] theorem State.withFlags_epc (f : Flags) : (s.withFlags f).epc = s.epc := rfl
@[simp] theorem State.withFlags_prog (f : Flags) : (s.withFlags f).prog = s.prog := rfl
@[simp] theorem State.withFlags_host (f : Flags) : (s.withFlags f).host = s.host := rfl
@[simp] theorem State.withFlags_oracle (f : Flags) : (s.withFlags f).oracle = s.oracle := rfl

/-! ### endRun -/

@[simp] theorem State.endRun_v : (s.endRun).v = s.v := rfl
@[simp] theorem State.endRun_fs : (s.endRun).fs = s.fs := rfl
@[simp] theorem State.endRun_flags : (s.endRun).flags = s.flags := rfl
@[simp] theorem State.endRun_run : (s.endRun).run = .done := rfl
@[simp] theorem State.endRun_err : (s.endRun).err = s.err := rfl
@[simp] theorem State.endRun_fsv : (s.endRun).fsv = s.fsv := rfl
@[simp] theorem State.endRun_pc : (s.endRun).pc = s.pc := rfl
@[simp] theorem State.endRun_epc : (s.endRun).epc = s.epc := rfl
@[simp] theorem State.endRun_prog : (s.endRun).prog = s.prog := rfl
@[simp] theorem State.endRun_host : (s.endRun).host = s.host := rfl
@[simp] theorem State.endRun_oracle : (s.endRun).oracle = s.oracle := rfl

/-! ### withHost -/

@[simp] theorem State.withHost_v (h : List (Option HostAction)) : (s.withHost h).v = s.v := rfl
@[simp] theorem State.withHost_fs (h : List (Option HostAction)) : (s.withHost h).fs = s.fs := rfl
@[simp] theorem State.withHost_flags (h : List (Option HostAction)) : (s.withHost h).flags = s.flags := rfl
@[simp] theorem State.withHost_run (h : List (Option HostAction)) : (s.withHost h).run = s.run := rfl
@[simp] theorem State.withHost_err (h : List (Option HostAction)) : (s.withHost h).err = s.err := rfl
@[simp] theorem State.withHost_fsv (h : List (Option HostAction)) : (s.withHost h).fsv = s.fsv := rfl
@[simp] theorem State.withHost_pc (h : List (Option HostAction)) : (s.withHost h).pc = s.pc := rfl
@[simp] theorem State.withHost_epc (h : List (Option HostAction)) : (s.withHost h).epc = s.epc := rfl
@[simp] theorem State.withHost_prog (h : List (Option HostAction)) : (s.withHost h).prog = s.prog := rfl
@[simp] theorem State.withHost_host (h : List (Option HostAction)) : (s.withHost h).host = h := rfl
@[simp] theorem State.withHost_oracle (h : List (Option HostAction)) : (s.withHost h).oracle = s.oracle := rfl

/-! ### launched -/

@[simp] theorem State.launched_v (p : List Word) : (s.launched p).v = s.v := rfl
@[simp] theorem State.launched_fs (p : List Word) : (s.launched p).fs = s.fs := rfl
@[simp] theorem State.launched_flags (p : List Word) : (s.launched p).flags = s.flags := rfl
@[simp] theorem State.launched_run (p : List Word) : (s.launched p).run = .running := rfl
@[simp] theorem State.launched_err (p : List Word) : (s.launched p).err = .none := rfl
@[simp] theorem State.launched_fsv (p : List Word) : (s.launched p).fsv = s.fsv := rfl
@[simp] theorem State.launched_pc (p : List Word) : (s.launched p).pc = 0#32 := rfl
@[simp] theorem State.launched_epc (p : List Word) : (s.launched p).epc = s.epc := rfl
@[simp] theorem State.launched_prog (p : List Word) : (s.launched p).prog = p := rfl
@[simp] theorem State.launched_host (p : List Word) : (s.launched p).host = [] := rfl
@[simp] theorem State.launched_oracle (p : List Word) : (s.launched p).oracle = s.oracle := rfl

/-! ### hostReset -/

@[simp] theorem State.hostReset_v : (s.hostReset).v = State.reset.v := rfl
@[simp] theorem State.hostReset_fs : (s.hostReset).fs = State.reset.fs := rfl
@[simp] theorem State.hostReset_flags : (s.hostReset).flags = State.reset.flags := rfl
@[simp] theorem State.hostReset_run : (s.hostReset).run = State.reset.run := rfl
@[simp] theorem State.hostReset_err : (s.hostReset).err = State.reset.err := rfl
@[simp] theorem State.hostReset_fsv : (s.hostReset).fsv = State.reset.fsv := rfl
@[simp] theorem State.hostReset_pc : (s.hostReset).pc = State.reset.pc := rfl
@[simp] theorem State.hostReset_epc : (s.hostReset).epc = State.reset.epc := rfl
@[simp] theorem State.hostReset_prog : (s.hostReset).prog = State.reset.prog := rfl
@[simp] theorem State.hostReset_host : (s.hostReset).host = s.host := rfl
@[simp] theorem State.hostReset_oracle : (s.hostReset).oracle = s.oracle := rfl

/-! ### Register read after write -/

@[simp] theorem State.reg_setReg_self (i : VIx) (x : VReg) : (s.setReg i x).reg i = x := by
  simp [State.reg, State.setReg, Vector.get_eq_getElem]

theorem State.reg_setReg_ne (x : VReg) (i j : VIx) (h : j ≠ i) : (s.setReg i x).reg j = s.reg j := by
  have hv : i.val ≠ j.val := fun e => h (Fin.ext e.symm)
  simp [State.reg, State.setReg, Vector.get_eq_getElem, hv]

theorem State.reg_setReg (x : VReg) (i j : VIx) : (s.setReg i x).reg j = if j = i then x else s.reg j := by
  by_cases h : j = i
  · subst h; simp
  · simp [h, State.reg_setReg_ne s x i j h]

/-- Writing back what a register holds changes nothing. -/
theorem State.setReg_reg_self (i : VIx) : s.setReg i (s.reg i) = s := by
  simp [State.setReg, State.reg, Vector.get_eq_getElem]

/-- A state's registers are its register file. -/
theorem State.reg_eq_of_v_eq (t : State) (h : t.v = s.v) (j : VIx) : t.reg j = s.reg j := by
  simp [State.reg, h]

@[simp] theorem State.reg_advance (n : Nat) (j : VIx) : (s.advance n).reg j = s.reg j := rfl
@[simp] theorem State.reg_withOracle (o : Oracle) (j : VIx) : (s.withOracle o).reg j = s.reg j := rfl
@[simp] theorem State.reg_raise (code : FaultCode) (j : VIx) : (s.raise code).reg j = s.reg j := rfl
@[simp] theorem State.reg_withFlags (f : Flags) (j : VIx) : (s.withFlags f).reg j = s.reg j := rfl
@[simp] theorem State.reg_loadFloatSpec (spec : FloatSpec) (j : VIx) : (s.loadFloatSpec spec).reg j = s.reg j := rfl
@[simp] theorem State.reg_withHost (h : List (Option HostAction)) (j : VIx) : (s.withHost h).reg j = s.reg j := rfl

theorem State.reg_raiseInto (code : FaultCode) (d : VIx) (t : Radix) (j : VIx) :
    (s.raiseInto code d t).reg j = if j = d then .value t (s.oracle.unspecified t) else s.reg j :=
  State.reg_setReg s _ d j

theorem State.reg_complete (d : VIx) (t : Radix) (x : BigFloat) (n : Nat) (j : VIx) :
    (s.complete d t x n).reg j = if j = d then .value t x else s.reg j :=
  State.reg_setReg s _ d j

end Sys2Proof.Machine
end

