-- ==== Sys2Proof/Laws/Ops.lean ====
section
/-! SUPPORT. One lemma per shared operation that says everything it can do, and the limb store's canonical form kept by
every memory operation. -/

namespace Sys2Proof.Machine

open Sys2Proof

variable (s : State)

/-! ### Draws -/

/-- A draw held to its limit is a legal value of the radix (10_state.md R38). -/
theorem legalized_legal (t : Radix) (v : BigFloat) : legalValue t (legalized t v) = true := by
  unfold legalized
  split
  · assumption
  · cases t <;> decide

/-- Every legal value is a possible draw (10_state.md R38). -/
theorem legalized_of_legal (t : Radix) (v : BigFloat) (h : legalValue t v = true) : legalized t v = v := by
  simp [legalized, h]

/-- `Unspec_t` is a legal value of the radix (10_state.md R38). -/
theorem Oracle.unspecified_legal (o : Oracle) (t : Radix) : legalValue t (o.unspecified t) = true := by
  unfold Oracle.unspecified
  split <;> exact legalized_legal t _

/-! ### Operations that pass the state on -/

/-- `allocating` either raises OutOfMemory into the destination or goes on, by the next answer of the allocator. -/
theorem State.allocating_cases (d : VIx) (t : Radix) (rest : State → State) :
    (s.oracle.allocFails = true
        ∧ s.allocating d t rest = (s.withOracle s.oracle.afterAlloc).raiseInto .outOfMemory d t)
      ∨ (s.oracle.allocFails = false ∧ s.allocating d t rest = rest (s.withOracle s.oracle.afterAlloc)) := by
  unfold State.allocating
  cases h : s.oracle.allocFails <;> simp

/-- `deliver` completes in bounds, overflows, or does either by a draw in the grey band (10_state.md R31). -/
theorem State.deliver_cases (d : VIx) (t : Radix) (v : BigFloat) (plp : Int) (pnd n : Nat) :
    (inBounds v.lp v.nd = true ∧ inBounds plp pnd = true ∧ s.deliver d t v plp pnd n = s.complete d t v n)
      ∨ (inBounds v.lp v.nd = false ∧ s.deliver d t v plp pnd n = s.raiseInto .integerOverflow d t)
      ∨ (inBounds v.lp v.nd = true ∧ inBounds plp pnd = false ∧ s.oracle.eitherFaults = true
          ∧ s.deliver d t v plp pnd n = (s.withOracle s.oracle.afterEither).raiseInto .integerOverflow d t)
      ∨ (inBounds v.lp v.nd = true ∧ inBounds plp pnd = false ∧ s.oracle.eitherFaults = false
          ∧ s.deliver d t v plp pnd n = (s.withOracle s.oracle.afterEither).complete d t v n) := by
  unfold State.deliver boundCheck
  cases inBounds v.lp v.nd <;> cases inBounds plp pnd <;> cases s.oracle.eitherFaults <;> simp

/-- `distinct` raises IllegalCommand on one register named twice, else goes on (30_encoding.md R78). -/
theorem State.distinct_cases (d r : VIx) (rest : State → State) :
    (d = r ∧ s.distinct d r rest = s.raise .illegalCommand) ∨ (d ≠ r ∧ s.distinct d r rest = rest s) := by
  by_cases h : d = r <;> simp [State.distinct, h]

/-- `withValue` reads a value or raises InvalidOperand (10_state.md R27). -/
theorem State.withValue_cases (i : VIx) (rest : Radix → BigFloat → State) :
    (s.reg i = .empty ∧ s.withValue i rest = s.raise .invalidOperand)
      ∨ ∃ t v, s.reg i = .value t v ∧ s.withValue i rest = rest t v := by
  cases h : s.reg i with
  | empty => left; simp [State.withValue, h]
  | value t v => right; exact ⟨t, v, rfl, by simp [State.withValue, h]⟩

/-- `withPair` reads two values of one radix or raises InvalidOperand (41_add_sub.md R120). -/
theorem State.withPair_cases (d r : VIx) (rest : Radix → BigFloat → BigFloat → State) :
    (operandPair (s.reg d) (s.reg r) = none ∧ s.withPair d r rest = s.raise .invalidOperand)
      ∨ ∃ t a b, s.reg d = .value t a ∧ s.reg r = .value t b ∧ s.withPair d r rest = rest t a b := by
  unfold State.withPair
  cases hd : s.reg d with
  | empty => left; simp [operandPair]
  | value t a =>
    cases hr : s.reg r with
    | empty => left; simp [operandPair]
    | value u b =>
      by_cases h : t = u
      · subst h; right; exact ⟨t, a, b, rfl, rfl, by simp [operandPair]⟩
      · left; simp [operandPair, h]

/-- `fetch` answers the end of the program, the words from PC on, or that PC is past PLEN. -/
theorem State.fetch_cases :
    (s.pc.toNat = s.prog.length ∧ s.fetch = .endOfProgram)
      ∨ (s.prog.length < s.pc.toNat ∧ s.fetch = .pastProgram)
      ∨ (s.pc.toNat < s.prog.length ∧ s.fetch = .words (s.prog.drop s.pc.toNat)) := by
  unfold State.fetch
  by_cases h : s.pc.toNat = s.prog.length
  · simp [h]
  · by_cases h' : s.prog.length < s.pc.toNat
    · simp [h, h']
    · have : s.pc.toNat < s.prog.length := by omega
      simp [h, h', this]

/-- CLRERR acts in FAULTED only (60_exceptions.md R245). -/
theorem State.clearError_cases :
    (s.run = .faulted ∧ s.clearError = { s with run := .idle, err := .none })
      ∨ (s.run ≠ .faulted ∧ s.clearError = s) := by
  unfold State.clearError
  cases h : s.run <;> simp

/-- START acts in IDLE and DONE only (70_reset_and_hazards.md R263). -/
theorem State.launch_cases (p : List Word) :
    ((s.run = .idle ∨ s.run = .done) ∧ s.launch p = { s with pc := 0#32, run := .running, prog := p })
      ∨ ((s.run = .running ∨ s.run = .faulted) ∧ s.launch p = s) := by
  unfold State.launch
  cases h : s.run <;> simp

/-! ### The limb store keeps its canonical form -/

/-- Writing a legal register keeps the canonical form of the limb store (10_state.md R24, R26). -/
theorem State.setReg_keeps_wf (i : VIx) (x : VReg) (hx : x.legal = true) (h : Memory.wf s.v) :
    Memory.wf (s.setReg i x).v := by
  intro j
  have hj := State.reg_setReg s x i j
  unfold State.reg at hj
  rw [hj]
  split
  · exact hx
  · exact h j

/-- Fault entry with `Unspec_t` keeps the canonical form of the limb store (10_state.md R38). -/
theorem State.raiseInto_keeps_wf (code : FaultCode) (d : VIx) (t : Radix) (h : Memory.wf s.v) :
    Memory.wf (s.raiseInto code d t).v :=
  State.setReg_keeps_wf s d _ (Oracle.unspecified_legal s.oracle t) h

/-- Completing with a legal value keeps the canonical form of the limb store. -/
theorem State.complete_keeps_wf (d : VIx) (t : Radix) (v : BigFloat) (n : Nat) (hv : legalValue t v = true)
    (h : Memory.wf s.v) : Memory.wf (s.complete d t v n).v :=
  State.setReg_keeps_wf s d (.value t v) hv h

/-- Delivering a normalized value keeps the canonical form of the limb store: what is out of bounds is not stored. -/
theorem State.deliver_keeps_wf (d : VIx) (t : Radix) (v : BigFloat) (plp : Int) (pnd n : Nat)
    (hv : normalized t v = true) (h : Memory.wf s.v) : Memory.wf (s.deliver d t v plp pnd n).v := by
  rcases State.deliver_cases s d t v plp pnd n with ⟨hb, _, he⟩ | ⟨_, he⟩ | ⟨_, _, _, he⟩ | ⟨hb, _, _, he⟩ <;> rw [he]
  · exact State.complete_keeps_wf s d t v n (by simp [legalValue, hv, hb]) h
  · exact State.raiseInto_keeps_wf s _ d t h
  · exact State.raiseInto_keeps_wf (s.withOracle s.oracle.afterEither) _ d t h
  · exact State.complete_keeps_wf (s.withOracle s.oracle.afterEither) d t v n (by simp [legalValue, hv, hb]) h

/-- The limb store after reset is in its canonical form (10_state.md R37). -/
theorem reset_memory_wf : Memory.wf State.reset.v := by decide

/-- A value read from a canonical limb store is legal. -/
theorem legalValue_of_reg (i : VIx) (t : Radix) (v : BigFloat) (h : Memory.wf s.v) (hr : s.reg i = .value t v) :
    legalValue t v = true := by
  have := h i
  unfold State.reg at hr
  rw [hr] at this
  exact this

end Sys2Proof.Machine
end

