-- ==== Sys2Proof/Laws/PerInstr.lean ====
section
/-! SUPPORT. Statements made per instruction: EncodeLength, a command is spelled in as many words as its length says
(30_encoding.md R72, R80). -/

namespace Sys2Proof.Laws.EncodeLength

open Sys2Proof

/-- The encoding of a command has the command's length (30_encoding.md R72). -/
def Statement (i : Instr) : Prop := (encode i).length = i.length

theorem nop : Statement (.nop) := rfl
theorem ldfs (spec : FloatSpec) : Statement (.ldfs spec) := rfl
theorem ldlB (d : VIx) (limb : Word) : Statement (.ldlB d limb) := rfl
theorem ldlD (d : VIx) (limb : Word) : Statement (.ldlD d limb) := rfl
theorem nrmB (d : VIx) (place : Word) (limbs : List Word) : Statement (.nrmB d place limbs) := rfl
theorem nrmD (d : VIx) (place : Word) (limbs : List Word) : Statement (.nrmD d place limbs) := rfl
theorem mov (d r : VIx) : Statement (.mov d r) := rfl
theorem clone (d r : VIx) : Statement (.clone d r) := rfl
theorem free (d : VIx) : Statement (.free d) := rfl
theorem isZero (r : VIx) : Statement (.isZero r) := rfl
theorem cmp (a b : VIx) : Statement (.cmp a b) := rfl
theorem shift (d : VIx) (offset : Word) : Statement (.shift d offset) := rfl
theorem add (d r : VIx) : Statement (.add d r) := rfl
theorem sub (d r : VIx) : Statement (.sub d r) := rfl
theorem mul (d r : VIx) : Statement (.mul d r) := rfl
theorem round (d : VIx) : Statement (.round d) := rfl

end Sys2Proof.Laws.EncodeLength
end

