-- ==== Sys2Proof/Certificates/Slice0/Obligations.lean ====
section
/-! DEFINITION. The statements for the provers. Each docstring names the rule of spec/ it comes from. A fault a command
takes is a next state of the model; what `State.raise` and `State.raiseInto` leave is itself stated
(FaultEntryLatchesCodeAndCounter, UnspecifiedDestinationIsAnyLegalValue). -/

open Sys2Proof Sys2Proof.Machine

/-! ### Encoding and decoding -/

/-- Decode and encode agree: every command whose limb count fits its field, with every operand at every value, decodes from
its words, whatever follows them (30_encoding.md R70 to R73, R80). That MOV, CLONE, ADD, SUB and MUL with one register named
twice decode too is the model's choice: check (6) of R81 stands in their meanings (notes/assumptions/11.md). -/
def Obligations.DecodeInvertsEncode : Prop :=
  ∀ (i : Instr) (rest : List Word), i.limbCountFits = true → decode (encode i ++ rest) = .ok i

/-- The other direction: a word list that decodes begins with the encoding of what it decodes to, so no bit of a command's
words is ignored and two word lists of one command agree on its words (30_encoding.md R75, R85). -/
def Obligations.DecodedWordsAreTheEncoding : Prop :=
  ∀ (ws : List Word) (i : Instr), decode ws = .ok i →
    i.limbCountFits = true ∧ i.length ≤ ws.length ∧ ws.take i.length = encode i

/-- The worked encodings (30_encoding.md R84). -/
def Obligations.WorkedEncodingsDecode : Prop :=
  decode [0x00000000#32] = .ok .nop
    ∧ decode [0x34300000#32] = .ok (.round 3)
    ∧ decode [0x31210000#32] = .ok (.add 2 1)
    ∧ decode [0x21200000#32] = .ok (.cmp 2 0)
    ∧ decode [0x10000000#32, 0x00000005#32] = .ok (.ldlB 0 5#32)
    ∧ decode [0x30100000#32, 0xFFFFFF6A#32] = .ok (.shift 1 (BitVec.ofInt 32 (-150)))
    ∧ decode [0x12000002#32, 0x00000000#32, 0xFFFFFFFF#32, 0xFFFFFFFF#32]
        = .ok (.nrmB 0 0#32 [0xFFFFFFFF#32, 0xFFFFFFFF#32])
    ∧ decode [0x01000000#32, 0xC0080017#32, 0x0000007F#32]
        = .ok (.ldfs { m := 23#16, eb := 8#8, e1 := 127#32, den := true, nan := true })

/-- The match and mask columns of the opcode map are the literal ones; a command word selects a row exactly when the row's
opcode is its `op` field and no must-be-zero bit is set, and it selects no two rows (30_encoding.md R74). -/
def Obligations.TableRowsSelectOneOpcode : Prop :=
  (opcodeRows.map (fun o => (o, o.matchWord, o.matchMask))
      = [(.nop, 0x00000000#32, 0xFFFFFFFF#32), (.ldfs, 0x01000000#32, 0xFFFFFFFF#32),
         (.ldlB, 0x10000000#32, 0xFF0FFFFF#32), (.ldlD, 0x11000000#32, 0xFF0FFFFF#32),
         (.nrmB, 0x12000000#32, 0xFF0F0000#32), (.nrmD, 0x13000000#32, 0xFF0F0000#32),
         (.mov, 0x14000000#32, 0xFF00FFFF#32), (.clone, 0x15000000#32, 0xFF00FFFF#32),
         (.free, 0x16000000#32, 0xFF0FFFFF#32), (.isZero, 0x20000000#32, 0xFF0FFFFF#32),
         (.cmp, 0x21000000#32, 0xFF00FFFF#32), (.shift, 0x30000000#32, 0xFF0FFFFF#32),
         (.add, 0x31000000#32, 0xFF00FFFF#32), (.sub, 0x32000000#32, 0xFF00FFFF#32),
         (.mul, 0x33000000#32, 0xFF00FFFF#32), (.round, 0x34000000#32, 0xFF0FFFFF#32)])
    ∧ (∀ (o : Opcode) (w : Word), w &&& o.matchMask = o.matchWord ↔
        opcodeOf (opField w) = some o ∧ w &&& o.format.zeroMask = 0#32)
    ∧ ∀ (o p : Opcode) (w : Word), w &&& o.matchMask = o.matchWord → w &&& p.matchMask = p.matchWord → o = p

/-- The undefined opcodes are the listed ranges (30_encoding.md R76). -/
def Obligations.UndefinedOpcodesAreTheListedOnes : Prop :=
  ∀ c : BitVec 8, opcodeOf c = none ↔
    (0x02#8 ≤ c ∧ c ≤ 0x0F#8) ∨ (0x17#8 ≤ c ∧ c ≤ 0x1F#8) ∨ (0x22#8 ≤ c ∧ c ≤ 0x2F#8) ∨ 0x35#8 ≤ c

/-- A word sequence that is no command raises IllegalCommand and changes nothing but STATUS and EPC: undefined opcode,
must-be-zero bit, words past PLEN, reserved bit of FS0, register field of NV or more, equal register fields where R78
forbids them (60_exceptions.md R237). That an entry of the host's schedule without an action is taken off first is the
model's choice (notes/assumptions/3.md). -/
def Obligations.WordsThatAreNoCommandRaiseIllegalCommand : Prop :=
  ∀ (s : State) (w : Word) (ext : List Word),
    s.run = .running → (s.host = [] ∨ ∃ rest, s.host = none :: rest) →
    s.pc.toNat < s.prog.length → s.prog.drop s.pc.toNat = w :: ext →
    (opcodeOf (opField w) = none →
        step s = .next { s with run := .faulted, err := .illegalCommand, epc := s.pc, host := s.host.tail })
      ∧ ∀ o : Opcode, opcodeOf (opField w) = some o →
        (w &&& o.format.zeroMask ≠ 0#32 →
            step s = .next { s with run := .faulted, err := .illegalCommand, epc := s.pc, host := s.host.tail })
          ∧ (ext.length + 1 < o.format.words w →
            step s = .next { s with run := .faulted, err := .illegalCommand, epc := s.pc, host := s.host.tail })
          ∧ (∀ (fs0 fs1 : Word) (rest : List Word), o = .ldfs → ext = fs0 :: fs1 :: rest →
              fs0.extractLsb' 24 6 ≠ 0#6 →
            step s = .next { s with run := .faulted, err := .illegalCommand, epc := s.pc, host := s.host.tail })
          ∧ (o.format ∈ [Format.a, Format.ab, Format.ai, Format.an] → 8 ≤ (aField w).toNat →
            step s = .next { s with run := .faulted, err := .illegalCommand, epc := s.pc, host := s.host.tail })
          ∧ (o.format = .ab → 8 ≤ (bField w).toNat →
            step s = .next { s with run := .faulted, err := .illegalCommand, epc := s.pc, host := s.host.tail })
          ∧ (o ∈ [Opcode.mov, Opcode.clone, Opcode.add, Opcode.sub, Opcode.mul] → aField w = bField w →
            step s = .next { s with run := .faulted, err := .illegalCommand, epc := s.pc, host := s.host.tail })

/-- MOV, CLONE, ADD, SUB and MUL with one register named twice raise IllegalCommand, whatever the register holds; CMP of a
value with itself completes (30_encoding.md R78). -/
def Obligations.AliasedOperandsRaiseIllegalCommand : Prop :=
  ∀ (d : VIx) (s : State),
    exec (.mov d d) s = .next { s with run := .faulted, err := .illegalCommand, epc := s.pc }
      ∧ exec (.clone d d) s = .next { s with run := .faulted, err := .illegalCommand, epc := s.pc }
      ∧ exec (.add d d) s = .next { s with run := .faulted, err := .illegalCommand, epc := s.pc }
      ∧ exec (.sub d d) s = .next { s with run := .faulted, err := .illegalCommand, epc := s.pc }
      ∧ exec (.mul d d) s = .next { s with run := .faulted, err := .illegalCommand, epc := s.pc }
      ∧ ∀ (t : Radix) (v : BigFloat), s.reg d = .value t v →
          exec (.cmp d d) s
            = .next { s with flags := { z := s.flags.z, lt := false, eq := true, gt := false }, pc := s.pc + 1#32 }

/-! ### Sequencing, host actions, faults, reset -/

/-- While RUN is RUNNING, a step at a command runs it: the step is exec of what the words from PC on decode to
(46_system.md R202). That an entry of the host's schedule without an action is taken off first is the model's choice
(notes/assumptions/3.md). -/
def Obligations.StepRunsTheDecodedCommand : Prop :=
  ∀ (s : State) (i : Instr), s.run = .running → s.pc.toNat < s.prog.length →
    decode (s.prog.drop s.pc.toNat) = .ok i →
    (s.host = [] → step s = exec i s)
      ∧ ∀ rest : List (Option HostAction), s.host = none :: rest → step s = exec i { s with host := rest }

/-- PC at PLEN ends the run: RUN is DONE, nothing else changes; an empty program ends so at once (46_system.md R202,
70_reset_and_hazards.md R264(a)). That an entry of the host's schedule without an action is taken off first is the model's
choice (notes/assumptions/3.md). -/
def Obligations.RunEndsAtTheProgramsEnd : Prop :=
  ∀ s : State, s.run = .running → s.pc.toNat = s.prog.length →
    (s.host = [] → step s = .next { s with run := .done })
      ∧ ∀ rest : List (Option HostAction), s.host = none :: rest → step s = .next { s with run := .done, host := rest }

/-- The unit waits for the host whenever RUN is not RUNNING: a step without a host action changes nothing. The model's
choice of how to say that the unit does not execute (70_reset_and_hazards.md R260, 60_exceptions.md R243;
notes/assumptions/10.md). -/
def Obligations.UnitWaitsUnlessRunning : Prop :=
  ∀ s : State, s.run ≠ .running → s.host = [] → step s = .next s

/-- START launches a program from IDLE and DONE: PC 0, RUN RUNNING, every value register, FS, FLAGS, FSV and EPC kept; in
RUNNING and FAULTED it is refused and changes nothing; an empty program goes straight to DONE
(70_reset_and_hazards.md R263). -/
def Obligations.StartLaunchesFromIdleOrDoneOnly : Prop :=
  ∀ (s : State) (prog : List Word), prog.length < 2 ^ 32 →
    (s.run = .idle ∨ s.run = .done →
        hostAct (.start prog) s = .next { s with pc := 0#32, run := .running, prog := prog })
      ∧ (s.run = .running ∨ s.run = .faulted → hostAct (.start prog) s = .next s)
      ∧ (s.host = [] → prog = [] →
          step { s with pc := 0#32, run := .running, prog := prog }
            = .next { s with pc := 0#32, run := .done, prog := prog })

/-- CLRERR leaves FAULTED for IDLE and clears ERR; EPC, PC, every register, FS, FLAGS and FSV keep their values; it does
nothing in any other run state; a launch in FAULTED is refused, so a fault cannot be overwritten unread
(60_exceptions.md R245). -/
def Obligations.ClearErrorLeavesOnlyFaulted : Prop :=
  ∀ s : State,
    (s.run = .faulted → hostAct .clrerr s = .next { s with run := .idle, err := .none })
      ∧ (s.run ≠ .faulted → hostAct .clrerr s = .next s)
      ∧ ∀ prog : List Word, s.run = .faulted → prog.length < 2 ^ 32 → hostAct (.start prog) s = .next s

/-- RESET in any state, RUNNING included, puts every item of state at its reset value, and the unit does not start executing:
it waits in IDLE (70_reset_and_hazards.md R260). That waiting is a step that changes nothing, the last clause, is the model's
choice (notes/assumptions/10.md). -/
def Obligations.ResetActionRestoresTheResetState : Prop :=
  ∀ s : State, ∃ t : State, hostAct .reset s = .next t
    ∧ (∀ i : VIx, t.reg i = .empty)
    ∧ t.fs = { m := 0#16, eb := 0#8, e1 := 0#32, den := false, nan := false } ∧ t.fsv = false
    ∧ t.flags = { z := false, lt := false, eq := false, gt := false }
    ∧ t.run = .idle ∧ t.err = .none ∧ t.pc = 0#32 ∧ t.epc = 0#32
    ∧ (t.host = [] → step t = .next t)

/-- How the host's actions reach the unit, the model's own choice (notes/assumptions/3.md): an entry of the schedule is the
action that lands before the next command, whatever the run state. -/
def Obligations.ScheduledActionsLandBetweenCommands : Prop :=
  ∀ (s : State) (rest : List (Option HostAction)),
    (∀ a : HostAction, s.host = some a :: rest → step s = hostAct a { s with host := rest })
      ∧ (s.host = none :: rest → s.run ≠ .running → step s = .next { s with host := rest })

/-- Fault entry latches the code in ERR and PC in EPC, sets RUN to FAULTED and does not advance PC; after it PC = EPC;
nothing else changes, and no further command of the run executes (60_exceptions.md R240). That the step after it changes
nothing, the last clause, is the model's choice (notes/assumptions/10.md). -/
def Obligations.FaultEntryLatchesCodeAndCounter : Prop :=
  ∀ (s : State) (code : FaultCode),
    s.raise code = { s with run := .faulted, err := code, epc := s.pc } ∧ (s.raise code).pc = (s.raise code).epc
      ∧ (s.host = [] → step (s.raise code) = .next (s.raise code))

/-- OutOfMemory and IntegerOverflow leave in Vd some normalized in-bounds value of the tag, and every such value is left by
some draw: the value is free within its limit (10_state.md R38, 60_exceptions.md R241). -/
def Obligations.UnspecifiedDestinationIsAnyLegalValue : Prop :=
  ∀ (s : State) (code : FaultCode) (d : VIx) (t : Radix),
    (∃ u : BigFloat, legalValue t u = true ∧
        s.raiseInto code d t
          = { s with v := s.v.set d.val (.value t u) d.isLt, run := .faulted, err := code, epc := s.pc
                     oracle := s.oracle.afterUnspec })
      ∧ ∀ u : BigFloat, legalValue t u = true → ∃ o : Oracle,
          (State.raiseInto { s with oracle := o } code d t).reg d = .value t u

/-- The state after reset: every register EMPTY, FS zero, FLAGS zero, RUN IDLE, ERR 0, FSV 0, PC 0, EPC 0
(10_state.md R37). -/
def Obligations.ResetStateIsTheTable : Prop :=
  (∀ i : VIx, State.reset.reg i = .empty)
    ∧ State.reset.fs = { m := 0#16, eb := 0#8, e1 := 0#32, den := false, nan := false }
    ∧ State.reset.flags.word = 0#4
    ∧ State.reset.run = .idle ∧ State.reset.err = .none ∧ State.reset.fsv = false
    ∧ State.reset.statusWord = 0#32
    ∧ State.reset.pc = 0#32 ∧ State.reset.epc = 0#32
    ∧ Sys2Proof.core.reset = State.reset

/-- The invariant holds after reset. -/
def Obligations.ResetMeetsTheInvariant : Prop := State.Inv State.reset

/-- Every step keeps the invariant, from every state that meets it, the host's actions included: the limb store stays in its
canonical form (10_state.md R24, R26), PC stays inside the program (70_reset_and_hazards.md R264), EPC and ERR agree with
RUN (10_state.md R33), at most one of LT, EQ, GT is set (R32), FS stays zero until an LDFS (R37). The bounds of a stored value
are spelled out (R26). -/
def Obligations.StepKeepsTheInvariant : Prop :=
  ∀ s t : State, s.Inv → step s = .next t →
    t.Inv ∧ ∀ (i : VIx) (u : Radix) (x : BigFloat), t.reg i = .value u x →
      normalized u x = true ∧ x.nd ≤ 65536 ∧ -65536 ≤ x.lp ∧ x.lp ≤ 65536

/-- From a state that meets the invariant a step never ends in a fault of the model, and is refused only where the host
starts a list too long to be a program: no command stops the machine (46_system.md R202, 70_reset_and_hazards.md R264). -/
def Obligations.InvariantStatesNeverStop : Prop :=
  ∀ s : State, s.Inv →
    (∀ f : Fault, step s ≠ .fault f)
      ∧ ∀ r : Refusal, step s = .refused r →
          ∃ (p : List Word) (rest : List (Option HostAction)), s.host = some (.start p) :: rest ∧ 2 ^ 32 ≤ p.length

/-- Every run ends: from a running state that meets the invariant, with no host action, RUN is DONE or FAULTED after at most
one step for each word left and one more (70_reset_and_hazards.md R269, R264). -/
def Obligations.EveryRunEnds : Prop :=
  ∀ s : State, s.Inv → s.run = .running → s.host = [] →
    ∃ (k : Nat) (t : State), k ≤ s.prog.length - s.pc.toNat + 1
      ∧ (Host.Core.run Sys2Proof.core k s : Host.Outcome State Fault Refusal) = .next t
      ∧ (t.run = .done ∨ t.run = .faulted)

/-! ### Rules about all commands -/

/-- There is no control transfer: a command of a run either completes and adds its own length to PC, or faults and leaves PC
(10_state.md R29, 46_system.md R203). -/
def Obligations.CommandsMovePcForward : Prop :=
  ∀ (i : Instr) (s : State), s.run = .running →
    ∃ t : State, exec i s = .next t
      ∧ ((t.run = .running ∧ t.err = s.err ∧ t.epc = s.epc ∧ t.pc = s.pc + BitVec.ofNat 32 i.length)
        ∨ (t.run = .faulted ∧ t.err ≠ .none ∧ t.epc = s.pc ∧ t.pc = s.pc))

/-- What a command leaves unchanged: every register it does not write, with every limb of it (10_state.md R28, 20_memory.md
R59); FLAGS unless it is ISZERO or CMP (10_state.md R32); FS and FSV unless it is LDFS (46_system.md R204); the program
(20_memory.md R63); RUN, ERR and EPC unless it faults. -/
def Obligations.CommandsWriteOnlyTheirDestination : Prop :=
  ∀ (i : Instr) (s t : State), exec i s = .next t →
    (∀ j : VIx, j ∉ i.writes → t.reg j = s.reg j ∧ ∀ k : Nat, t.memRead j k = s.memRead j k)
      ∧ (i.writesFlags = false → t.flags = s.flags)
      ∧ (i.writesFloatSpec = false → t.fs = s.fs ∧ t.fsv = s.fsv)
      ∧ t.prog = s.prog ∧ t.host = s.host
      ∧ ((t.run = s.run ∧ t.err = s.err ∧ t.epc = s.epc) ∨ (t.run = .faulted ∧ t.epc = s.pc ∧ t.pc = s.pc))

/-- What a faulting command changes besides STATUS and EPC: nothing for IllegalCommand and InvalidOperand; for OutOfMemory and
IntegerOverflow only Vd, which then holds some normalized in-bounds value (60_exceptions.md R241). The draws taken are the
model's own. -/
def Obligations.FaultingCommandsSpoilOnlyVd : Prop :=
  ∀ (i : Instr) (s t : State), s.run = .running → exec i s = .next t → t.run = .faulted →
    t.pc = s.pc ∧ t.epc = s.pc ∧ t.flags = s.flags ∧ t.fs = s.fs ∧ t.fsv = s.fsv
      ∧ (t.err = .illegalCommand ∨ t.err = .invalidOperand →
          t = { s with run := .faulted, err := t.err, epc := s.pc })
      ∧ (t.err = .outOfMemory ∨ t.err = .integerOverflow →
          ∃ (d : VIx) (u : Radix) (x : BigFloat), d ∈ i.spoils ∧ t.reg d = .value u x ∧ legalValue u x = true
            ∧ ∀ j : VIx, j ≠ d → t.reg j = s.reg j)

/-- Tags: LDL.B and NRM.B write BIN, LDL.D and NRM.D write DEC, MOV and CLONE copy the tag of Vs, FREE and the source side of
MOV write EMPTY, and no other command changes a tag, whether it completes or faults (10_state.md R22, 60_exceptions.md
R241). -/
def Obligations.TagsFollowTheCommand : Prop :=
  ∀ (s t : State), s.run = .running →
    (∀ (d : VIx) (x : Word), exec (.ldlB d x) s = .next t → (t.reg d).tag = some .bin)
      ∧ (∀ (d : VIx) (p : Word) (l : List Word), exec (.nrmB d p l) s = .next t → (t.reg d).tag = some .bin)
      ∧ (∀ (d : VIx) (x : Word), exec (.ldlD d x) s = .next t → t.err ≠ .invalidOperand → s.err = .none →
          (t.reg d).tag = some .dec)
      ∧ (∀ (d : VIx) (p : Word) (l : List Word), exec (.nrmD d p l) s = .next t → t.err ≠ .invalidOperand →
          s.err = .none → (t.reg d).tag = some .dec)
      ∧ (∀ d r : VIx, d ≠ r → exec (.mov d r) s = .next t → t.run = .running →
          (t.reg d).tag = (s.reg r).tag ∧ (t.reg r).tag = none)
      ∧ (∀ d r : VIx, d ≠ r → s.reg r ≠ .empty → exec (.clone d r) s = .next t → (t.reg d).tag = (s.reg r).tag)
      ∧ (∀ d : VIx, exec (.free d) s = .next t → (t.reg d).tag = none)
      ∧ ∀ (i : Instr) (a b : VIx) (x : Word) (spec : FloatSpec),
          i ∈ [Instr.nop, Instr.ldfs spec, Instr.isZero a, Instr.cmp a b, Instr.shift a x, Instr.add a b,
            Instr.sub a b, Instr.mul a b, Instr.round a] →
          exec i s = .next t → ∀ j : VIx, (t.reg j).tag = (s.reg j).tag

/-- NOP, LDFS, MOV, FREE, ISZERO, CMP and SHIFT never raise OutOfMemory and ask nothing of the allocator; an allocating
command whose allocator answers does not raise it (20_memory.md R58). -/
def Obligations.OnlyFailedAllocationsRunOutOfMemory : Prop :=
  ∀ (i : Instr) (s t : State), s.run = .running → s.err = .none → exec i s = .next t →
    (i.allocates = false → t.err ≠ .outOfMemory ∧ t.oracle.alloc = s.oracle.alloc)
      ∧ (i.allocates = true → s.oracle.allocFails = false → t.err ≠ .outOfMemory)
      ∧ (t.err = .outOfMemory → i.allocates = true ∧ s.oracle.allocFails = true)

/-- The unit itself leaves only the codes 0, 1, 2, 6 and 7 in ERR: MalformedNumber, NotYetImplemented and InternalError are
never raised by a command (60_exceptions.md R230, R233, R234, R235). -/
def Obligations.CommandsRaiseOnlyTheUnitsCodes : Prop :=
  ∀ (i : Instr) (s t : State), s.err.ofUnit = true → exec i s = .next t → t.err.ofUnit = true

/-- STATUS and FLAGS as the host reads them: RUN in bits 1:0 with its four values, ERR in bits 7:4 with the codes of R230,
FSV in bit 8, every other bit 0; FLAGS bit 0 Z, 1 LT, 2 EQ, 3 GT (10_state.md R32, R33, 60_exceptions.md R230). -/
def Obligations.StatusAndFlagsReadAsLaidOut : Prop :=
  ∀ s : State,
    s.statusWord.toNat
        = (match s.run with | .idle => 0 | .running => 1 | .done => 2 | .faulted => 3)
          + 16 * (match s.err with
            | .none => 0 | .outOfMemory => 1 | .integerOverflow => 2 | .malformedNumber => 3
            | .notYetImplemented => 4 | .internalError => 5 | .illegalCommand => 6 | .invalidOperand => 7)
          + (if s.fsv = true then 256 else 0)
      ∧ s.flags.word.toNat
        = (if s.flags.z = true then 1 else 0) + (if s.flags.lt = true then 2 else 0)
          + (if s.flags.eq = true then 4 else 0) + (if s.flags.gt = true then 8 else 0)

/-- InvalidOperand, every cause: a command reads an EMPTY register; the two operands of CMP, ADD, SUB or MUL differ in radix;
ROUND of a DEC register; ROUND before any LDFS; a decimal limb of 10^8 or more; a subtrahend above the minuend. Nothing but
STATUS and EPC changes. The causes are complete: a command that raises it meets one (60_exceptions.md R236). -/
def Obligations.InvalidOperandCausesAreRaised : Prop :=
  (∀ (i : Instr) (s t : State), s.err = .none → exec i s = .next t → t.err = .invalidOperand → i.operandCause s)
    ∧ ∀ (s : State) (d r : VIx), d ≠ r →
    (s.reg r = .empty →
        (∀ i ∈ [Instr.mov d r, Instr.clone d r, Instr.isZero r, Instr.cmp d r, Instr.cmp r d, Instr.cmp r r,
            Instr.round r, Instr.add d r, Instr.add r d, Instr.sub d r, Instr.sub r d, Instr.mul d r, Instr.mul r d],
          exec i s = .next { s with run := .faulted, err := .invalidOperand, epc := s.pc })
        ∧ ∀ x : Word, exec (.shift r x) s = .next { s with run := .faulted, err := .invalidOperand, epc := s.pc })
      ∧ (∀ (t u : Radix) (a b : BigFloat), s.reg d = .value t a → s.reg r = .value u b → t ≠ u →
          ∀ i ∈ [Instr.cmp d r, Instr.add d r, Instr.sub d r, Instr.mul d r],
            exec i s = .next { s with run := .faulted, err := .invalidOperand, epc := s.pc })
      ∧ (∀ a : BigFloat, s.reg d = .value .dec a →
          exec (.round d) s = .next { s with run := .faulted, err := .invalidOperand, epc := s.pc })
      ∧ (s.fsv = false → exec (.round d) s = .next { s with run := .faulted, err := .invalidOperand, epc := s.pc })
      ∧ (∀ x : Word, 100000000 ≤ x.toNat →
          exec (.ldlD d x) s = .next { s with run := .faulted, err := .invalidOperand, epc := s.pc })
      ∧ (∀ (p : Word) (l : List Word) (x : Word), x ∈ l → 100000000 ≤ x.toNat →
          exec (.nrmD d p l) s = .next { s with run := .faulted, err := .invalidOperand, epc := s.pc })
      ∧ (∀ (t : Radix) (a b : BigFloat), s.reg d = .value t a → s.reg r = .value t b → valueOf t a < valueOf t b →
          exec (.sub d r) s = .next { s with run := .faulted, err := .invalidOperand, epc := s.pc })

/-! ### The commands -/

/-- NOP advances PC by 1 and does nothing else; its word is zero, and a word with `op` 0 and any other bit set raises
IllegalCommand (46_system.md R200). -/
def Obligations.NopOnlyAdvancesPc : Prop :=
  encode .nop = [0x00000000#32]
    ∧ (∀ s : State, exec .nop s = .next { s with pc := s.pc + 1#32 })
    ∧ ∀ (s : State) (w : Word) (rest : List Word), s.run = .running → s.host = [] → s.pc.toNat < s.prog.length →
        s.prog.drop s.pc.toNat = w :: rest → opField w = 0#8 → w ≠ 0#32 →
        step s = .next { s with run := .faulted, err := .illegalCommand, epc := s.pc }

/-- LDFS writes all five fields of FS and FSV together and advances PC by 3; the fields are cut from FS0 and FS1 as R201
says, and a reserved bit of FS0 raises IllegalCommand (46_system.md R201). -/
def Obligations.LdfsLoadsTheFloatSpec : Prop :=
  (∀ (spec : FloatSpec) (s : State),
      exec (.ldfs spec) s = .next { s with fs := spec, fsv := true, pc := s.pc + 3#32 })
    ∧ ∀ (s : State) (w1 w2 : Word) (rest : List Word), s.run = .running → s.host = [] → s.pc.toNat < s.prog.length →
      s.prog.drop s.pc.toNat = 0x01000000#32 :: w1 :: w2 :: rest →
      (w1.extractLsb' 24 6 = 0#6 →
          step s = .next { s with
            fs := { m := w1.extractLsb' 0 16, eb := w1.extractLsb' 16 8, e1 := w2, den := w1.getLsbD 30
                    nan := w1.getLsbD 31 }
            fsv := true
            pc := s.pc + 3#32 })
        ∧ (w1.extractLsb' 24 6 ≠ 0#6 →
          step s = .next { s with run := .faulted, err := .illegalCommand, epc := s.pc })

/-- LDL.B leaves `Canon_BIN(L)` in Vd, whatever Vd held, with low place 0 to 31 and at most 32 digits; with a failed allocation
it raises OutOfMemory (40_construct_move.md R101). -/
def Obligations.LdlBConstructsTheBinaryValue : Prop :=
  ∀ (d : VIx) (x : Word) (s : State),
    encode (.ldlB d x) = [0x10#8 ++ BitVec.ofNat 4 d.val ++ 0#20, x]
      ∧ (s.oracle.allocFails = false →
        exec (.ldlB d x) s
          = .next { s with v := s.v.set d.val (.value .bin (canon .bin x.toNat 0)) d.isLt, pc := s.pc + 2#32
                           oracle := s.oracle.afterAlloc })
      ∧ (s.oracle.allocFails = true →
        exec (.ldlB d x) s = .next (State.raiseInto { s with oracle := s.oracle.afterAlloc } .outOfMemory d .bin))
      ∧ IsCanon .bin (x.toNat : ℚ) (canon .bin x.toNat 0)
      ∧ 0 ≤ (canon .bin x.toNat 0).lp ∧ (canon .bin x.toNat 0).lp ≤ 31 ∧ (canon .bin x.toNat 0).nd ≤ 32

/-- LDL.D leaves `Canon_DEC(L)` in Vd for a limb below 10^8, raises InvalidOperand for any other, and OutOfMemory with a failed
allocation (40_construct_move.md R102). -/
def Obligations.LdlDConstructsTheDecimalValue : Prop :=
  ∀ (d : VIx) (x : Word) (s : State),
    encode (.ldlD d x) = [0x11#8 ++ BitVec.ofNat 4 d.val ++ 0#20, x]
      ∧ (x.toNat < 100000000 →
      (s.oracle.allocFails = false →
          exec (.ldlD d x) s
            = .next { s with v := s.v.set d.val (.value .dec (canon .dec x.toNat 0)) d.isLt, pc := s.pc + 2#32
                             oracle := s.oracle.afterAlloc })
        ∧ (s.oracle.allocFails = true →
          exec (.ldlD d x) s = .next (State.raiseInto { s with oracle := s.oracle.afterAlloc } .outOfMemory d .dec))
        ∧ IsCanon .dec (x.toNat : ℚ) (canon .dec x.toNat 0)
        ∧ 0 ≤ (canon .dec x.toNat 0).lp ∧ (canon .dec x.toNat 0).lp ≤ 7 ∧ (canon .dec x.toNat 0).nd ≤ 8)
      ∧ (100000000 ≤ x.toNat → exec (.ldlD d x) s = .next (s.raise .invalidOperand))

/-- NRM.B leaves `Canon_BIN(S * 2^L)` in Vd, S the sum of its limbs; it raises IntegerOverflow exactly when that value is out
of bounds, and OutOfMemory with a failed allocation (42_normalize_shift.md R146). In bounds means at most 65536 digits and a
low place from -65536 to 65536, both included (00_scope.md R15). -/
def Obligations.NrmBNormalizesTheLimbs : Prop :=
  (∀ (lp : Int) (nd : Nat), inBounds lp nd = true ↔ nd ≤ 65536 ∧ -65536 ≤ lp ∧ lp ≤ 65536)
    ∧ ∀ (d : VIx) (L : Word) (limbs : List Word) (s : State) (c : BigFloat),
    c = canon .bin (limbSum .bin (limbNats limbs)) L.toInt →
    encode (.nrmB d L limbs)
        = (0x12#8 ++ BitVec.ofNat 4 d.val ++ 0#4 ++ BitVec.ofNat 16 limbs.length) :: L :: limbs
      ∧ IsCanon .bin ((limbSum .bin (limbNats limbs) : ℚ) * 2 ^ L.toInt) c
      ∧ (s.oracle.allocFails = true →
        exec (.nrmB d L limbs) s
          = .next (State.raiseInto { s with oracle := s.oracle.afterAlloc } .outOfMemory d .bin))
      ∧ (s.oracle.allocFails = false → c.nd ≤ 65536 → -65536 ≤ c.lp → c.lp ≤ 65536 →
        exec (.nrmB d L limbs) s
          = .next { s with v := s.v.set d.val (.value .bin c) d.isLt
                           pc := s.pc + BitVec.ofNat 32 (limbs.length + 2), oracle := s.oracle.afterAlloc })
      ∧ (s.oracle.allocFails = false → (65536 < c.nd ∨ c.lp < -65536 ∨ 65536 < c.lp) →
        exec (.nrmB d L limbs) s
          = .next (State.raiseInto { s with oracle := s.oracle.afterAlloc } .integerOverflow d .bin))

/-- NRM.D leaves `Canon_DEC(S * 10^L)` in Vd for limbs below 10^8, and raises InvalidOperand for a limb of 10^8 or more before
anything else (42_normalize_shift.md R147). -/
def Obligations.NrmDNormalizesTheLimbs : Prop :=
  ∀ (d : VIx) (L : Word) (limbs : List Word) (s : State) (c : BigFloat),
    c = canon .dec (limbSum .dec (limbNats limbs)) L.toInt →
    encode (.nrmD d L limbs)
        = (0x13#8 ++ BitVec.ofNat 4 d.val ++ 0#4 ++ BitVec.ofNat 16 limbs.length) :: L :: limbs
      ∧ ((∀ x ∈ limbs, x.toNat < 100000000) →
        IsCanon .dec ((limbSum .dec (limbNats limbs) : ℚ) * 10 ^ L.toInt) c
          ∧ (s.oracle.allocFails = true →
            exec (.nrmD d L limbs) s
              = .next (State.raiseInto { s with oracle := s.oracle.afterAlloc } .outOfMemory d .dec))
          ∧ (s.oracle.allocFails = false → c.nd ≤ 65536 → -65536 ≤ c.lp → c.lp ≤ 65536 →
            exec (.nrmD d L limbs) s
              = .next { s with v := s.v.set d.val (.value .dec c) d.isLt
                               pc := s.pc + BitVec.ofNat 32 (limbs.length + 2), oracle := s.oracle.afterAlloc })
          ∧ (s.oracle.allocFails = false → (65536 < c.nd ∨ c.lp < -65536 ∨ 65536 < c.lp) →
            exec (.nrmD d L limbs) s
              = .next (State.raiseInto { s with oracle := s.oracle.afterAlloc } .integerOverflow d .dec)))
      ∧ ((∃ x ∈ limbs, 100000000 ≤ x.toNat) → exec (.nrmD d L limbs) s = .next (s.raise .invalidOperand))

/-- MOV gives Vd the value of Vs and leaves Vs EMPTY; it allocates nothing; an EMPTY Vs is InvalidOperand
(40_construct_move.md R105). -/
def Obligations.MovTransfersTheValue : Prop :=
  ∀ (d r : VIx) (s : State), d ≠ r →
    encode (.mov d r) = [0x14#8 ++ BitVec.ofNat 4 d.val ++ BitVec.ofNat 4 r.val ++ 0#16]
      ∧ (s.reg r ≠ .empty →
        exec (.mov d r) s
          = .next { s with v := (s.v.set d.val (s.reg r) d.isLt).set r.val .empty r.isLt, pc := s.pc + 1#32 })
      ∧ (s.reg r = .empty → exec (.mov d r) s = .next (s.raise .invalidOperand))

/-- CLONE gives Vd the value of Vs and leaves Vs as it was; an EMPTY Vs is InvalidOperand; a failed allocation is OutOfMemory
with a value of the tag of Vs in Vd (40_construct_move.md R106). -/
def Obligations.CloneCopiesTheValue : Prop :=
  ∀ (d r : VIx) (s : State), d ≠ r →
    encode (.clone d r) = [0x15#8 ++ BitVec.ofNat 4 d.val ++ BitVec.ofNat 4 r.val ++ 0#16]
      ∧ (∀ (t : Radix) (x : BigFloat), s.reg r = .value t x →
        (s.oracle.allocFails = false →
          exec (.clone d r) s
            = .next { s with v := s.v.set d.val (.value t x) d.isLt, pc := s.pc + 1#32
                             oracle := s.oracle.afterAlloc })
        ∧ (s.oracle.allocFails = true →
          exec (.clone d r) s = .next (State.raiseInto { s with oracle := s.oracle.afterAlloc } .outOfMemory d t)))
      ∧ (s.reg r = .empty → exec (.clone d r) s = .next (s.raise .invalidOperand))

/-- FREE leaves Vd EMPTY, an EMPTY one too, and faults in no state (40_construct_move.md R107). -/
def Obligations.FreeEmptiesTheRegister : Prop :=
  ∀ (d : VIx) (s : State),
    encode (.free d) = [0x16#8 ++ BitVec.ofNat 4 d.val ++ 0#20]
      ∧ exec (.free d) s = .next { s with v := s.v.set d.val .empty d.isLt, pc := s.pc + 1#32 }

/-- ISZERO writes Z alone: 1 exactly when the value is zero; an EMPTY Vs is InvalidOperand (43_compare.md R160). -/
def Obligations.IsZeroTestsForZero : Prop :=
  ∀ (r : VIx) (s : State),
    encode (.isZero r) = [0x20#8 ++ BitVec.ofNat 4 r.val ++ 0#20]
      ∧ (∀ (t : Radix) (x : BigFloat), s.reg r = .value t x →
        exec (.isZero r) s
            = .next { s with flags := { s.flags with z := decide (x.nd = 0) }, pc := s.pc + 1#32 }
          ∧ (normalized t x = true → (x.nd = 0 ↔ valueOf t x = 0)))
      ∧ (s.reg r = .empty → exec (.isZero r) s = .next (s.raise .invalidOperand))

/-- CMP writes LT, EQ, GT from the exact values and leaves Z, the two registers being allowed to be one; EMPTY operands and
operands of two radixes are InvalidOperand (43_compare.md R161). -/
def Obligations.CmpOrdersTheValues : Prop :=
  ∀ (a b : VIx) (s : State),
    encode (.cmp a b) = [0x21#8 ++ BitVec.ofNat 4 a.val ++ BitVec.ofNat 4 b.val ++ 0#16]
      ∧ (∀ (t : Radix) (x y : BigFloat), s.reg a = .value t x → s.reg b = .value t y →
        exec (.cmp a b) s
          = .next { s with
              flags := { z := s.flags.z, lt := decide (valueOf t x < valueOf t y)
                         eq := decide (valueOf t x = valueOf t y), gt := decide (valueOf t y < valueOf t x) }
              pc := s.pc + 1#32 })
      ∧ (s.reg a = .empty ∨ s.reg b = .empty ∨ (s.reg a).tag ≠ (s.reg b).tag →
        exec (.cmp a b) s = .next (s.raise .invalidOperand))

/-- SHIFT adds the signed offset to the low place and changes nothing else of the value, so the value is multiplied by
`beta^off`; an offset or a resulting place out of bounds is IntegerOverflow; zero stays zero, and for an offset out of
bounds either outcome is drawn; EMPTY is InvalidOperand (42_normalize_shift.md R145). -/
def Obligations.ShiftMultipliesByAPowerOfTheBase : Prop :=
  ∀ (d : VIx) (off : Word) (s : State),
    encode (.shift d off) = [0x30#8 ++ BitVec.ofNat 4 d.val ++ 0#20, off]
      ∧ (s.reg d = .empty → exec (.shift d off) s = .next (s.raise .invalidOperand))
      ∧ ∀ (t : Radix) (x : BigFloat), s.reg d = .value t x →
        (x.nd ≠ 0 → -65536 ≤ off.toInt → off.toInt ≤ 65536 → -65536 ≤ x.lp + off.toInt → x.lp + off.toInt ≤ 65536 →
            exec (.shift d off) s
                = .next { s with v := s.v.set d.val (.value t { x with lp := x.lp + off.toInt }) d.isLt
                                 pc := s.pc + 2#32 }
              ∧ valueOf t { x with lp := x.lp + off.toInt } = valueOf t x * (base t : ℚ) ^ off.toInt)
          ∧ (x.nd ≠ 0 → (off.toInt < -65536 ∨ 65536 < off.toInt ∨ x.lp + off.toInt < -65536
                ∨ 65536 < x.lp + off.toInt) →
            exec (.shift d off) s = .next (s.raiseInto .integerOverflow d t))
          ∧ (x.nd = 0 → -65536 ≤ off.toInt → off.toInt ≤ 65536 →
            exec (.shift d off) s = .next { s with pc := s.pc + 2#32 })
          ∧ (x.nd = 0 → (off.toInt < -65536 ∨ 65536 < off.toInt) → s.oracle.eitherFaults = false →
            exec (.shift d off) s = .next { s with pc := s.pc + 2#32, oracle := s.oracle.afterEither })
          ∧ (x.nd = 0 → (off.toInt < -65536 ∨ 65536 < off.toInt) → s.oracle.eitherFaults = true →
            exec (.shift d off) s
              = .next (State.raiseInto { s with oracle := s.oracle.afterEither } .integerOverflow d t))

/-- ADD leaves `Canon_t(val(A) + val(B))`, the exact sum, in Vd and leaves Vs; zero operands short-circuit; EMPTY operands and
operands of two radixes are InvalidOperand; bounds are checked
as R31 says with the intermediate of R123; a failed allocation is OutOfMemory (41_add_sub.md R121, R123). -/
def Obligations.AddIsExact : Prop :=
  ∀ (d r : VIx) (s : State), d ≠ r →
    encode (.add d r) = [0x31#8 ++ BitVec.ofNat 4 d.val ++ BitVec.ofNat 4 r.val ++ 0#16]
      ∧ (s.badPair d r → exec (.add d r) s = .next (s.raise .invalidOperand))
      ∧ ∀ (t : Radix) (a b c : BigFloat) (pnd : Nat),
    s.reg d = .value t a → s.reg r = .value t b → c = sumValue t a b →
    pnd = digitsPerLimb t
      * (ceilDiv (max (extent a) (extent b) - min a.lp b.lp).toNat (digitsPerLimb t) + 1) →
    IsCanon t (valueOf t a + valueOf t b) c
      ∧ (s.oracle.allocFails = true →
        exec (.add d r) s = .next (State.raiseInto { s with oracle := s.oracle.afterAlloc } .outOfMemory d t))
      ∧ (s.oracle.allocFails = false → b.nd = 0 →
        exec (.add d r) s = .next { s with pc := s.pc + 1#32, oracle := s.oracle.afterAlloc })
      ∧ (s.oracle.allocFails = false → b.nd ≠ 0 → a.nd = 0 →
        exec (.add d r) s
          = .next { s with v := s.v.set d.val (.value t b) d.isLt, pc := s.pc + 1#32
                           oracle := s.oracle.afterAlloc })
      ∧ (s.oracle.allocFails = false → b.nd ≠ 0 → a.nd ≠ 0 →
          inBounds c.lp c.nd = true → inBounds (min a.lp b.lp) pnd = true →
        exec (.add d r) s
          = .next { s with v := s.v.set d.val (.value t c) d.isLt, pc := s.pc + 1#32
                           oracle := s.oracle.afterAlloc })
      ∧ (s.oracle.allocFails = false → b.nd ≠ 0 → a.nd ≠ 0 → inBounds c.lp c.nd = false →
        exec (.add d r) s
          = .next (State.raiseInto { s with oracle := s.oracle.afterAlloc } .integerOverflow d t))
      ∧ (s.oracle.allocFails = false → b.nd ≠ 0 → a.nd ≠ 0 → inBounds c.lp c.nd = true →
          inBounds (min a.lp b.lp) pnd = false →
        exec (.add d r) s
          = .next (if s.oracle.afterAlloc.eitherFaults = true
              then State.raiseInto { s with oracle := s.oracle.afterAlloc.afterEither } .integerOverflow d t
              else { s with v := s.v.set d.val (.value t c) d.isLt, pc := s.pc + 1#32
                            oracle := s.oracle.afterAlloc.afterEither }))

/-- SUB leaves `Canon_t(val(A) - val(B))`, the exact difference, in Vd when Vs is not above Vd; equal values give the
canonical zero; a greater Vs, an EMPTY operand and operands of two radixes are InvalidOperand; bounds are checked as R31 says
with the intermediate of R128 (41_add_sub.md R125, R126, R128). -/
def Obligations.SubIsExact : Prop :=
  ∀ (d r : VIx) (s : State), d ≠ r →
    encode (.sub d r) = [0x32#8 ++ BitVec.ofNat 4 d.val ++ BitVec.ofNat 4 r.val ++ 0#16]
      ∧ (s.badPair d r → exec (.sub d r) s = .next (s.raise .invalidOperand))
      ∧ ∀ (t : Radix) (a b c : BigFloat) (pnd : Nat),
    s.reg d = .value t a → s.reg r = .value t b → c = diffValue t a b →
    pnd = digitsPerLimb t * ceilDiv (extent a - min a.lp b.lp).toNat (digitsPerLimb t) →
    (valueOf t a < valueOf t b → exec (.sub d r) s = .next (s.raise .invalidOperand))
      ∧ (valueOf t b ≤ valueOf t a → IsCanon t (valueOf t a - valueOf t b) c)
      ∧ (valueOf t b ≤ valueOf t a → s.oracle.allocFails = true →
        exec (.sub d r) s = .next (State.raiseInto { s with oracle := s.oracle.afterAlloc } .outOfMemory d t))
      ∧ (valueOf t b ≤ valueOf t a → s.oracle.allocFails = false → b.nd = 0 →
        exec (.sub d r) s = .next { s with pc := s.pc + 1#32, oracle := s.oracle.afterAlloc })
      ∧ (valueOf t b = valueOf t a → s.oracle.allocFails = false → b.nd ≠ 0 →
        exec (.sub d r) s
          = .next { s with v := s.v.set d.val (.value t { lp := 0, nd := 0, f := [] }) d.isLt, pc := s.pc + 1#32
                           oracle := s.oracle.afterAlloc })
      ∧ (valueOf t b < valueOf t a → s.oracle.allocFails = false → b.nd ≠ 0 →
          inBounds c.lp c.nd = true → inBounds (min a.lp b.lp) pnd = true →
        exec (.sub d r) s
          = .next { s with v := s.v.set d.val (.value t c) d.isLt, pc := s.pc + 1#32
                           oracle := s.oracle.afterAlloc })
      ∧ (valueOf t b < valueOf t a → s.oracle.allocFails = false → b.nd ≠ 0 → inBounds c.lp c.nd = false →
        exec (.sub d r) s
          = .next (State.raiseInto { s with oracle := s.oracle.afterAlloc } .integerOverflow d t))
      ∧ (valueOf t b < valueOf t a → s.oracle.allocFails = false → b.nd ≠ 0 → inBounds c.lp c.nd = true →
          inBounds (min a.lp b.lp) pnd = false →
        exec (.sub d r) s
          = .next (if s.oracle.afterAlloc.eitherFaults = true
              then State.raiseInto { s with oracle := s.oracle.afterAlloc.afterEither } .integerOverflow d t
              else { s with v := s.v.set d.val (.value t c) d.isLt, pc := s.pc + 1#32
                            oracle := s.oracle.afterAlloc.afterEither }))

/-- MUL leaves `Canon_t(val(A) * val(B))`, the exact product, in Vd; zero short-circuits; EMPTY operands and
operands of two radixes are InvalidOperand; bounds are checked as R31 says with
the intermediate of R173 (44_multiply.md R170, R173). -/
def Obligations.MulIsExact : Prop :=
  ∀ (d r : VIx) (s : State), d ≠ r →
    encode (.mul d r) = [0x33#8 ++ BitVec.ofNat 4 d.val ++ BitVec.ofNat 4 r.val ++ 0#16]
      ∧ (s.badPair d r → exec (.mul d r) s = .next (s.raise .invalidOperand))
      ∧ ∀ (t : Radix) (a b c : BigFloat) (pnd : Nat),
    s.reg d = .value t a → s.reg r = .value t b → c = productValue t a b →
    pnd = max (a.nd + b.nd + 1) (digitsPerLimb t * (a.f.length + b.f.length)) →
    IsCanon t (valueOf t a * valueOf t b) c
      ∧ (s.oracle.allocFails = true →
        exec (.mul d r) s = .next (State.raiseInto { s with oracle := s.oracle.afterAlloc } .outOfMemory d t))
      ∧ (s.oracle.allocFails = false → (a.nd = 0 ∨ b.nd = 0) →
        exec (.mul d r) s
          = .next { s with v := s.v.set d.val (.value t { lp := 0, nd := 0, f := [] }) d.isLt, pc := s.pc + 1#32
                           oracle := s.oracle.afterAlloc })
      ∧ (s.oracle.allocFails = false → a.nd ≠ 0 → b.nd ≠ 0 →
          inBounds c.lp c.nd = true → inBounds (a.lp + b.lp) pnd = true →
        exec (.mul d r) s
          = .next { s with v := s.v.set d.val (.value t c) d.isLt, pc := s.pc + 1#32
                           oracle := s.oracle.afterAlloc })
      ∧ (s.oracle.allocFails = false → a.nd ≠ 0 → b.nd ≠ 0 → inBounds c.lp c.nd = false →
        exec (.mul d r) s
          = .next (State.raiseInto { s with oracle := s.oracle.afterAlloc } .integerOverflow d t))
      ∧ (s.oracle.allocFails = false → a.nd ≠ 0 → b.nd ≠ 0 → inBounds c.lp c.nd = true →
          inBounds (a.lp + b.lp) pnd = false →
        exec (.mul d r) s
          = .next (if s.oracle.afterAlloc.eitherFaults = true
              then State.raiseInto { s with oracle := s.oracle.afterAlloc.afterEither } .integerOverflow d t
              else { s with v := s.v.set d.val (.value t c) d.isLt, pc := s.pc + 1#32
                            oracle := s.oracle.afterAlloc.afterEither }))

/-- The product's place and digits: `lp = lpA + lpB + trim` with `trim ≥ 0`, 0 in BIN, and `nd` is `ndA + ndB - trim` or one
less (44_multiply.md R170). -/
def Obligations.ProductPlaceAndDigits : Prop :=
  ∀ (t : Radix) (a b : BigFloat), normalized t a = true → normalized t b = true → a.nd ≠ 0 → b.nd ≠ 0 →
    ∃ trim : Nat, (productValue t a b).lp = a.lp + b.lp + trim ∧ (t = .bin → trim = 0)
      ∧ ((productValue t a b).nd + trim = a.nd + b.nd ∨ (productValue t a b).nd + trim + 1 = a.nd + b.nd)

/-- ROUND, its places and its intermediate spelled out: `high` is the place of the top digit (45_round.md R181), `last` the
last kept bit with the subnormal floor (R182), `pnd` the digits of the intermediate (R187). A value with no bit below `last`,
and one too small for anything but zero (R183), takes its rounded value with no bound check; any other takes the rounded
value with `BoundCheck` on it; an EMPTY or DEC operand and an unloaded FS are InvalidOperand; a failed allocation is
OutOfMemory (R180). What the rounded value is stands in RoundingIsToNearestEven. That a zero result under a floor above the
place bounds meets the draw of the grey band is read from the pseudocode of R180 against a remark of R187
(notes/assumptions/14.md). -/
def Obligations.RoundWritesTheRoundedValue : Prop :=
  ∀ (d : VIx) (s : State),
    encode (.round d) = [0x34#8 ++ BitVec.ofNat 4 d.val ++ 0#20]
      ∧ (s.reg d = .empty ∨ (s.reg d).tag = some .dec → exec (.round d) s = .next (s.raise .invalidOperand))
      ∧ ∀ (v : BigFloat) (high last : Int) (pnd : Nat), s.reg d = .value .bin v →
    high = v.lp + v.nd - 1 →
    last = (if s.fs.den = true ∧ high + s.fs.e1.toInt ≤ 0 then 1 - s.fs.e1.toInt - s.fs.m.toNat
      else high - s.fs.m.toNat) →
    pnd = 32 * (max (v.f.length - (last - v.lp).toNat / 32) 1 + 1) →
    (s.fsv = false → exec (.round d) s = .next (s.raise .invalidOperand))
      ∧ (s.fsv = true → s.oracle.allocFails = true →
        exec (.round d) s = .next (State.raiseInto { s with oracle := s.oracle.afterAlloc } .outOfMemory d .bin))
      ∧ (s.fsv = true → s.oracle.allocFails = false →
          (v.nd = 0 ∨ (s.fs.den = true ∧ high + s.fs.e1.toInt ≤ 0 ∧ high < last - 1) ∨ last - 1 < v.lp) →
        exec (.round d) s
          = .next { s with v := s.v.set d.val (.value .bin (roundTo s.fs v)) d.isLt, pc := s.pc + 1#32
                           oracle := s.oracle.afterAlloc })
      ∧ (s.fsv = true → s.oracle.allocFails = false → v.nd ≠ 0 →
          ¬ (s.fs.den = true ∧ high + s.fs.e1.toInt ≤ 0 ∧ high < last - 1) → v.lp ≤ last - 1 →
        (inBounds (roundTo s.fs v).lp (roundTo s.fs v).nd = true → inBounds last pnd = true →
          exec (.round d) s
            = .next { s with v := s.v.set d.val (.value .bin (roundTo s.fs v)) d.isLt, pc := s.pc + 1#32
                             oracle := s.oracle.afterAlloc })
        ∧ (inBounds (roundTo s.fs v).lp (roundTo s.fs v).nd = false →
          exec (.round d) s
            = .next (State.raiseInto { s with oracle := s.oracle.afterAlloc } .integerOverflow d .bin))
        ∧ (inBounds (roundTo s.fs v).lp (roundTo s.fs v).nd = true → inBounds last pnd = false →
          exec (.round d) s
            = .next (if s.oracle.afterAlloc.eitherFaults = true
                then State.raiseInto { s with oracle := s.oracle.afterAlloc.afterEither } .integerOverflow d .bin
                else { s with v := s.v.set d.val (.value .bin (roundTo s.fs v)) d.isLt, pc := s.pc + 1#32
                              oracle := s.oracle.afterAlloc.afterEither })))

/-! ### What the arithmetic computes -/

/-- `Canon_t(n * beta^e)` has the value `n * beta^e`, meets R24, and is the only triple that does (00_scope.md R13). -/
def Obligations.CanonicalFormExistsAndIsUnique : Prop :=
  ∀ (t : Radix) (n : Nat) (e : Int) (v : BigFloat),
    IsCanon t ((n : ℚ) * (base t : ℚ) ^ e) v ↔ v = canon t n e

/-- What the normalizer guarantees: for a grid that stands for S, `trim` is the number of trailing zero digits of S, the limbs
stand for `S / beta^trim` and meet R24, `nd` is its digit count, the result with low place L is `Canon_t(S * beta^L)`, and
normalizing again changes nothing (42_normalize_shift.md R144). -/
def Obligations.NormalizerTrimsToTheCanonicalForm : Prop :=
  ∀ (t : Radix) (s : List Nat) (L : Int), (∀ x ∈ s, x < limbMod t) →
    (limbSum t s = 0 → normalizeLimbs t s = { trim := 0, nd := 0, f := [] })
      ∧ (limbSum t s ≠ 0 →
        base t ^ (normalizeLimbs t s).trim ∣ limbSum t s
          ∧ ¬ base t ^ ((normalizeLimbs t s).trim + 1) ∣ limbSum t s
          ∧ limbSum t (normalizeLimbs t s).f = limbSum t s / base t ^ (normalizeLimbs t s).trim
          ∧ (normalizeLimbs t s).nd = digitCount t (limbSum t s / base t ^ (normalizeLimbs t s).trim)
          ∧ limbsNormal t (normalizeLimbs t s).nd (normalizeLimbs t s).f = true)
      ∧ fromGrid t s L = canon t (limbSum t s) L
      ∧ normalizeLimbs t (normalizeLimbs t s).f = { trim := 0, nd := (normalizeLimbs t s).nd, f := (normalizeLimbs t s).f }

/-- Alignment multiplies a limb list by `beta^delta`, whenever the grid holds the top digit, and its limbs are limbs of the
radix (00_scope.md R14). -/
def Obligations.AlignmentPreservesTheValue : Prop :=
  ∀ (t : Radix) (f : List Nat) (delta n : Nat), (∀ x ∈ f, x < limbMod t) →
    limbSum t f * base t ^ delta < limbMod t ^ n →
    limbSum t (align t f delta n) = limbSum t f * base t ^ delta ∧ (align t f delta n).length = n
      ∧ ∀ x ∈ align t f delta n, x < limbMod t

/-- The carry chain of ADD computes the exact sum: the limb rule's triple is `Canon_t(val(A) + val(B))`
(41_add_sub.md R122). -/
def Obligations.CarryChainAddsExactly : Prop :=
  ∀ (t : Radix) (a b : BigFloat), normalized t a = true → normalized t b = true → a.nd ≠ 0 → b.nd ≠ 0 →
    IsCanon t (valueOf t a + valueOf t b) (addLimbs t a b)

/-- The complement subtraction computes the exact difference, and its dropped carry is 1, when the subtrahend is not above the
minuend (41_add_sub.md R127). -/
def Obligations.ComplementSubtractionIsExact : Prop :=
  ∀ (t : Radix) (a b : BigFloat), normalized t a = true → normalized t b = true → a.nd ≠ 0 → b.nd ≠ 0 →
    valueOf t b ≤ valueOf t a →
    (complementSum t a b).2 = 1 ∧ IsCanon t (valueOf t a - valueOf t b) (subLimbs t a b)

/-- The schoolbook rows with their running carry compute the exact product (44_multiply.md R171). -/
def Obligations.SchoolbookMultiplicationIsExact : Prop :=
  ∀ (t : Radix) (a b : BigFloat), normalized t a = true → normalized t b = true → a.nd ≠ 0 → b.nd ≠ 0 →
    IsCanon t (valueOf t a * valueOf t b) (mulLimbs t a b)

/-- The comparison procedure, zero operands first, then extents, then aligned limbs from the top, agrees with the order of the
exact values (43_compare.md R162, R164). -/
def Obligations.LimbComparisonOrdersTheValues : Prop :=
  ∀ (t : Radix) (a b : BigFloat), normalized t a = true → normalized t b = true →
    (compareLimbs t a b = .lt ↔ valueOf t a < valueOf t b)
      ∧ (compareLimbs t a b = .eq ↔ valueOf t a = valueOf t b)
      ∧ (compareLimbs t a b = .gt ↔ valueOf t b < valueOf t a)

/-- Equality of values is equality of low place, digit count and every limb, and EQ after CMP says so
(43_compare.md R163). -/
def Obligations.EqualityIsFieldEquality : Prop :=
  ∀ (t : Radix) (x y : BigFloat), normalized t x = true → normalized t y = true →
    (valueOf t x = valueOf t y ↔ x.lp = y.lp ∧ x.nd = y.nd ∧ x.f = y.f)
      ∧ ∀ (a b : VIx) (s u : State), s.reg a = .value t x → s.reg b = .value t y → exec (.cmp a b) s = .next u →
        (u.flags.eq = true ↔ x.lp = y.lp ∧ x.nd = y.nd ∧ x.f = y.f)

/-- After a CMP that completes exactly one of LT, EQ, GT is 1 (10_state.md R32). -/
def Obligations.CmpSetsExactlyOneRelation : Prop :=
  ∀ (a b : VIx) (s t : State), s.run = .running → exec (.cmp a b) s = .next t → t.run = .running →
    t.flags.z = s.flags.z
      ∧ ((t.flags.lt = true ∧ t.flags.eq = false ∧ t.flags.gt = false)
        ∨ (t.flags.lt = false ∧ t.flags.eq = true ∧ t.flags.gt = false)
        ∨ (t.flags.lt = false ∧ t.flags.eq = false ∧ t.flags.gt = true))

/-- The identities of the adder and multiplier, barring faults: (a + b) - b = a, a * 1 = a, a + a = a * 2, each an equality of
every field (41_add_sub.md R131). -/
def Obligations.ArithmeticIdentitiesHold : Prop :=
  ∀ (t : Radix) (a b : BigFloat), normalized t a = true → normalized t b = true → a.nd ≠ 0 → b.nd ≠ 0 →
    diffValue t (sumValue t a b) b = a
      ∧ productValue t a (construct t 1) = a
      ∧ sumValue t a a = productValue t a (construct t 2)

/-- The drop, round-up and renormalization on limbs give the rounded value (45_round.md R185). -/
def Obligations.RoundUpChainGivesTheRoundedValue : Prop :=
  ∀ (spec : FloatSpec) (v : BigFloat), normalized .bin v = true → v.nd ≠ 0 → flushes spec v = false →
    v.lp ≤ lastBit spec v - 1 →
    roundLimbs v (dropCount spec v) (roundUp spec v) = roundedValue spec v

/-- Rounding is to nearest, ties to even: the rounded value is a multiple of `2^last`, no multiple is nearer, and where another
is as near this one is even; it is normalized, has at most m + 1 digits (in the subnormal range at most high - last + 2), its
high bit lies from `last` to one above the old one, and it is zero only at the floor for at most half of `2^last`
(45_round.md R186). The last kept bit is spelled out: `high - m`, or the floor `1 - e1 - m` where denormals are supported and
`high + e1 ≤ 0`, so the greater of the two where they are supported (R182). -/
def Obligations.RoundingIsToNearestEven : Prop :=
  ∀ (spec : FloatSpec) (v : BigFloat), normalized .bin v = true → v.nd ≠ 0 →
    (isSubnormal spec v = true ↔ spec.den = true ∧ v.lp + v.nd - 1 + spec.e1.toInt ≤ 0)
      ∧ (lastBit spec v = if spec.den = true ∧ v.lp + v.nd - 1 + spec.e1.toInt ≤ 0
          then 1 - spec.e1.toInt - spec.m.toNat else v.lp + v.nd - 1 - spec.m.toNat)
      ∧ (spec.den = true →
          lastBit spec v = max (v.lp + v.nd - 1 - spec.m.toNat) (1 - spec.e1.toInt - spec.m.toNat))
      ∧ normalized .bin (roundTo spec v) = true
      ∧ (∃ k : Nat, valueOf .bin (roundTo spec v) = (k : ℚ) * 2 ^ lastBit spec v
        ∧ ∀ j : Nat, |valueOf .bin v - (k : ℚ) * 2 ^ lastBit spec v| ≤ |valueOf .bin v - (j : ℚ) * 2 ^ lastBit spec v|
          ∧ (j ≠ k → |valueOf .bin v - (k : ℚ) * 2 ^ lastBit spec v| = |valueOf .bin v - (j : ℚ) * 2 ^ lastBit spec v| →
            k % 2 = 0))
      ∧ (roundTo spec v).nd ≤ spec.m.toNat + 1
      ∧ (isSubnormal spec v = true → flushes spec v = false →
          ((roundTo spec v).nd : Int) ≤ highBit v - lastBit spec v + 2)
      ∧ ((roundTo spec v).nd ≠ 0 →
          lastBit spec v ≤ highBit (roundTo spec v) ∧ highBit (roundTo spec v) ≤ highBit v + 1)
      ∧ ((roundTo spec v).nd = 0 →
          spec.den = true ∧ lastBit spec v = 1 - spec.e1.toInt - spec.m.toNat
            ∧ valueOf .bin v ≤ 2 ^ lastBit spec v / 2)

/-- Rounding a rounded value changes nothing, and a value of at most m + 1 digits in the normal range is its own rounded value
(45_round.md R189, R190). -/
def Obligations.RoundingIsIdempotent : Prop :=
  ∀ (spec : FloatSpec) (v : BigFloat), normalized .bin v = true →
    roundTo spec (roundTo spec v) = roundTo spec v
      ∧ (isSubnormal spec v = false → v.nd ≤ spec.m.toNat + 1 → roundTo spec v = v)

/-- ROUND does not depend on exponentBits and supportsNaNs: with other values in those two fields it does the same
(45_round.md R188). -/
def Obligations.RoundIgnoresExponentBitsAndNaNs : Prop :=
  ∀ (d : VIx) (s : State) (eb : BitVec 8) (nan : Bool), ∃ t : State,
    exec (.round d) s = .next t
      ∧ exec (.round d) { s with fs := { s.fs with eb := eb, nan := nan } }
        = .next { t with fs := { s.fs with eb := eb, nan := nan } }
end

