-- ==== Sys2Proof/Tests/Slice0.lean ====
section
/-! SUPPORT. Tests: the well-formedness checks refuse an ill-formed term, words written out from the spec's encodings decode,
the spec's own examples (95_test_vectors.md and the rules' worked examples) hold of one step, and every statement's
hypotheses are met by a concrete state. -/

namespace Sys2Proof.Tests

open Sys2Proof Sys2Proof.Machine

/-! ### Helpers -/

/-- A running state whose allocator answers, with one either-outcome draw of "no fault" left. -/
def ready : State :=
  { State.reset with run := .running, fsv := true
                     oracle := { alloc := [false], either := [false], unspec := [], taken := 0 } }

/-- A running state whose next allocation fails. -/
def failing : State := { ready with oracle := { alloc := [true], either := [], unspec := [], taken := 0 } }

/-- A value from its fields. -/
def bf (lp : Int) (nd : Nat) (f : List Nat) : BigFloat := { lp := lp, nd := nd, f := limbWords f }

/-- V0 holds a value. -/
def one (t : Radix) (a : BigFloat) (s : State := ready) : State := s.setReg 0 (.value t a)

/-- V0 and V1 hold values. -/
def two (t : Radix) (a b : BigFloat) (s : State := ready) : State := (one t a s).setReg 1 (.value t b)

/-- Single precision (30_encoding.md R83). -/
def single : FloatSpec := { m := 23#16, eb := 8#8, e1 := 127#32, den := true, nan := true }

/-- Single precision loaded. -/
def rounding (a : BigFloat) : State := one .bin a { ready with fs := single }

/-- Register `i` of a next state. -/
def regAfter (o : Host.Outcome State Fault Refusal) (i : VIx) : Option VReg :=
  match o with
  | .next s => some (s.reg i)
  | .fault _ => none
  | .refused _ => none

/-- ERR of a next state. -/
def errAfter (o : Host.Outcome State Fault Refusal) : Option FaultCode :=
  match o with
  | .next s => some s.err
  | .fault _ => none
  | .refused _ => none

/-- FLAGS of a next state, as the host reads them. -/
def flagsAfter (o : Host.Outcome State Fault Refusal) : Option (BitVec 4) :=
  match o with
  | .next s => some s.flags.word
  | .fault _ => none
  | .refused _ => none

/-- PC and FS of a next state. -/
def pcFsAfter (o : Host.Outcome State Fault Refusal) : Option (BitVec 32 × FloatSpec × Bool) :=
  match o with
  | .next s => some (s.pc, s.fs, s.fsv)
  | .fault _ => none
  | .refused _ => none

/-! ### Well-formedness smoke tests -/

theorem test_wf_refuses_equal_operands : (Instr.add 2 2).operandsDiffer = false := by decide

theorem test_wf_refuses_too_many_limbs (l : List Word) (h : l.length = 65536) :
    (Instr.nrmB 0 0#32 l).limbCountFits = false := by
  simp [Instr.limbCountFits, Instr.limbList, maxLimbCount, h]

theorem test_wf_accepts : (Instr.add 2 1).wellFormed = true := by decide

/-! ### Words written out from 30_encoding.md R71 to R74 (95_test_vectors.md 2.1) -/

theorem test_decode_nop : decode [0x00000000#32] = .ok .nop := by decide
theorem test_decode_ldfs :
    decode [0x01000000#32, 0x0005000A#32, 0x0000000F#32]
      = .ok (.ldfs { m := 10#16, eb := 5#8, e1 := 15#32, den := false, nan := false }) := by decide
theorem test_decode_ldlB : decode [0x10000000#32, 0x00000005#32] = .ok (.ldlB 0 5#32) := by decide
theorem test_decode_ldlD : decode [0x11000000#32, 0x05920680#32] = .ok (.ldlD 0 93456000#32) := by decide
theorem test_decode_nrmB :
    decode [0x12000001#32, 0xFFFFFFF4#32, 0x056CF82D#32] = .ok (.nrmB 0 (BitVec.ofInt 32 (-12)) [0x056CF82D#32]) := by
  decide
theorem test_decode_nrmD :
    decode [0x13000002#32, 0#32, 0x05F5E0FF#32, 0x05F5E0FF#32] = .ok (.nrmD 0 0#32 [99999999#32, 99999999#32]) := by
  decide
theorem test_decode_mov : decode [0x14210000#32] = .ok (.mov 2 1) := by decide
theorem test_decode_clone : decode [0x15200000#32] = .ok (.clone 2 0) := by decide
theorem test_decode_free : decode [0x16700000#32] = .ok (.free 7) := by decide
theorem test_decode_isZero : decode [0x20100000#32] = .ok (.isZero 1) := by decide
theorem test_decode_cmp : decode [0x21200000#32] = .ok (.cmp 2 0) := by decide
theorem test_decode_shift : decode [0x30100000#32, 0x00011170#32] = .ok (.shift 1 70000#32) := by decide
theorem test_decode_add : decode [0x31210000#32] = .ok (.add 2 1) := by decide
theorem test_decode_sub : decode [0x32210000#32] = .ok (.sub 2 1) := by decide
theorem test_decode_mul : decode [0x33010000#32] = .ok (.mul 0 1) := by decide
theorem test_decode_round : decode [0x34300000#32] = .ok (.round 3) := by decide
theorem test_decode_table_word_add : decodeTableWord 32 0x31210000 = some (.add 2 1) := by decide
theorem test_decode_table_word_nrm : decodeTableWord 32 0x12100002 = some (.nrmB 1 0#32 [0#32, 0#32]) := by decide

/-- The refusals of 95_test_vectors.md 2.1, by name. -/
theorem test_decode_refuses :
    decode [0x02000000#32] = .error .illegalOpcode ∧ decode [0xFF000000#32] = .error .illegalOpcode
      ∧ decode [0x00000001#32] = .error .mustBeZero ∧ decode [0x34300001#32] = .error .mustBeZero
      ∧ decode [0x31280000#32] = .error .registerRange ∧ decode [0x21880000#32] = .error .registerRange
      ∧ decode [0x16800000#32] = .error .registerRange ∧ decode [0x10000000#32] = .error .truncated
      ∧ decode [0x12000003#32, 0#32, 1#32] = .error .truncated
      ∧ decode [0x01000000#32, 0xC0080017#32] = .error .truncated
      ∧ decode [0x01000000#32, 0x01080017#32, 0x7F#32] = .error .floatSpecReserved := by decide

/-! ### One step of each command, with the spec's examples -/

/-- 46_system.md R200: PC = 4, NOP, PC = 5. -/
theorem test_nop_pc : (pcFsAfter (exec .nop { ready with pc := 4#32 })).map Prod.fst = some 5#32 := by decide

/-- 46_system.md R201's example, decoded and run from reset. -/
theorem test_ldfs_single :
    pcFsAfter (step (State.reset.launched [0x01000000#32, 0xC0080017#32, 0x0000007F#32]))
      = some (3#32, single, true) := by decide

/-- 95_test_vectors.md 2.2. -/
theorem test_ldlB_twelve : regAfter (exec (.ldlB 0 12#32) ready) 0 = some (.value .bin (bf 2 2 [3])) := by decide
theorem test_ldlB_top_bit :
    regAfter (exec (.ldlB 0 0x80000000#32) ready) 0 = some (.value .bin (bf 31 1 [1])) := by decide

/-- 40_construct_move.md R102. -/
theorem test_ldlD_strips_zeros :
    regAfter (exec (.ldlD 0 93456000#32) ready) 0 = some (.value .dec (bf 3 5 [93456])) := by decide
theorem test_ldlD_not_a_limb : errAfter (exec (.ldlD 0 100000000#32) ready) = some .invalidOperand := by decide

/-- 95_test_vectors.md 2.3. -/
theorem test_nrmB_ripples :
    regAfter (exec (.nrmB 0 0#32 [0x80000000#32, 1#32, 0#32]) ready) 0 = some (.value .bin (bf 31 2 [3])) := by decide
theorem test_nrmB_place_too_low :
    errAfter (exec (.nrmB 0 (BitVec.ofInt 32 (-65540)) [8#32]) ready) = some .integerOverflow := by decide

/-- 42_normalize_shift.md R147, and 95_test_vectors.md 2.3. -/
theorem test_nrmD_divides_digits :
    regAfter (exec (.nrmD 1 (BitVec.ofInt 32 (-3)) [12300000#32, 45#32]) ready) 1
      = some (.value .dec (bf 2 5 [45123])) := by decide
theorem test_nrmD_three_limbs :
    regAfter (exec (.nrmD 0 0#32 [50000000#32, 12345678#32, 9#32]) ready) 0
      = some (.value .dec (bf 7 10 [23456785, 91])) := by decide

/-- 40_construct_move.md R105's example, the source side. -/
theorem test_mov_moves :
    regAfter (exec (.mov 2 1) (two .bin .zero (bf 0 3 [5]))) 2 = some (.value .bin (bf 0 3 [5]))
      ∧ regAfter (exec (.mov 2 1) (two .bin .zero (bf 0 3 [5]))) 1 = some .empty := by decide

/-- 40_construct_move.md R106's example, both registers. -/
theorem test_clone_copies :
    regAfter (exec (.clone 1 0) (one .dec (bf 3 5 [93456]))) 1 = some (.value .dec (bf 3 5 [93456]))
      ∧ regAfter (exec (.clone 1 0) (one .dec (bf 3 5 [93456]))) 0 = some (.value .dec (bf 3 5 [93456])) := by decide

/-- 40_construct_move.md R107. -/
theorem test_free_empties : regAfter (exec (.free 0) (one .bin (bf 0 3 [5]))) 0 = some .empty := by decide

/-- 43_compare.md R160's examples: Z is bit 0. -/
theorem test_isZero_zero : flagsAfter (exec (.isZero 0) (one .bin .zero)) = some 1#4 := by decide
theorem test_isZero_nonzero : flagsAfter (exec (.isZero 0) (one .dec (bf (-2) 2 [75]))) = some 0#4 := by decide

/-- 43_compare.md R166: zero is below 0.25, and 8 below 9; LT is bit 1. -/
theorem test_cmp_zero_below : flagsAfter (exec (.cmp 0 1) (two .bin .zero (bf (-2) 1 [1]))) = some 2#4 := by decide
theorem test_cmp_aligned : flagsAfter (exec (.cmp 0 1) (two .bin (bf 3 1 [1]) (bf 0 4 [9]))) = some 2#4 := by decide

/-- 42_normalize_shift.md R145's examples. -/
theorem test_shift_down :
    regAfter (exec (.shift 0 (BitVec.ofInt 32 (-150))) (one .bin (bf 0 1 [1]))) 0
      = some (.value .bin (bf (-150) 1 [1])) := by decide
theorem test_shift_result_too_high :
    errAfter (exec (.shift 0 600#32) (one .bin (bf 65000 2 [3]))) = some .integerOverflow := by decide

/-- 95_test_vectors.md 2.4. -/
theorem test_add_unaligned :
    regAfter (exec (.add 0 1) (two .bin (bf 40 1 [1]) (bf 0 1 [1]))) 0 = some (.value .bin (bf 0 41 [1, 256])) := by
  decide
theorem test_add_carries :
    regAfter (exec (.add 0 1) (two .dec (bf 0 16 [99999999, 99999999]) (bf 0 1 [1]))) 0
      = some (.value .dec (bf 16 1 [1])) := by decide

/-- 95_test_vectors.md 2.5. -/
theorem test_sub_borrows :
    regAfter (exec (.sub 0 1) (two .bin (bf 64 1 [1]) (bf 0 1 [1]))) 0
      = some (.value .bin (bf 0 64 [4294967295, 4294967295])) := by decide
theorem test_sub_order : errAfter (exec (.sub 0 1) (two .bin (bf 0 2 [3]) (bf 0 3 [5]))) = some .invalidOperand := by
  decide

/-- 44_multiply.md R175. -/
theorem test_mul_rows :
    regAfter (exec (.mul 0 1) (two .bin (bf 0 33 [1, 1]) (bf 0 33 [1, 1]))) 0
      = some (.value .bin (bf 0 65 [1, 2, 1])) := by decide
theorem test_mul_trims :
    regAfter (exec (.mul 0 1) (two .dec (bf (-1) 1 [5]) (bf 0 1 [2]))) 0 = some (.value .dec (bf 0 1 [1])) := by decide

/-- 45_round.md R191, rows 4 and 8: rounding bit 0 with bits below goes down; 0.75 of the smallest denormal goes up. -/
theorem test_round_down :
    regAfter (exec (.round 0) (rounding (bf 0 27 [0x04000001]))) 0 = some (.value .bin (bf 26 1 [1])) := by decide
theorem test_round_denormal :
    regAfter (exec (.round 0) (rounding (bf (-151) 2 [3]))) 0 = some (.value .bin (bf (-149) 1 [1])) := by decide

/-! ### The limb rules' worked examples -/

/-- 42_normalize_shift.md R149. -/
theorem test_normalizer :
    normalizeLimbs .bin [0, 0x100, 0] = { trim := 40, nd := 1, f := [1] }
      ∧ normalizeLimbs .dec [50000000, 12345678, 9] = { trim := 7, nd := 10, f := [23456785, 91] }
      ∧ normalizeLimbs .dec [0, 0, 0] = { trim := 0, nd := 0, f := [] } := by decide

/-- 41_add_sub.md R122 and R127. -/
theorem test_carry_chain :
    addLimbs .bin (bf 0 64 [4294967295, 4294967295]) (bf 0 1 [1]) = bf 64 1 [1]
      ∧ subLimbs .bin (bf 64 1 [1]) (bf 0 1 [1]) = bf 0 64 [4294967295, 4294967295]
      ∧ (complementSum .bin (bf 64 1 [1]) (bf 0 1 [1])).2 = 1 := by decide

/-- 44_multiply.md R171, 43_compare.md R162, 45_round.md R185. -/
theorem test_limb_rules :
    mulLimbs .bin (bf 0 32 [4294967295]) (bf 0 32 [4294967295]) = bf 0 64 [1, 4294967294]
      ∧ compareLimbs .bin (bf 0 33 [1, 1]) (bf 32 1 [1]) = .gt
      ∧ roundLimbs (bf 0 25 [0x01FFFFFF]) 1 1 = bf 25 1 [1] := by decide +kernel

/-! ### Witnesses: concrete states and operands that meet every statement's hypotheses, clause by clause -/

/-- The next state of a step, reset's where there is none. -/
def after (o : Host.Outcome State Fault Refusal) : State :=
  match o with
  | .next s => s
  | .fault _ => State.reset
  | .refused _ => State.reset

/-- A program at its first word, the host silent. -/
def running (prog : List Word) : State := State.reset.launched prog

/-- The powers of two of the grey band and the place bounds. -/
def top : BigFloat := bf 65536 1 [1]

/-- `2^-65536` (or `10^-65536`). -/
def bottom : BigFloat := bf (-65536) 1 [1]

/-- A single-precision-like FloatSpec whose subnormal floor is above the place bounds. -/
def highFloor : FloatSpec := { m := 0#16, eb := 8#8, e1 := BitVec.ofInt 32 (-65536), den := true, nan := false }

theorem witness_DecodeInvertsEncode :
    (Instr.nrmD 7 0x80000000#32 [1#32, 0xFFFFFFFF#32]).limbCountFits = true
      ∧ (∀ l : List Word, l.length = 65535 → (Instr.nrmB 0 0#32 l).limbCountFits = true) := by
  refine ⟨by decide, fun l h => ?_⟩
  simp [Instr.limbCountFits, Instr.limbList, maxLimbCount, h]

theorem witness_DecodedWordsAreTheEncoding :
    decode [0x12700001#32, 1#32, 2#32, 3#32] = .ok (.nrmB 7 1#32 [2#32])
      ∧ decode [0x01000000#32, 0xC0FFFFFF#32, 0xFFFFFFFF#32, 9#32]
          = .ok (.ldfs { m := 65535#16, eb := 255#8, e1 := 0xFFFFFFFF#32, den := true, nan := true }) := by decide

theorem witness_TableRowsSelectOneOpcode :
    (0x12F0FFFF#32 : Word) &&& Opcode.nrmB.matchMask = Opcode.nrmB.matchWord := by decide

theorem witness_WordsThatAreNoCommandRaiseIllegalCommand :
    (running [0x35000000#32]).run = .running ∧ (running [0x35000000#32]).host = []
      ∧ ({ running [0x35000000#32] with host := [none, some .reset] } : State).host = none :: [some .reset]
      ∧ (running [0x35000000#32]).pc.toNat < (running [0x35000000#32]).prog.length
      ∧ (running [0x35000000#32]).prog.drop (running [0x35000000#32]).pc.toNat = 0x35000000#32 :: []
      ∧ opcodeOf (opField 0x35000000#32) = none
      ∧ (opcodeOf (opField 0x00800000#32) = some .nop ∧ 0x00800000#32 &&& Opcode.nop.format.zeroMask ≠ 0#32)
      ∧ (opcodeOf (opField 0x12000001#32) = some .nrmB
        ∧ [0#32].length + 1 < Opcode.nrmB.format.words 0x12000001#32)
      ∧ (opcodeOf (opField 0x01000000#32) = some .ldfs ∧ (0x01000000#32 : Word).extractLsb' 24 6 ≠ 0#6)
      ∧ (opcodeOf (opField 0x16800000#32) = some .free ∧ Opcode.free.format ∈ [Format.a, Format.ab, Format.ai, Format.an]
        ∧ 8 ≤ (aField 0x16800000#32).toNat)
      ∧ (opcodeOf (opField 0x21080000#32) = some .cmp ∧ Opcode.cmp.format = .ab ∧ 8 ≤ (bField 0x21080000#32).toNat)
      ∧ (opcodeOf (opField 0x33770000#32) = some .mul
        ∧ Opcode.mul ∈ [Opcode.mov, Opcode.clone, Opcode.add, Opcode.sub, Opcode.mul]
        ∧ aField 0x33770000#32 = bField 0x33770000#32) := by decide

theorem witness_AliasedOperandsRaiseIllegalCommand :
    (one .dec (bf 3 5 [93456])).reg 0 = .value .dec (bf 3 5 [93456]) := by decide

theorem witness_StepRunsTheDecodedCommand :
    (running [0#32, 0x16700000#32]).run = .running
      ∧ (running [0#32, 0x16700000#32]).pc.toNat < (running [0#32, 0x16700000#32]).prog.length
      ∧ decode ((running [0#32, 0x16700000#32]).prog.drop (running [0#32, 0x16700000#32]).pc.toNat) = .ok .nop
      ∧ (running [0#32, 0x16700000#32]).host = []
      ∧ ({ running [0#32] with host := [none, some .reset] } : State).host = none :: [some .reset] := by decide

theorem witness_RunEndsAtTheProgramsEnd :
    (running []).run = .running ∧ (running []).host = [] ∧ (running []).pc.toNat = (running []).prog.length
      ∧ ({ running [] with host := [none, some .clrerr] } : State).host = none :: [some .clrerr]
      ∧ ({ running [0#32] with pc := 1#32 } : State).pc.toNat = (running [0#32]).prog.length := by decide

theorem witness_UnitWaitsUnlessRunning :
    (State.reset.run ≠ .running ∧ State.reset.host = [])
      ∧ (State.raise (running [1#32]) .illegalCommand).run ≠ .running
      ∧ (State.raise (running [1#32]) .illegalCommand).host = [] := by decide

theorem witness_StartLaunchesFromIdleOrDoneOnly :
    ([0#32] : List Word).length < 2 ^ 32 ∧ State.reset.run = .idle ∧ (running []).endRun.run = .done
      ∧ (running []).run = .running ∧ (State.raise (running [1#32]) .illegalCommand).run = .faulted
      ∧ State.reset.host = [] ∧ ([] : List Word).length < 2 ^ 32 := by decide

theorem witness_ClearErrorLeavesOnlyFaulted :
    (State.raise (running [1#32]) .illegalCommand).run = .faulted ∧ State.reset.run ≠ .faulted
      ∧ ([0#32] : List Word).length < 2 ^ 32 := by decide

theorem witness_ResetActionRestoresTheResetState :
    hostAct .reset (running [1#32]) = .next State.reset ∧ State.reset.host = [] :=
  ⟨rfl, rfl⟩

theorem witness_ScheduledActionsLandBetweenCommands :
    ({ running [1#32] with host := [some .reset, none] } : State).host = some .reset :: [none]
      ∧ ({ State.reset with host := [none] } : State).host = none :: [] ∧ State.reset.run ≠ .running := by decide

theorem witness_FaultEntryLatchesCodeAndCounter : (running [1#32]).host = [] := by decide

theorem witness_UnspecifiedDestinationIsAnyLegalValue :
    legalValue .bin top = true ∧ legalValue .dec bottom = true ∧ legalValue .dec .zero = true := by decide

/-- A program that loads 12 meets the invariant when launched. -/
theorem running_inv : State.Inv (running [0x10000000#32, 12#32]) where
  memory := by decide
  programFits := by decide
  runningPc := by decide
  donePc := by decide
  faultedPc := by decide
  errWhenFaulted := by decide
  errOfUnit := by decide
  flagsExclusive := by decide
  noFloatSpec := by decide

/-- So does a faulted state. -/
theorem faulted_inv : State.Inv (State.raise (running [1#32]) .illegalCommand) where
  memory := by decide
  programFits := by decide
  runningPc := by decide
  donePc := by decide
  faultedPc := by decide
  errWhenFaulted := by decide
  errOfUnit := by decide
  flagsExclusive := by decide
  noFloatSpec := by decide

theorem witness_StepKeepsTheInvariant :
    State.Inv (running [0x10000000#32, 12#32])
      ∧ step (running [0x10000000#32, 12#32]) = .next (after (step (running [0x10000000#32, 12#32])))
      ∧ State.Inv (State.raise (running [1#32]) .illegalCommand)
      ∧ step (State.raise (running [1#32]) .illegalCommand) = .next (State.raise (running [1#32]) .illegalCommand) :=
  ⟨running_inv, rfl, faulted_inv, rfl⟩

/-- The register clause of StepKeepsTheInvariant: the step after which V0 holds a value. -/
theorem witness_StepKeepsTheBounds :
    step { running [0x10000000#32, 12#32] with oracle := ready.oracle }
        = .next (after (step { running [0x10000000#32, 12#32] with oracle := ready.oracle }))
      ∧ (after (step { running [0x10000000#32, 12#32] with oracle := ready.oracle })).reg 0
          = .value .bin (bf 2 2 [3]) := ⟨rfl, by decide⟩

/-- The invariant holds whatever the schedule; a START with 2^32 words is refused. -/
theorem witness_InvariantStatesNeverStop (p : List Word) (h : p.length = 2 ^ 32) :
    State.Inv { running [0x10000000#32, 12#32] with host := [some (.start p)] }
      ∧ step { running [0x10000000#32, 12#32] with host := [some (.start p)] } = .refused .programTooLong := by
  refine ⟨{ running_inv with }, ?_⟩
  simp [step, stepScheduled, hostAct, h]

theorem witness_EveryRunEnds :
    State.Inv (running [0x10000000#32, 12#32]) ∧ (running [0x10000000#32, 12#32]).run = .running
      ∧ (running [0x10000000#32, 12#32]).host = [] := ⟨running_inv, rfl, rfl⟩

theorem witness_CommandsMovePcForward : ready.run = .running := by decide

theorem witness_CommandsWriteOnlyTheirDestination :
    exec (.add 0 1) (two .bin top bottom) = .next (after (exec (.add 0 1) (two .bin top bottom)))
      ∧ (1 : VIx) ∉ (Instr.add 0 1).writes ∧ (Instr.add 0 1).writesFlags = false
      ∧ (Instr.add 0 1).writesFloatSpec = false := ⟨rfl, by decide, rfl, rfl⟩

theorem witness_FaultingCommandsSpoilOnlyVd :
    (ready.run = .running ∧ exec (.add 7 7) ready = .next (ready.raise .illegalCommand)
        ∧ (ready.raise .illegalCommand).run = .faulted)
      ∧ exec (.round 7) ready = .next (ready.raise .invalidOperand)
      ∧ (failing.run = .running ∧ exec (.ldlB 7 1#32) failing = .next (after (exec (.ldlB 7 1#32) failing))
        ∧ (after (exec (.ldlB 7 1#32) failing)).run = .faulted
        ∧ (after (exec (.ldlB 7 1#32) failing)).err = .outOfMemory)
      ∧ (exec (.shift 0 1#32) (one .dec top) = .next (after (exec (.shift 0 1#32) (one .dec top)))
        ∧ (after (exec (.shift 0 1#32) (one .dec top))).err = .integerOverflow) :=
  ⟨⟨rfl, rfl, rfl⟩, rfl, ⟨rfl, rfl, rfl, rfl⟩, rfl, rfl⟩

theorem witness_TagsFollowTheCommand :
    ready.run = .running
      ∧ exec (.ldlB 7 0xFFFFFFFF#32) ready = .next (after (exec (.ldlB 7 0xFFFFFFFF#32) ready))
      ∧ exec (.nrmB 7 0#32 []) ready = .next (after (exec (.nrmB 7 0#32 []) ready))
      ∧ (exec (.ldlD 7 99999999#32) ready = .next (after (exec (.ldlD 7 99999999#32) ready))
        ∧ (after (exec (.ldlD 7 99999999#32) ready)).err ≠ .invalidOperand ∧ ready.err = .none)
      ∧ (exec (.nrmD 7 0#32 [99999999#32]) ready = .next (after (exec (.nrmD 7 0#32 [99999999#32]) ready))
        ∧ (after (exec (.nrmD 7 0#32 [99999999#32]) ready)).err ≠ .invalidOperand)
      ∧ ((7 : VIx) ≠ 0 ∧ exec (.mov 7 0) (one .dec bottom) = .next (after (exec (.mov 7 0) (one .dec bottom)))
        ∧ (after (exec (.mov 7 0) (one .dec bottom))).run = .running)
      ∧ ((one .dec bottom).reg 0 ≠ .empty
        ∧ exec (.clone 7 0) (one .dec bottom) = .next (after (exec (.clone 7 0) (one .dec bottom))))
      ∧ exec (.free 7) ready = .next (after (exec (.free 7) ready))
      ∧ (Instr.shift 0 1#32 ∈ [Instr.nop, Instr.ldfs single, Instr.isZero 0, Instr.cmp 0 1, Instr.shift 0 1#32,
          Instr.add 0 1, Instr.sub 0 1, Instr.mul 0 1, Instr.round 0]
        ∧ exec (.shift 0 1#32) (one .dec top) = .next (after (exec (.shift 0 1#32) (one .dec top)))) :=
  ⟨rfl, rfl, rfl, ⟨rfl, by decide, rfl⟩, ⟨rfl, by decide⟩, ⟨by decide, rfl, by decide⟩, ⟨by decide, rfl⟩, rfl,
    by decide, rfl⟩

theorem witness_OnlyFailedAllocationsRunOutOfMemory :
    (ready.run = .running ∧ ready.err = .none ∧ Instr.nop.allocates = false
        ∧ exec .nop ready = .next (after (exec .nop ready)))
      ∧ ((Instr.round 0).allocates = true ∧ (rounding top).oracle.allocFails = false
        ∧ exec (.round 0) (rounding top) = .next (after (exec (.round 0) (rounding top))))
      ∧ (failing.run = .running ∧ failing.err = .none
        ∧ exec (.ldlB 7 1#32) failing = .next (after (exec (.ldlB 7 1#32) failing))
        ∧ (after (exec (.ldlB 7 1#32) failing)).err = .outOfMemory) :=
  ⟨⟨rfl, rfl, rfl, rfl⟩, ⟨rfl, by decide, rfl⟩, rfl, rfl, rfl, rfl⟩

theorem witness_CommandsRaiseOnlyTheUnitsCodes :
    ready.err.ofUnit = true ∧ exec (.mul 7 7) ready = .next (after (exec (.mul 7 7) ready)) := ⟨rfl, rfl⟩

/-- The converse clause of InvalidOperandCausesAreRaised. -/
theorem witness_InvalidOperandHasACause :
    ready.err = .none ∧ exec (.free 7) ready = .next (after (exec (.free 7) ready))
      ∧ exec (.round 7) ready = .next (after (exec (.round 7) ready))
      ∧ (after (exec (.round 7) ready)).err = .invalidOperand := ⟨rfl, rfl, rfl, rfl⟩

theorem witness_InvalidOperandCausesAreRaised :
    ((0 : VIx) ≠ 7 ∧ ready.reg 7 = .empty)
      ∧ ((two .bin top bottom).setReg 1 (.value .dec top)).reg 0 = .value .bin top
      ∧ ((two .bin top bottom).setReg 1 (.value .dec top)).reg 1 = .value .dec top
      ∧ (one .dec top).reg 0 = .value .dec top
      ∧ ({ ready with fsv := false } : State).fsv = false
      ∧ 100000000 ≤ (100000000#32 : Word).toNat
      ∧ (0xFFFFFFFF#32 ∈ [0#32, 0xFFFFFFFF#32] ∧ 100000000 ≤ (0xFFFFFFFF#32 : Word).toNat)
      ∧ ((two .dec .zero (bf 0 1 [1])).reg 0 = .value .dec .zero
        ∧ (two .dec .zero (bf 0 1 [1])).reg 1 = .value .dec (bf 0 1 [1])
        ∧ valueOf .dec .zero < valueOf .dec (bf 0 1 [1])) := by
  refine ⟨by decide, by decide, by decide, by decide, rfl, by decide, by decide, by decide, by decide, ?_⟩
  simp [valueOf, significand, limbNats, limbSum, BigFloat.zero, bf, limbWords]

theorem witness_NopOnlyAdvancesPc :
    (running [1#32]).run = .running ∧ (running [1#32]).host = []
      ∧ (running [1#32]).pc.toNat < (running [1#32]).prog.length
      ∧ (running [1#32]).prog.drop (running [1#32]).pc.toNat = 1#32 :: []
      ∧ (opField 1#32 = 0#8 ∧ 1#32 ≠ 0#32) ∧ opField 0x00800000#32 = 0#8 ∧ 0x00800000#32 ≠ 0#32 := by decide

theorem witness_LdfsLoadsTheFloatSpec :
    (running [0x01000000#32, 0xC0080017#32, 0x7F#32]).run = .running
      ∧ (running [0x01000000#32, 0xC0080017#32, 0x7F#32]).host = []
      ∧ (running [0x01000000#32, 0xC0080017#32, 0x7F#32]).pc.toNat
          < (running [0x01000000#32, 0xC0080017#32, 0x7F#32]).prog.length
      ∧ (running [0x01000000#32, 0xC0080017#32, 0x7F#32]).prog.drop
          (running [0x01000000#32, 0xC0080017#32, 0x7F#32]).pc.toNat
          = 0x01000000#32 :: 0xC0080017#32 :: 0x7F#32 :: []
      ∧ (0xC0080017#32 : Word).extractLsb' 24 6 = 0#6 ∧ (0x01080017#32 : Word).extractLsb' 24 6 ≠ 0#6
      ∧ (0x20080017#32 : Word).extractLsb' 24 6 ≠ 0#6 := by decide

theorem witness_LdlBConstructsTheBinaryValue :
    ready.oracle.allocFails = false ∧ failing.oracle.allocFails = true := by decide

theorem witness_LdlDConstructsTheDecimalValue :
    ((99999999#32 : Word).toNat < 100000000 ∧ ready.oracle.allocFails = false)
      ∧ failing.oracle.allocFails = true ∧ 100000000 ≤ (100000000#32 : Word).toNat := by decide

theorem witness_NrmBNormalizesTheLimbs :
    ((bf 65536 1 [1] = canon .bin (limbSum .bin (limbNats [1#32])) (65536#32 : Word).toInt
        ∧ failing.oracle.allocFails = true ∧ ready.oracle.allocFails = false ∧ (bf 65536 1 [1]).nd ≤ 65536
        ∧ -65536 ≤ (bf 65536 1 [1]).lp ∧ (bf 65536 1 [1]).lp ≤ 65536)
      ∧ (bf 65537 1 [1] = canon .bin (limbSum .bin (limbNats [1#32])) (65537#32 : Word).toInt
        ∧ 65536 < (bf 65537 1 [1]).lp)) := by decide

theorem witness_NrmDNormalizesTheLimbs :
    ((bf (-65536) 1 [1] = canon .dec (limbSum .dec (limbNats [1#32])) (BitVec.ofInt 32 (-65536)).toInt
        ∧ (∀ x ∈ [1#32], x.toNat < 100000000) ∧ failing.oracle.allocFails = true
        ∧ ready.oracle.allocFails = false ∧ (bf (-65536) 1 [1]).nd ≤ 65536
        ∧ -65536 ≤ (bf (-65536) 1 [1]).lp ∧ (bf (-65536) 1 [1]).lp ≤ 65536)
      ∧ (bf (-65537) 1 [1] = canon .dec (limbSum .dec (limbNats [1#32])) (BitVec.ofInt 32 (-65537)).toInt
        ∧ (bf (-65537) 1 [1]).lp < -65536)
      ∧ (∃ x ∈ [1#32, 100000000#32], 100000000 ≤ x.toNat)) := by
  refine ⟨⟨by decide, by simp, by decide, by decide, by decide⟩, ⟨by decide, by decide⟩, 100000000#32, by simp, by decide⟩

theorem witness_MovTransfersTheValue :
    (7 : VIx) ≠ 0 ∧ (one .dec top).reg 0 ≠ .empty ∧ (7 : VIx) ≠ 1 ∧ (one .dec top).reg 1 = .empty := by decide

theorem witness_CloneCopiesTheValue :
    (7 : VIx) ≠ 0 ∧ (one .dec top).reg 0 = .value .dec top ∧ (one .dec top).oracle.allocFails = false
      ∧ (one .dec top failing).reg 0 = .value .dec top ∧ (one .dec top failing).oracle.allocFails = true
      ∧ (one .dec top).reg 1 = .empty := by decide

theorem witness_IsZeroTestsForZero :
    (one .bin .zero).reg 0 = .value .bin .zero ∧ normalized .bin .zero = true
      ∧ (one .dec top).reg 0 = .value .dec top ∧ normalized .dec top = true ∧ ready.reg 7 = .empty := by decide

theorem witness_CmpOrdersTheValues :
    ((two .bin top bottom).reg 0 = .value .bin top ∧ (two .bin top bottom).reg 1 = .value .bin bottom)
      ∧ ready.reg 7 = .empty
      ∧ (((two .bin top bottom).setReg 1 (.value .dec top)).reg 0).tag
          ≠ (((two .bin top bottom).setReg 1 (.value .dec top)).reg 1).tag := by decide

theorem witness_ShiftMultipliesByAPowerOfTheBase :
    ready.reg 7 = .empty
      ∧ ((one .bin (bf 0 1 [1])).reg 0 = .value .bin (bf 0 1 [1])
        ∧ -65536 ≤ (65536#32 : Word).toInt ∧ (65536#32 : Word).toInt ≤ 65536
        ∧ (0 : Int) + (65536#32 : Word).toInt ≤ 65536)
      ∧ (-65536 ≤ (BitVec.ofInt 32 (-65536)).toInt ∧ (0 : Int) + (BitVec.ofInt 32 (-65536)).toInt ≥ -65536)
      ∧ (BitVec.ofInt 32 (-65537)).toInt < -65536 ∧ 65536 < (65537#32 : Word).toInt
      ∧ ((one .bin top).reg 0 = .value .bin top ∧ 65536 < top.lp + (1#32 : Word).toInt)
      ∧ (bottom.lp + (0xFFFFFFFF#32 : Word).toInt < -65536)
      ∧ ((one .dec .zero).reg 0 = .value .dec .zero ∧ BigFloat.zero.nd = 0)
      ∧ (one .dec .zero).oracle.eitherFaults = false
      ∧ ({ one .dec .zero with oracle := { alloc := [], either := [true], unspec := [], taken := 0 } } :
          State).oracle.eitherFaults = true := by decide

/-- The significand of one limb counted from a lower place. -/
theorem significandAt_one (lp L : Int) (k : Nat) (h : lp - L = k) :
    significandAt .bin (bf lp 1 [1]) L = 2 ^ k := by
  simp [significandAt, significand, bf, limbWords, limbNats, limbSum, radixPow, base, h]

/-- An odd number's canonical fields. -/
theorem canon_odd (n : Nat) (e : Int) (k : Nat) (h1 : n % 2 = 1) (hl : 2 ^ k ≤ n) (hu : n < 2 ^ (k + 1)) :
    (canon .bin n e).lp = e ∧ (canon .bin n e).nd = k + 1 := by
  have hn : n ≠ 0 := by omega
  have ht : tz .bin n = 0 := by simp [tz, trailingZeros, base, h1]
  have hlog : Nat.log2 n = k := (Nat.log2_eq_iff hn).2 ⟨hl, hu⟩
  simp [canon, hn, ht, radixPow, digitCount, msb, hlog]

/-- The sum of two powers of two. -/
theorem sum_of_powers (lp : Int) (k : Nat) (hk : 0 < k) :
    (sumValue .bin (bf (lp + k) 1 [1]) (bf lp 1 [1])).lp = lp
      ∧ (sumValue .bin (bf (lp + k) 1 [1]) (bf lp 1 [1])).nd = k + 1 := by
  have ha : anchor (bf (lp + k) 1 [1]) (bf lp 1 [1]) = lp := by simp [anchor, bf]
  rw [sumValue, ha, significandAt_one _ _ k (by omega), significandAt_one _ _ 0 (by omega)]
  have hp : 2 ∣ 2 ^ k := dvd_pow_self 2 (by omega)
  have h2 : 2 ^ (k + 1) = 2 * 2 ^ k := by ring
  exact canon_odd _ _ _ (by simp; omega) (by simp) (by have := Nat.one_lt_two_pow (n := k) (by omega); omega)

/-- The difference of two powers of two. -/
theorem diff_of_powers (lp : Int) (k : Nat) :
    (diffValue .bin (bf (lp + (k + 1 : Nat)) 1 [1]) (bf lp 1 [1])).lp = lp
      ∧ (diffValue .bin (bf (lp + (k + 1 : Nat)) 1 [1]) (bf lp 1 [1])).nd = k + 1 := by
  have ha : anchor (bf (lp + (k + 1 : Nat)) 1 [1]) (bf lp 1 [1]) = lp := by simp [anchor, bf]; omega
  rw [diffValue, ha, significandAt_one _ _ (k + 1) (by omega), significandAt_one _ _ 0 (by omega)]
  have h2 : 2 ^ (k + 1) = 2 * 2 ^ k := by ring
  have := Nat.one_le_two_pow (n := k)
  exact canon_odd _ _ _ (by simp) (by simp; omega) (by simp)

/-- The operand-check clauses of AddIsExact, SubIsExact, MulIsExact and RoundWritesTheRoundedValue. -/
theorem witness_OperandChecks :
    (ready.badPair 0 7 ∧ ((two .bin top bottom).setReg 1 (.value .dec top)).badPair 0 1)
      ∧ ready.reg 7 = .empty ∧ ((one .dec top).reg 0).tag = some .dec :=
  ⟨⟨.inl rfl, .inr (.inr (by decide))⟩, rfl, rfl⟩

theorem witness_AddIsExact :
    ((0 : VIx) ≠ 1 ∧ (two .bin top bottom).reg 0 = .value .bin top ∧ (two .bin top bottom).reg 1 = .value .bin bottom)
      ∧ (two .bin top bottom failing).oracle.allocFails = true
      ∧ ((two .bin top bottom).oracle.allocFails = false ∧ bottom.nd ≠ 0 ∧ top.nd ≠ 0
        ∧ inBounds (sumValue .bin top bottom).lp (sumValue .bin top bottom).nd = false)
      ∧ BigFloat.zero.nd = 0
      ∧ (inBounds (sumValue .bin (bf 3 1 [1]) (bf 0 4 [9])).lp (sumValue .bin (bf 3 1 [1]) (bf 0 4 [9])).nd = true
        ∧ inBounds (min (bf 3 1 [1]).lp (bf 0 4 [9]).lp) 64 = true
        ∧ 64 = digitsPerLimb .bin * (ceilDiv (max (extent (bf 3 1 [1])) (extent (bf 0 4 [9]))
            - min (bf 3 1 [1]).lp (bf 0 4 [9]).lp).toNat (digitsPerLimb .bin) + 1))
      ∧ (inBounds (sumValue .bin (bf 65530 1 [1]) (bf 0 1 [1])).lp (sumValue .bin (bf 65530 1 [1]) (bf 0 1 [1])).nd = true
        ∧ inBounds (min (bf 65530 1 [1]).lp (bf 0 1 [1]).lp) 65568 = false
        ∧ 65568 = digitsPerLimb .bin * (ceilDiv (max (extent (bf 65530 1 [1])) (extent (bf 0 1 [1]))
            - min (bf 65530 1 [1]).lp (bf 0 1 [1]).lp).toNat (digitsPerLimb .bin) + 1)) := by
  have h1 := sum_of_powers (-65536) 131072 (by omega)
  have h2 := sum_of_powers 0 65530 (by omega)
  have e1 : (-65536 : Int) + (131072 : Nat) = 65536 := by decide
  have e2 : (0 : Int) + (65530 : Nat) = 65530 := by decide
  rw [e1] at h1
  rw [e2] at h2
  refine ⟨by decide, by decide, ⟨by decide, by decide, by decide, ?_⟩, by decide, by decide +kernel, ?_, by decide,
    by decide⟩
  · rw [top, bottom, h1.1, h1.2]; decide
  · rw [h2.1, h2.2]; decide

/-- The value of one limb at a place. -/
theorem valueOf_one_limb (t : Radix) (lp : Int) (nd : Nat) (x : Word) :
    valueOf t { lp := lp, nd := nd, f := [x] } = (x.toNat : ℚ) * (base t : ℚ) ^ lp := by
  simp [valueOf, significand, limbNats, limbSum]

theorem witness_SubIsExact :
    ((0 : VIx) ≠ 1 ∧ (two .bin top bottom).reg 0 = .value .bin top ∧ (two .bin top bottom).reg 1 = .value .bin bottom)
      ∧ valueOf .bin .zero < valueOf .bin (bf 0 1 [1])
      ∧ (valueOf .bin .zero ≤ valueOf .bin (bf 0 1 [1]) ∧ BigFloat.zero.nd = 0)
      ∧ (valueOf .bin top = valueOf .bin top ∧ top.nd ≠ 0)
      ∧ (valueOf .bin (bf 0 1 [1]) < valueOf .bin (bf 1 1 [1])
        ∧ inBounds (diffValue .bin (bf 1 1 [1]) (bf 0 1 [1])).lp (diffValue .bin (bf 1 1 [1]) (bf 0 1 [1])).nd = true
        ∧ inBounds (min (bf 1 1 [1]).lp (bf 0 1 [1]).lp) 32 = true
        ∧ 32 = digitsPerLimb .bin
          * ceilDiv (extent (bf 1 1 [1]) - min (bf 1 1 [1]).lp (bf 0 1 [1]).lp).toNat (digitsPerLimb .bin))
      ∧ (valueOf .bin bottom < valueOf .bin top
        ∧ inBounds (diffValue .bin top bottom).lp (diffValue .bin top bottom).nd = false)
      ∧ (valueOf .bin (bf 0 1 [1]) < valueOf .bin top
        ∧ inBounds (diffValue .bin top (bf 0 1 [1])).lp (diffValue .bin top (bf 0 1 [1])).nd = true
        ∧ inBounds (min top.lp (bf 0 1 [1]).lp) 65568 = false
        ∧ 65568 = digitsPerLimb .bin
          * ceilDiv (extent top - min top.lp (bf 0 1 [1]).lp).toNat (digitsPerLimb .bin)) := by
  have h0 : valueOf .bin .zero = 0 := by simp [valueOf, significand, limbNats, limbSum, BigFloat.zero]
  have h1 : valueOf .bin (bf 0 1 [1]) = 1 := by simp [bf, limbWords, valueOf_one_limb]
  have h2 : valueOf .bin (bf 1 1 [1]) = 2 := by simp [bf, limbWords, valueOf_one_limb, base]
  have ht : valueOf .bin top = (2 : ℚ) ^ (65536 : ℤ) := by simp [top, bf, limbWords, valueOf_one_limb, base]
  have hb : valueOf .bin bottom = (2 : ℚ) ^ (-65536 : ℤ) := by simp [bottom, bf, limbWords, valueOf_one_limb, base]
  have hlt : (1 : ℚ) < (2 : ℚ) ^ (65536 : ℤ) := one_lt_zpow₀ (by norm_num) (by norm_num)
  have hbt : (2 : ℚ) ^ (-65536 : ℤ) < (2 : ℚ) ^ (65536 : ℤ) := zpow_lt_zpow_right₀ (by norm_num) (by norm_num)
  have d1 := diff_of_powers (-65536) 131071
  have d2 := diff_of_powers 0 65535
  have e1 : (-65536 : Int) + (131071 + 1 : Nat) = 65536 := by decide
  have e2 : (0 : Int) + (65535 + 1 : Nat) = 65536 := by decide
  rw [e1] at d1
  rw [e2] at d2
  refine ⟨by decide, ?_, ⟨?_, rfl⟩, ⟨rfl, by decide⟩, ⟨?_, ?_⟩, ⟨?_, ?_⟩, ⟨?_, ?_, by decide, by decide⟩⟩
  · rw [h0, h1]; norm_num
  · rw [h0, h1]; norm_num
  · rw [h1, h2]; norm_num
  · decide +kernel
  · rw [ht, hb]; exact hbt
  · rw [top, bottom, d1.1, d1.2]; decide
  · rw [h1, ht]; exact hlt
  · rw [top, d2.1, d2.2]; decide

theorem witness_MulIsExact :
    ((0 : VIx) ≠ 1 ∧ (two .bin bottom (bf (-1) 1 [1])).reg 0 = .value .bin bottom
        ∧ (two .bin bottom (bf (-1) 1 [1])).reg 1 = .value .bin (bf (-1) 1 [1])
        ∧ (two .bin bottom (bf (-1) 1 [1]) failing).oracle.allocFails = true
        ∧ (two .bin bottom (bf (-1) 1 [1])).oracle.allocFails = false)
      ∧ (BigFloat.zero.nd = 0 ∨ top.nd = 0)
      ∧ (bottom.nd ≠ 0 ∧ (bf (-1) 1 [1]).nd ≠ 0
        ∧ inBounds (productValue .bin bottom (bf (-1) 1 [1])).lp (productValue .bin bottom (bf (-1) 1 [1])).nd = false)
      ∧ (inBounds (productValue .bin bottom top).lp (productValue .bin bottom top).nd = true
        ∧ inBounds (bottom.lp + top.lp) (max (bottom.nd + top.nd + 1)
          (digitsPerLimb .bin * (bottom.f.length + top.f.length))) = true)
      ∧ (inBounds (productValue .dec (bf (-65536) 1 [5]) (bf (-1) 1 [2])).lp
          (productValue .dec (bf (-65536) 1 [5]) (bf (-1) 1 [2])).nd = true
        ∧ inBounds ((bf (-65536) 1 [5]).lp + (bf (-1) 1 [2]).lp) (max ((bf (-65536) 1 [5]).nd + (bf (-1) 1 [2]).nd + 1)
          (digitsPerLimb .dec * ((bf (-65536) 1 [5]).f.length + (bf (-1) 1 [2]).f.length))) = false) := by
  decide +kernel

theorem witness_ProductPlaceAndDigits :
    normalized .dec (bf (-1) 1 [5]) = true ∧ normalized .dec (bf 0 1 [2]) = true ∧ (bf (-1) 1 [5]).nd ≠ 0
      ∧ (bf 0 1 [2]).nd ≠ 0 := by decide

theorem witness_RoundWritesTheRoundedValue :
    ((rounding top).reg 0 = .value .bin top ∧ (rounding top).fsv = true ∧ (rounding top).oracle.allocFails = false
        ∧ ({ rounding top with fsv := false } : State).fsv = false
        ∧ ({ rounding top with oracle := failing.oracle } : State).oracle.allocFails = true)
      ∧ BigFloat.zero.nd = 0
      ∧ ((-151 : Int) = (bf (-151) 1 [1]).lp + (bf (-151) 1 [1]).nd - 1
        ∧ (-149 : Int) = 1 - single.e1.toInt - single.m.toNat
        ∧ single.den = true ∧ (-151 : Int) + single.e1.toInt ≤ 0 ∧ (-151 : Int) < -149 - 1)
      ∧ ((65536 : Int) = top.lp + top.nd - 1 ∧ ¬ (65536 : Int) + single.e1.toInt ≤ 0
        ∧ (65513 : Int) = 65536 - single.m.toNat ∧ (65513 : Int) - 1 < top.lp)
      ∧ ((26 : Int) = (bf 0 27 [0x04000001]).lp + (bf 0 27 [0x04000001]).nd - 1 ∧ ¬ (26 : Int) + single.e1.toInt ≤ 0
        ∧ (3 : Int) = 26 - single.m.toNat ∧ (bf 0 27 [0x04000001]).lp ≤ 3 - 1
        ∧ 64 = 32 * (max ((bf 0 27 [0x04000001]).f.length - ((3 : Int) - (bf 0 27 [0x04000001]).lp).toNat / 32) 1 + 1)
        ∧ inBounds (roundTo single (bf 0 27 [0x04000001])).lp (roundTo single (bf 0 27 [0x04000001])).nd = true
        ∧ inBounds 3 64 = true)
      ∧ ((65560 : Int) = (bf 65536 25 [0x01000001]).lp + (bf 65536 25 [0x01000001]).nd - 1
        ∧ (65537 : Int) = 65560 - single.m.toNat ∧ (bf 65536 25 [0x01000001]).lp ≤ 65537 - 1
        ∧ inBounds (roundTo single (bf 65536 25 [0x01000001])).lp (roundTo single (bf 65536 25 [0x01000001])).nd
            = false)
      ∧ (highFloor.den = true ∧ (65536 : Int) + highFloor.e1.toInt ≤ 0 ∧ ¬ (65536 : Int) < 65537 - 1
        ∧ (65537 : Int) = 1 - highFloor.e1.toInt - highFloor.m.toNat ∧ top.lp ≤ 65537 - 1
        ∧ 64 = 32 * (max (top.f.length - ((65537 : Int) - top.lp).toNat / 32) 1 + 1)
        ∧ inBounds (roundTo highFloor top).lp (roundTo highFloor top).nd = true ∧ inBounds 65537 64 = false) := by
  decide +kernel

theorem witness_NormalizerTrimsToTheCanonicalForm :
    (∀ x ∈ [0, 99999999], x < limbMod .dec) ∧ limbSum .dec [0, 0] = 0 ∧ limbSum .dec [0, 99999999] ≠ 0 := by decide

theorem witness_AlignmentPreservesTheValue :
    (∀ x ∈ [4294967295], x < limbMod .bin) ∧ limbSum .bin [4294967295] * base .bin ^ 32 < limbMod .bin ^ 2 := by
  decide +kernel

theorem witness_CarryChainAddsExactly :
    normalized .bin top = true ∧ normalized .bin bottom = true ∧ top.nd ≠ 0 ∧ bottom.nd ≠ 0 := by decide

theorem witness_ComplementSubtractionIsExact :
    normalized .bin top = true ∧ top.nd ≠ 0 ∧ valueOf .bin top ≤ valueOf .bin top :=
  ⟨by decide, by decide, le_refl _⟩

theorem witness_SchoolbookMultiplicationIsExact :
    normalized .dec (bf 0 16 [99999999, 99999999]) = true ∧ (bf 0 16 [99999999, 99999999]).nd ≠ 0 := by decide

theorem witness_LimbComparisonOrdersTheValues :
    normalized .dec .zero = true ∧ normalized .dec bottom = true := by decide

theorem witness_EqualityIsFieldEquality :
    (normalized .bin top = true ∧ normalized .bin bottom = true)
      ∧ (two .bin top bottom).reg 0 = .value .bin top ∧ (two .bin top bottom).reg 1 = .value .bin bottom
      ∧ exec (.cmp 0 1) (two .bin top bottom) = .next (after (exec (.cmp 0 1) (two .bin top bottom))) :=
  ⟨by decide, by decide, by decide, rfl⟩

theorem witness_CmpSetsExactlyOneRelation :
    (two .bin .zero .zero).run = .running
      ∧ exec (.cmp 0 1) (two .bin .zero .zero) = .next (after (exec (.cmp 0 1) (two .bin .zero .zero)))
      ∧ (after (exec (.cmp 0 1) (two .bin .zero .zero))).run = .running := ⟨rfl, rfl, by decide⟩

theorem witness_ArithmeticIdentitiesHold :
    normalized .dec (bf 0 16 [99999999, 99999999]) = true ∧ (bf 0 16 [99999999, 99999999]).nd ≠ 0
      ∧ normalized .dec (bf 0 1 [1]) = true ∧ (bf 0 1 [1]).nd ≠ 0 := by decide

theorem witness_RoundUpChainGivesTheRoundedValue :
    normalized .bin (bf 0 25 [0x01FFFFFF]) = true ∧ (bf 0 25 [0x01FFFFFF]).nd ≠ 0
      ∧ flushes single (bf 0 25 [0x01FFFFFF]) = false
      ∧ (bf 0 25 [0x01FFFFFF]).lp ≤ lastBit single (bf 0 25 [0x01FFFFFF]) - 1 := by decide

theorem witness_RoundingIsToNearestEven :
    (normalized .bin (bf 0 25 [0x01FFFFFF]) = true ∧ (bf 0 25 [0x01FFFFFF]).nd ≠ 0)
      ∧ single.den = true
      ∧ (isSubnormal single (bf (-151) 2 [3]) = true ∧ flushes single (bf (-151) 2 [3]) = false
        ∧ (roundTo single (bf (-151) 2 [3])).nd ≠ 0)
      ∧ (normalized .bin (bf (-150) 1 [1]) = true ∧ (roundTo single (bf (-150) 1 [1])).nd = 0) := by decide

theorem witness_RoundingIsIdempotent :
    normalized .bin (bf 0 24 [0x00FFFFFF]) = true ∧ isSubnormal single (bf 0 24 [0x00FFFFFF]) = false
      ∧ (bf 0 24 [0x00FFFFFF]).nd ≤ single.m.toNat + 1 := by decide

end Sys2Proof.Tests
end

section
/-! PROOFS. Limb lists as the base-`Mod` expansions of numbers, `Canon_t` as the one normalized form of a value (00_scope.md R13)
and alignment as the expansion of the raised number (00_scope.md R14). -/

namespace Sys2Proof.Machine

open Sys2Proof

/-! ### Limb lists as expansions -/

/-- The low limb of a list is its number modulo `Mod`. -/
theorem limbSum_cons_mod (t : Radix) (x : Nat) (xs : List Nat) (hx : x < limbMod t) :
    limbSum t (x :: xs) % limbMod t = x := by
  rw [limbSum, Nat.add_mul_mod_self_left, Nat.mod_eq_of_lt hx]

/-- The limbs above the low one are its number divided by `Mod`. -/
theorem limbSum_cons_div (t : Radix) (x : Nat) (xs : List Nat) (hx : x < limbMod t) :
    limbSum t (x :: xs) / limbMod t = limbSum t xs := by
  rw [limbSum, Nat.add_mul_div_left _ _ (limbMod_pos t), Nat.div_eq_of_lt hx, Nat.zero_add]

/-- A list of limbs is fixed by its length and its number. -/
theorem limbsOf_limbSum (t : Radix) (s : List Nat) (h : ∀ x ∈ s, x < limbMod t) :
    limbsOf t s.length (limbSum t s) = s := by
  induction s with
  | nil => rfl
  | cons x xs ih =>
    have hx : x < limbMod t := h x (by simp)
    have hs := ih fun y hy => h y (by simp [hy])
    rw [List.length_cons, limbsOf, limbSum_cons_mod t x xs hx, limbSum_cons_div t x xs hx, hs]

/-- Limb `j` of a list, 0 outside it, is digit `j` of its number in base `Mod`. -/
theorem getD_eq_limbSum_div_mod (t : Radix) (s : List Nat) (j : Nat) (h : ∀ x ∈ s, x < limbMod t) :
    s.getD j 0 = limbSum t s / limbMod t ^ j % limbMod t := by
  induction s generalizing j with
  | nil => simp [limbSum]
  | cons x xs ih =>
    have hx : x < limbMod t := h x (by simp)
    cases j with
    | zero => simp [limbSum_cons_mod t x xs hx]
    | succ j =>
      rw [List.getD_cons_succ, ih j fun y hy => h y (by simp [hy]), Nat.pow_succ', ← Nat.div_div_eq_div_mul,
        limbSum_cons_div t x xs hx]

/-- `f[k] = (M div Mod^k) mod Mod` (00_scope.md R13). -/
theorem limbsOf_eq_map_range (t : Radix) (n x : Nat) :
    limbsOf t n x = (List.range n).map fun k => x / limbMod t ^ k % limbMod t := by
  induction n generalizing x with
  | zero => rfl
  | succ n ih =>
    rw [limbsOf, ih, List.range_succ_eq_map]
    simp [Nat.pow_succ', Nat.div_div_eq_div_mul, Function.comp_def]

/-- The digits of the lowest limb are the digits of the number. -/
theorem limbSum_cons_mod_base (t : Radix) (x : Nat) (xs : List Nat) : limbSum t (x :: xs) % base t = x % base t := by
  have hdvd : base t ∣ limbMod t := limbMod_eq t ▸ dvd_pow_self _ (digitsPerLimb_pos t).ne'
  obtain ⟨c, hc⟩ := hdvd
  rw [limbSum, hc, Nat.mul_assoc, Nat.add_mul_mod_self_left]

/-! ### Alignment -/

/-- Raising by whole limbs: the limb `q` places below `k` is digit `k` of the number times `Mod^q`. -/
theorem limbBelow_eq (t : Radix) (f : List Nat) (k q : Nat) (h : ∀ x ∈ f, x < limbMod t) :
    limbBelow f k q = limbSum t f * limbMod t ^ q / limbMod t ^ k % limbMod t := by
  unfold limbBelow
  split
  · next hqk =>
    obtain ⟨j, rfl⟩ := Nat.exists_eq_add_of_le hqk
    rw [Nat.add_sub_cancel_left, getD_eq_limbSum_div_mod t f j h, Nat.mul_comm, Nat.pow_add,
      Nat.mul_div_mul_left _ _ (Nat.pow_pos (limbMod_pos t))]
  · next hqk =>
    obtain ⟨j, rfl⟩ := Nat.exists_eq_add_of_lt (Nat.lt_of_not_le hqk)
    have hsplit : limbSum t f * limbMod t ^ (k + j + 1)
        = limbMod t ^ k * (limbMod t * (limbSum t f * limbMod t ^ j)) := by ring
    rw [hsplit, Nat.mul_div_cancel_left _ (Nat.pow_pos (limbMod_pos t)), Nat.mul_mod_right]

/-- R14's limb rule, `Mod = raise * split`: digit `x div w` cut at `split` and raised, above the top part of the digit below
it, is the digit of the raised number. -/
theorem split_raise_digit (x w raise split : Nat) (hraise : 0 < raise) (hsplit : 0 < split) :
    x / w % (raise * split) % split * raise + x * (raise * split) / w % (raise * split) / split
      = x * raise / w % (raise * split) := by
  have hhigh : x / w = x * (raise * split) / w / (raise * split) := by
    rw [Nat.div_right_comm, Nat.mul_div_cancel _ (Nat.mul_pos hraise hsplit)]
  have hraised : x * raise / w = x * (raise * split) / w / split := by
    rw [Nat.div_right_comm, ← Nat.mul_assoc, Nat.mul_div_cancel _ hsplit]
  rw [hhigh, hraised, Nat.mod_mod_of_dvd _ (Nat.dvd_mul_left split raise)]
  generalize x * (raise * split) / w = y
  rw [Nat.mod_mul (x := y / split), Nat.div_div_eq_div_mul, Nat.mul_comm raise split, Nat.mod_mul_right_div_self]
  ring

/-- `Pow[r] * Pow[D - r] = Mod` (00_scope.md R14). -/
theorem radixPow_mul_split (t : Radix) (delta : Nat) :
    radixPow t (delta % digitsPerLimb t) * radixPow t (digitsPerLimb t - delta % digitsPerLimb t) = limbMod t := by
  have hr : delta % digitsPerLimb t ≤ digitsPerLimb t := (Nat.mod_lt _ (digitsPerLimb_pos t)).le
  rw [radixPow, radixPow, ← Nat.pow_add, Nat.add_sub_cancel' hr, limbMod_eq]

/-- `beta^delta` is `Mod^q * Pow[r]` (00_scope.md R14). -/
theorem base_pow_eq_limbs_digits (t : Radix) (delta : Nat) :
    base t ^ delta = limbMod t ^ (delta / digitsPerLimb t) * radixPow t (delta % digitsPerLimb t) := by
  rw [radixPow, limbMod_eq, ← Nat.pow_mul, ← Nat.pow_add, Nat.div_add_mod]

/-- Alignment cuts the limbs of the raised number, on every grid (00_scope.md R14). -/
theorem align_eq_limbsOf (t : Radix) (f : List Nat) (delta n : Nat) (h : ∀ x ∈ f, x < limbMod t) :
    align t f delta n = limbsOf t n (limbSum t f * base t ^ delta) := by
  rw [limbsOf_eq_map_range, align]
  refine List.map_congr_left fun k _ => ?_
  rw [limbBelow_eq t f k _ h, limbBelow_eq t f k _ h, base_pow_eq_limbs_digits, Nat.pow_succ, ← Nat.mul_assoc,
    ← Nat.mul_assoc]
  have hdigit := split_raise_digit (limbSum t f * limbMod t ^ (delta / digitsPerLimb t)) (limbMod t ^ k) _ _
    (radixPow_pos t (delta % digitsPerLimb t)) (radixPow_pos t (digitsPerLimb t - delta % digitsPerLimb t))
  rwa [radixPow_mul_split] at hdigit

/-- Settles O49: the aligned limbs are the expansion of the raised number, which the grid holds whole. -/
theorem alignmentPreservesTheValue : Obligations.AlignmentPreservesTheValue := by
  intro t f delta n hf hfits
  rw [align_eq_limbsOf t f delta n hf]
  exact ⟨limbSum_limbsOf t n _ hfits, limbsOf_length t n _, limbsOf_lt t n _⟩

/-! ### Digit and limb counts -/

/-- `dc_t(x)` is the least number of digits that hold x (00_scope.md R12). -/
theorem digitCount_le_iff (t : Radix) (x k : Nat) : digitCount t x ≤ k ↔ x < base t ^ k := by
  constructor
  · intro h
    exact (lt_pow_digitCount t x).trans_le (Nat.pow_le_pow_right (base_pos t) h)
  · intro h
    cases hd : digitCount t x with
    | zero => exact k.zero_le
    | succ d => exact (Nat.pow_lt_pow_iff_right (base_gt_one t)).1 ((pow_le_of_digitCount t x d hd).trans_lt h)

theorem ceilDiv_le_iff (x d k : Nat) (hd : 0 < d) : ceilDiv x d ≤ k ↔ x ≤ d * k := by
  rw [ceilDiv, ← Nat.ceilDiv_eq_add_pred_div, ceilDiv_le_iff_le_mul hd]

/-- `ceil(dc_t(x) / D)` is the least number of limbs that hold x (00_scope.md R13). -/
theorem limbCount_le_iff (t : Radix) (x k : Nat) :
    ceilDiv (digitCount t x) (digitsPerLimb t) ≤ k ↔ x < limbMod t ^ k := by
  rw [ceilDiv_le_iff _ _ _ (digitsPerLimb_pos t), digitCount_le_iff, limbMod_eq, Nat.pow_mul]

/-- A number fits its limbs. -/
theorem lt_limbMod_pow_limbCount (t : Radix) (x : Nat) :
    x < limbMod t ^ ceilDiv (digitCount t x) (digitsPerLimb t) :=
  (limbCount_le_iff t x _).1 le_rfl

/-- `m` digits below a nonzero `y` add `m` to its digit count. -/
theorem digitCount_add_mul (t : Radix) (m x y : Nat) (hx : x < base t ^ m) (hy : y ≠ 0) :
    digitCount t (x + base t ^ m * y) = m + digitCount t y := by
  apply Nat.le_antisymm
  · rw [digitCount_le_iff, Nat.pow_add]
    calc x + base t ^ m * y < base t ^ m * (y + 1) := by rw [Nat.mul_succ]; omega
      _ ≤ base t ^ m * base t ^ digitCount t y := Nat.mul_le_mul_left _ (lt_pow_digitCount t y)
  · obtain ⟨d, hd⟩ := Nat.exists_eq_succ_of_ne_zero (mt (digitCount_eq_zero t y).1 hy)
    have hbig : base t ^ (m + d) ≤ x + base t ^ m * y := by
      rw [Nat.pow_add]
      exact (Nat.mul_le_mul_left _ (pow_le_of_digitCount t y d hd)).trans (Nat.le_add_left _ _)
    have hnot := mt (digitCount_le_iff t (x + base t ^ m * y) (m + d)).1 hbig.not_gt
    omega

/-- For limbs `s` below a top limb `y`: the top limb is not zero exactly when the number needs every limb. -/
theorem top_ne_zero_iff (t : Radix) (s : List Nat) (y : Nat) (h : ∀ x ∈ s ++ [y], x < limbMod t) :
    y ≠ 0 ↔ (s ++ [y]).length
      = ceilDiv (digitCount t (limbSum t (s ++ [y]))) (digitsPerLimb t) := by
  have hs : limbSum t s < limbMod t ^ s.length := limbSum_lt t s fun x hx => h x (by simp [hx])
  have hmost := (limbCount_le_iff t _ _).2 (limbSum_lt t (s ++ [y]) h)
  have hleast := limbCount_le_iff t (limbSum t (s ++ [y])) s.length
  have hsum : limbSum t (s ++ [y]) = limbSum t s + limbMod t ^ s.length * y := by simp [limbSum_append, limbSum]
  have htop : y ≠ 0 ↔ limbMod t ^ s.length ≤ limbSum t (s ++ [y]) := by
    rw [hsum]
    constructor
    · intro hy
      exact (Nat.le_mul_of_pos_right _ (Nat.pos_of_ne_zero hy)).trans (Nat.le_add_left _ _)
    · rintro hle rfl
      omega
  rw [List.length_append, List.length_singleton] at hmost ⊢
  omega

/-- The digit count of limbs whose top limb is not zero (10_state.md R24 (d)). -/
theorem digitCount_limbSum_append (t : Radix) (s : List Nat) (y : Nat) (hs : ∀ x ∈ s, x < limbMod t) (hy : y ≠ 0) :
    digitCount t (limbSum t (s ++ [y])) = digitsPerLimb t * s.length + digitCount t y := by
  have hlt := limbSum_lt t s hs
  rw [limbMod_eq, ← Nat.pow_mul] at hlt
  simp only [limbSum_append, limbSum, Nat.mul_zero, Nat.add_zero]
  rw [limbMod_eq, ← Nat.pow_mul, digitCount_add_mul t _ _ _ hlt hy]

/-! ### The normalized limbs (10_state.md R24) -/

/-- R24's conditions on a list given by its top limb. -/
theorem limbsNormal_append_iff (t : Radix) (nd : Nat) (s : List Nat) (y : Nat) :
    limbsNormal t nd (s ++ [y]) = true ↔
      limbSum t (s ++ [y]) % base t ≠ 0 ∧ y ≠ 0 ∧ nd = digitsPerLimb t * s.length + digitCount t y
        ∧ ∀ x ∈ s ++ [y], x < limbMod t := by
  cases s with
  | nil => simp [limbsNormal, limbSum, and_assoc]
  | cons x xs =>
    rw [List.cons_append, limbSum_cons_mod_base]
    have htop : (x :: (xs ++ [y])).getLastD 0 = y := by rw [← List.cons_append, List.getLastD_concat]
    simp only [limbsNormal, htop]
    simp [and_assoc, or_imp, forall_and]

/-- R24 in terms of the number: its lowest digit is not zero, `nd` counts its digits, and the limbs are its expansion on
just as many limbs as it needs. -/
theorem limbsNormal_iff (t : Radix) (nd : Nat) (s : List Nat) :
    limbsNormal t nd s = true ↔
      limbSum t s % base t ≠ 0 ∧ nd = digitCount t (limbSum t s)
        ∧ s = limbsOf t (ceilDiv nd (digitsPerLimb t)) (limbSum t s) := by
  rcases List.eq_nil_or_concat' s with rfl | ⟨s, y, rfl⟩
  · simp [limbsNormal, limbSum]
  rw [limbsNormal_append_iff]
  constructor
  · rintro ⟨hlow, hy, rfl, hlt⟩
    have hnd := digitCount_limbSum_append t s y (fun x hx => hlt x (by simp [hx])) hy
    refine ⟨hlow, hnd.symm, ?_⟩
    rw [← hnd, ← (top_ne_zero_iff t s y hlt).1 hy, limbsOf_limbSum t _ hlt]
  · rintro ⟨hlow, rfl, hs⟩
    have hlt : ∀ x ∈ s ++ [y], x < limbMod t := by rw [hs]; exact limbsOf_lt t _ _
    have hy : y ≠ 0 := (top_ne_zero_iff t s y hlt).2 (by simpa using congrArg List.length hs)
    exact ⟨hlow, hy, digitCount_limbSum_append t s y (fun x hx => hlt x (by simp [hx])) hy, hlt⟩

/-! ### Values normalized and canonical -/

/-- Reading words and storing them again. -/
theorem limbWords_limbNats (f : List Word) : limbWords (limbNats f) = f := by
  simp [limbWords, limbNats, Function.comp_def]

/-- The triple with low place `lp` and significand `m`, every field cut from them (00_scope.md R13). -/
def tripleOf (t : Radix) (lp : Int) (m : Nat) : BigFloat :=
  { lp := lp, nd := digitCount t m, f := limbWords (limbsOf t (ceilDiv (digitCount t m) (digitsPerLimb t)) m) }

theorem limbNats_tripleOf (t : Radix) (lp : Int) (m : Nat) :
    limbNats (tripleOf t lp m).f = limbsOf t (ceilDiv (digitCount t m) (digitsPerLimb t)) m :=
  limbNats_limbWords _ fun x hx => (limbsOf_lt t _ _ x hx).trans_le (limbMod_le_word t)

@[simp] theorem significand_tripleOf (t : Radix) (lp : Int) (m : Nat) : significand t (tripleOf t lp m) = m := by
  rw [significand, limbNats_tripleOf, limbSum_limbsOf t _ _ (lt_limbMod_pow_limbCount t m)]

/-- With no digits, R24 leaves the zero alone. -/
theorem normalized_iff_of_nd_eq_zero (t : Radix) (v : BigFloat) (hnd : v.nd = 0) :
    normalized t v = true ↔ v = .zero := by
  obtain ⟨lp, nd, f⟩ := v
  simp_all [normalized, BigFloat.zero]

/-- With digits, R24 says that the lowest one is not zero and that every field is cut from the significand. -/
theorem normalized_iff_of_nd_ne_zero (t : Radix) (v : BigFloat) (hnd : v.nd ≠ 0) :
    normalized t v = true ↔ significand t v % base t ≠ 0 ∧ v = tripleOf t v.lp (significand t v) := by
  rw [normalized, if_neg hnd, limbsNormal_iff, ← significand]
  refine and_congr_right fun _ => ⟨?_, fun hv => ?_⟩
  · rintro ⟨hdc, hf⟩
    have hwords := congrArg limbWords hf
    rw [limbWords_limbNats, hdc] at hwords
    rw [tripleOf, ← hwords, ← hdc]
  · have hdc : v.nd = digitCount t (significand t v) := congrArg BigFloat.nd hv
    have hlimbs := limbNats_tripleOf t v.lp (significand t v)
    rw [← hv, ← hdc] at hlimbs
    exact ⟨hdc, hlimbs⟩

/-- R24 in terms of the significand: the zero, or a lowest digit that is not zero and every field cut from it. -/
theorem normalized_iff (t : Radix) (v : BigFloat) :
    normalized t v = true ↔
      v = .zero ∨ (significand t v % base t ≠ 0 ∧ v = tripleOf t v.lp (significand t v)) := by
  rcases eq_or_ne v.nd 0 with hnd | hnd
  · rw [normalized_iff_of_nd_eq_zero t v hnd, or_iff_left]
    rintro ⟨hlow, hv⟩
    have hzero : significand t v = 0 := (digitCount_eq_zero t _).1 ((congrArg BigFloat.nd hv).symm.trans hnd)
    exact hlow (by simp [hzero])
  · rw [normalized_iff_of_nd_ne_zero t v hnd, or_iff_right]
    rintro rfl
    exact hnd rfl

/-- The count of low zero digits of `m * beta^k`, the lowest digit of `m` not zero, is `k` (00_scope.md R12). -/
theorem tz_mul_radixPow (t : Radix) (m k : Nat) (hm : m % base t ≠ 0) : tz t (m * radixPow t k) = k := by
  have hpos : 0 < m * radixPow t k :=
    Nat.mul_pos (Nat.pos_of_ne_zero (by rintro rfl; simp at hm)) (radixPow_pos t k)
  have hdvd := radixPow_tz_dvd t (m * radixPow t k)
  have hnext := tz_next_digit t (m * radixPow t k) hpos
  generalize tz t (m * radixPow t k) = j at *
  rcases Nat.lt_trichotomy j k with hjk | rfl | hjk
  · obtain ⟨d, rfl⟩ := Nat.exists_eq_add_of_lt hjk
    have hsplit : m * radixPow t (j + d + 1) = radixPow t j * (base t * (m * base t ^ d)) := by
      simp only [radixPow]; ring
    rw [hsplit, Nat.mul_div_cancel_left _ (radixPow_pos t j), Nat.mul_mod_right] at hnext
    exact absurd rfl hnext
  · rfl
  · obtain ⟨d, rfl⟩ := Nat.exists_eq_add_of_lt hjk
    have hsplit : radixPow t (k + d + 1) = base t * base t ^ d * radixPow t k := by
      simp only [radixPow]; ring
    rw [hsplit] at hdvd
    have hbase := Nat.dvd_of_mul_dvd_mul_right (radixPow_pos t k) hdvd
    exact absurd (Nat.mod_eq_zero_of_dvd ((Nat.dvd_mul_right _ _).trans hbase)) hm

/-- A nonzero number is a power of `beta` times a number whose lowest digit is not zero. -/
theorem exists_eq_mul_radixPow (t : Radix) (n : Nat) (hn : n ≠ 0) :
    ∃ m k, m % base t ≠ 0 ∧ n = m * radixPow t k :=
  ⟨n / radixPow t (tz t n), tz t n, tz_next_digit t n (Nat.pos_of_ne_zero hn),
    (Nat.div_mul_cancel (radixPow_tz_dvd t n)).symm⟩

@[simp] theorem canon_zero (t : Radix) (e : Int) : canon t 0 e = .zero := rfl

/-- `Canon_t(m * beta^k * beta^e)` for an `m` whose lowest digit is not zero (00_scope.md R13). -/
theorem canon_mul_radixPow (t : Radix) (m k : Nat) (e : Int) (hm : m % base t ≠ 0) :
    canon t (m * radixPow t k) e = tripleOf t (e + k) m := by
  have hne : m * radixPow t k ≠ 0 :=
    Nat.mul_ne_zero (by rintro rfl; simp at hm) (radixPow_pos t k).ne'
  rw [canon, if_neg hne, tz_mul_radixPow t m k hm, Nat.mul_div_cancel _ (radixPow_pos t k), tripleOf]

/-- Zero digits at the low end count into the place. -/
theorem canon_mul_pow (t : Radix) (n k : Nat) (e : Int) : canon t (n * base t ^ k) e = canon t n (e + k) := by
  rcases eq_or_ne n 0 with rfl | hn
  · simp
  obtain ⟨m, j, hm, rfl⟩ := exists_eq_mul_radixPow t n hn
  have hpow : m * radixPow t j * base t ^ k = m * radixPow t (k + j) := by simp only [radixPow]; ring
  rw [hpow, canon_mul_radixPow t m _ e hm, canon_mul_radixPow t m j _ hm, Nat.cast_add, add_assoc]

theorem base_cast_ne_zero (t : Radix) : (base t : ℚ) ≠ 0 := Nat.cast_ne_zero.2 (base_pos t).ne'

/-- `Canon_t` depends on the value alone: the case of the lower place on the left. -/
theorem canon_congr_of_le (t : Radix) (n m : Nat) (e e' : Int) (hle : e ≤ e')
    (h : (n : ℚ) * (base t : ℚ) ^ e = (m : ℚ) * (base t : ℚ) ^ e') : canon t n e = canon t m e' := by
  obtain ⟨k, rfl⟩ := Int.le.dest hle
  have hn : n = m * base t ^ k := by
    rw [zpow_add₀ (base_cast_ne_zero t), zpow_natCast, mul_comm ((base t : ℚ) ^ e), ← mul_assoc] at h
    exact_mod_cast mul_right_cancel₀ (zpow_ne_zero e (base_cast_ne_zero t)) h
  rw [hn, canon_mul_pow]

/-- `Canon_t` depends on the value alone (00_scope.md R13). -/
theorem canon_congr (t : Radix) (n m : Nat) (e e' : Int)
    (h : (n : ℚ) * (base t : ℚ) ^ e = (m : ℚ) * (base t : ℚ) ^ e') : canon t n e = canon t m e' := by
  rcases le_total e e' with hle | hle
  · exact canon_congr_of_le t n m e e' hle h
  · exact (canon_congr_of_le t m n e' e hle h.symm).symm

/-- The triple meets R24 when the lowest digit of its significand is not zero. -/
theorem normalized_tripleOf (t : Radix) (lp : Int) (m : Nat) (hm : m % base t ≠ 0) :
    normalized t (tripleOf t lp m) = true := by
  rw [normalized_iff, significand_tripleOf]
  exact .inr ⟨hm, rfl⟩

/-- Existence (00_scope.md R13): `Canon_t(n * beta^e)` meets R24 and has the value. -/
theorem isCanon_canon (t : Radix) (n : Nat) (e : Int) : IsCanon t ((n : ℚ) * (base t : ℚ) ^ e) (canon t n e) := by
  rcases eq_or_ne n 0 with rfl | hn
  · simp [IsCanon, normalized, valueOf, significand, limbNats, limbSum, BigFloat.zero]
  obtain ⟨m, k, hm, rfl⟩ := exists_eq_mul_radixPow t n hn
  rw [canon_mul_radixPow t m k e hm]
  refine ⟨normalized_tripleOf t _ m hm, ?_⟩
  rw [valueOf, significand_tripleOf, tripleOf, radixPow, zpow_add₀ (base_cast_ne_zero t), zpow_natCast]
  push_cast
  ring

/-- A normalized value is the canonical form of its own significand and place (10_state.md R24). -/
theorem eq_canon_of_normalized (t : Radix) (v : BigFloat) (h : normalized t v = true) :
    v = canon t (significand t v) v.lp := by
  rcases (normalized_iff t v).1 h with rfl | ⟨hlow, hv⟩
  · rfl
  · have hcanon := canon_mul_radixPow t (significand t v) 0 v.lp hlow
    rw [radixPow, Nat.pow_zero, Nat.mul_one, Nat.cast_zero, add_zero, ← hv] at hcanon
    exact hcanon.symm

/-- Settles O47: a normalized value is the canonical form of its own value, and that form depends on the value alone. -/
theorem canonicalFormExistsAndIsUnique : Obligations.CanonicalFormExistsAndIsUnique := by
  intro t n e v
  constructor
  · rintro ⟨hnormal, hvalue⟩
    rw [eq_canon_of_normalized t v hnormal]
    exact canon_congr t _ _ _ _ hvalue
  · rintro rfl
    exact isCanon_canon t n e

end Sys2Proof.Machine
end

section
/-! PROOFS. What a legal value is (10_state.md R24, R26), and that the normalizer and the constructor make only normalized
values (42_normalize_shift.md R140 to R144, 40_construct_move.md R101). -/

namespace Sys2Proof.Machine

open Sys2Proof

/-! ### Legal values -/

/-- A legal value meets R24 and the bounds of R26, spelled out. -/
theorem legalValue_iff (t : Radix) (v : BigFloat) :
    legalValue t v = true ↔ normalized t v = true ∧ v.nd ≤ 65536 ∧ -65536 ≤ v.lp ∧ v.lp ≤ 65536 := by
  unfold legalValue inBounds Config.kMaxDigits Config.kMinLowPlace Config.kMaxLowPlace
  simp [and_assoc]

theorem legalValue_of_normalized_of_inBounds {t : Radix} {v : BigFloat} (hv : normalized t v = true)
    (hb : inBounds v.lp v.nd = true) : legalValue t v = true := by simp [legalValue, hv, hb]

theorem legalValue_zero (t : Radix) : legalValue t .zero = true := by cases t <;> decide

theorem normalized_canon (t : Radix) (n : Nat) (e : Int) : normalized t (canon t n e) = true := (isCanon_canon t n e).1

/-- A place is not bad within the place bounds (42_normalize_shift.md R145). -/
theorem placeBad_eq_false_iff (p : Int) : placeBad p = false ↔ -65536 ≤ p ∧ p ≤ 65536 := by
  unfold placeBad Config.kMinLowPlace Config.kMaxLowPlace
  simp

/-- R24 says nothing of the place of a nonzero value, so moving it keeps a value legal within the place bounds. -/
theorem legalValue_move {t : Radix} {v : BigFloat} {p : Int} (hv : legalValue t v = true) (hnd : v.nd ≠ 0)
    (hp : placeBad p = false) : legalValue t { v with lp := p } = true := by
  obtain ⟨hnormal, hdigits, -, -⟩ := (legalValue_iff t v).1 hv
  have hmoved : normalized t { v with lp := p } = true := by simpa [normalized, hnd] using hnormal
  exact (legalValue_iff t _).2 ⟨hmoved, hdigits, (placeBad_eq_false_iff p).1 hp⟩

/-! ### The constructor -/

theorem isLimb_iff (t : Radix) (w : Word) : isLimb t w = true ↔ w.toNat < limbMod t := by
  unfold isLimb zeroExtended
  simp

/-- Every word is a BIN limb (40_construct_move.md R101). -/
theorem isLimb_bin (w : Word) : isLimb .bin w = true := (isLimb_iff .bin w).2 w.isLt

/-- A nonzero limb has fewer low zero digits than it has room for digits. -/
theorem tz_lt_digitsPerLimb (t : Radix) (x : Nat) (hx : x ≠ 0) (hlt : x < limbMod t) : tz t x < digitsPerLimb t := by
  have hle := Nat.le_of_dvd (Nat.pos_of_ne_zero hx) (radixPow_tz_dvd t x)
  rw [limbMod_eq] at hlt
  exact (Nat.pow_lt_pow_iff_right (base_gt_one t)).1 (hle.trans_lt hlt)

/-- On a limb of the radix, construct is `Canon_t` of the limb (40_construct_move.md R101, R102). -/
theorem construct_eq_canon (t : Radix) (x : Nat) (hlt : x < limbMod t) : construct t x = canon t x 0 := by
  rcases eq_or_ne x 0 with rfl | hx
  · simp [construct]
  obtain ⟨m, k, hm, rfl⟩ := exists_eq_mul_radixPow t x hx
  have hmlt : m < limbMod t := (Nat.le_mul_of_pos_right m (radixPow_pos t k)).trans_lt hlt
  have hone : ceilDiv (digitCount t m) (digitsPerLimb t) = 1 := by
    have hle := (limbCount_le_iff t m 1).2 (by simpa using hmlt)
    have hpos := mt (limbCount_le_iff t m 0).1 (by rw [Nat.pow_zero]; rintro h; simp [Nat.lt_one_iff.1 h] at hm)
    omega
  rw [canon_mul_radixPow t m k 0 hm, construct, if_neg hx, tz_mul_radixPow t m k hm,
    Nat.mul_div_cancel _ (radixPow_pos t k), tripleOf, hone]
  simp [limbsOf, limbWords, Nat.mod_eq_of_lt hmlt]

/-- A constructed value is legal: a limb holds at most 32 digits. -/
theorem legalValue_construct (t : Radix) (x : Nat) (hlt : x < limbMod t) : legalValue t (construct t x) = true := by
  have hnormal := normalized_canon t x 0
  rw [← construct_eq_canon t x hlt] at hnormal
  rcases eq_or_ne x 0 with rfl | hx
  · exact legalValue_zero t
  have hroom : digitsPerLimb t ≤ 32 := by cases t <;> decide
  have htz := tz_lt_digitsPerLimb t x hx hlt
  have hdigits : digitCount t (x / radixPow t (tz t x)) ≤ digitsPerLimb t := by
    rw [digitCount_le_iff, ← limbMod_eq]
    exact (Nat.div_le_self _ _).trans_lt hlt
  rw [legalValue_iff]
  refine ⟨hnormal, ?_⟩
  simp only [construct, if_neg hx]
  omega

/-! ### The normalizer keeps R24 -/

/-- Dropping the low zero limbs leaves limbs of the list, the lowest one not zero (42_normalize_shift.md R141). -/
theorem dropLowZeros_eq_cons {s xs : List Nat} {x : Nat} (h : dropLowZeros s = x :: xs) :
    x ≠ 0 ∧ ∀ y ∈ x :: xs, y ∈ s := by
  induction s with
  | nil => simp [dropLowZeros] at h
  | cons z zs ih =>
    rw [dropLowZeros] at h
    split at h
    · obtain ⟨hx, hmem⟩ := ih h
      exact ⟨hx, fun y hy => List.mem_cons_of_mem z (hmem y hy)⟩
    · next hz =>
      cases h
      exact ⟨hz, fun _ hy => hy⟩

/-- The digit shift of limbs gives limbs of the radix (42_normalize_shift.md R142). -/
theorem digitShift_lt (t : Radix) (j : Nat) (s : List Nat) (hj : j ≤ digitsPerLimb t) (h : ∀ x ∈ s, x < limbMod t) :
    ∀ x ∈ digitShift t j s, x < limbMod t := by
  have hsplit : radixPow t j * radixPow t (digitsPerLimb t - j) = limbMod t := by
    rw [radixPow, radixPow, ← Nat.pow_add, Nat.add_sub_cancel' hj, limbMod_eq]
  induction s using digitShift.induct with
  | case1 => simp [digitShift]
  | case2 x =>
    have hx : x / radixPow t j < limbMod t := (Nat.div_le_self x _).trans_lt (h x (by simp))
    simpa [digitShift] using hx
  | case3 x y rest ih =>
    have hrest := ih fun z hz => h z (List.mem_cons_of_mem x hz)
    have hlow : x / radixPow t j < radixPow t (digitsPerLimb t - j) :=
      Nat.div_lt_of_lt_mul (hsplit ▸ h x (by simp))
    have hhigh : (y % radixPow t j + 1) * radixPow t (digitsPerLimb t - j) ≤ limbMod t :=
      hsplit ▸ Nat.mul_le_mul_right _ (Nat.mod_lt y (radixPow_pos t j))
    rw [Nat.succ_mul] at hhigh
    rw [digitShift, List.forall_mem_cons]
    exact ⟨by omega, hrest⟩

/-- The lowest digit after a digit shift by less than a limb is digit `j` of the lowest limb. -/
theorem digitShift_cons_low_digit (t : Radix) (j x : Nat) (xs : List Nat) (hj : j < digitsPerLimb t) :
    ∃ y ys, digitShift t j (x :: xs) = y :: ys ∧ y % base t = x / radixPow t j % base t := by
  cases xs with
  | nil => exact ⟨_, _, rfl, rfl⟩
  | cons z zs =>
    refine ⟨_, _, rfl, ?_⟩
    obtain ⟨d, hd⟩ := Nat.exists_eq_add_of_lt hj
    have hpow : radixPow t (digitsPerLimb t - j) = base t * radixPow t d := by
      rw [hd, radixPow, radixPow, ← Nat.pow_succ', show j + d + 1 - j = d + 1 by omega]
    rw [hpow, Nat.mul_left_comm, Nat.add_mul_mod_self_left]

/-- Dropping the high zero limbs leaves limbs of the list (42_normalize_shift.md R143). -/
theorem mem_of_mem_dropHighZeros {s : List Nat} {y : Nat} (h : y ∈ dropHighZeros s) : y ∈ s := by
  induction s with
  | nil => simp [dropHighZeros] at h
  | cons x xs ih =>
    rw [dropHighZeros] at h
    split at h
    · split at h <;> simp_all
    · next heq =>
      rw [← heq, List.mem_cons] at h
      exact List.mem_cons.2 (h.imp_right ih)

/-- A low limb that is not zero stays where it is. -/
theorem dropHighZeros_cons_of_ne_zero {x : Nat} (xs : List Nat) (hx : x ≠ 0) :
    dropHighZeros (x :: xs) = x :: dropHighZeros xs := by
  rw [dropHighZeros]
  split
  · next heq => rw [if_neg hx, heq]
  · next heq => rw [heq]

/-- The top limb left is not zero (42_normalize_shift.md R143). -/
theorem getLastD_dropHighZeros_ne_zero (s : List Nat) {d : Nat} (hd : d ≠ 0) : (dropHighZeros s).getLastD d ≠ 0 := by
  induction s generalizing d with
  | nil => simpa [dropHighZeros] using hd
  | cons x xs ih =>
    rw [dropHighZeros]
    split
    · next => split <;> simp_all
    · next y ys heq =>
      have htop := ih hd
      rw [heq] at htop
      exact htop

/-- What the normalizer returns for limbs of the radix that are not all zero meets R24 (42_normalize_shift.md R144). -/
theorem limbsNormal_normalizeLimbs (t : Radix) (s : List Nat) (h : ∀ x ∈ s, x < limbMod t)
    (hnd : (normalizeLimbs t s).nd ≠ 0) :
    limbsNormal t (normalizeLimbs t s).nd (normalizeLimbs t s).f = true := by
  unfold normalizeLimbs at hnd ⊢
  split
  · next heq => simp [heq] at hnd
  · next x xs heq =>
    obtain ⟨hx, hmem⟩ := dropLowZeros_eq_cons heq
    have hlimbs : ∀ y ∈ x :: xs, y < limbMod t := fun y hy => h y (hmem y hy)
    have hxlt : x < limbMod t := hlimbs x (by simp)
    have hj := tz_lt_digitsPerLimb t x hx hxlt
    have hshifted := digitShift_lt t (tz t x) (x :: xs) hj.le hlimbs
    obtain ⟨y, ys, hys, hdigit⟩ := digitShift_cons_low_digit t (tz t x) x xs hj
    have hlow : y % base t ≠ 0 := hdigit ▸ tz_next_digit t x (Nat.pos_of_ne_zero hx)
    have hy : y ≠ 0 := by rintro rfl; simp at hlow
    have htop : (y :: dropHighZeros ys).getLastD 0 ≠ 0 := by
      rw [List.getLastD_cons]
      exact getLastD_dropHighZeros_ne_zero ys hy
    have hall : ∀ z ∈ y :: dropHighZeros ys, z < limbMod t := fun z hz =>
      hshifted z (hys ▸ List.mem_cons.2 ((List.mem_cons.1 hz).imp_right mem_of_mem_dropHighZeros))
    simp only [hys, dropHighZeros_cons_of_ne_zero ys hy, countDigits, limbsNormal, Bool.and_eq_true, decide_eq_true_eq,
      List.all_eq_true]
    exact ⟨⟨⟨hlow, htop⟩, trivial⟩, hall⟩

/-- A grid of limbs of the radix normalizes to a value that meets R24 (42_normalize_shift.md R140, R144). -/
theorem normalized_fromGrid (t : Radix) (s : List Nat) (L : Int) (h : ∀ x ∈ s, x < limbMod t) :
    normalized t (fromGrid t s L) = true := by
  unfold fromGrid
  split
  · exact ((legalValue_iff t _).1 (legalValue_zero t)).1
  · next hnd =>
    have hnormal := limbsNormal_normalizeLimbs t s h hnd
    have hfits : ∀ x ∈ (normalizeLimbs t s).f, x < 4294967296 := by
      intro x hx
      rw [((limbsNormal_iff t _ _).1 hnormal).2.2] at hx
      exact (limbsOf_lt t _ _ x hx).trans_le (limbMod_le_word t)
    rw [normalized, if_neg hnd, limbNats_limbWords _ hfits]
    exact hnormal

end Sys2Proof.Machine
end

section
/-! PROOFS. Everything a command can do, said once for all sixteen: it is refused for a cause, it leaves `Unspec_t` in Vd, it
writes a value to Vd, or it is one of the six commands with an effect of their own. -/

namespace Sys2Proof

open Sys2Proof.Machine

/-- The radix of the value that the command leaves in Vd, computed or `Unspec_t` (10_state.md R22). -/
def Instr.resultTag (i : Instr) (s : State) : Option Radix :=
  match i with
  | .nop => none
  | .ldfs _ => none
  | .ldlB _ _ => some .bin
  | .ldlD _ _ => some .dec
  | .nrmB _ _ _ => some .bin
  | .nrmD _ _ _ => some .dec
  | .mov _ _ => none
  | .clone _ r => (s.reg r).tag
  | .free _ => none
  | .isZero _ => none
  | .cmp _ _ => none
  | .shift d _ => (s.reg d).tag
  | .add d _ => (s.reg d).tag
  | .sub d _ => (s.reg d).tag
  | .mul d _ => (s.reg d).tag
  | .round d => (s.reg d).tag

/-- The faults that leave Vd as it is, with their causes: equal register fields (30_encoding.md R78) and the causes of
InvalidOperand (60_exceptions.md R236). -/
def Instr.Refuses (i : Instr) (s : State) (code : FaultCode) : Prop :=
  (code = .illegalCommand ∧ i.operandsDiffer = false) ∨ (code = .invalidOperand ∧ i.operandCause s)

/-- The registers left with `Unspec_t` are written registers. -/
theorem Instr.spoils_subset_writes (i : Instr) : i.spoils ⊆ i.writes := by
  cases i <;> simp [Instr.spoils, Instr.writes]

/-- A command has at most one register it can leave with `Unspec_t`. -/
theorem Instr.spoils_unique (i : Instr) {d e : VIx} (hd : d ∈ i.spoils) (he : e ∈ i.spoils) : d = e := by
  cases i <;> simp_all [Instr.spoils]

theorem Instr.length_pos (i : Instr) : 0 < i.length := by cases i <;> simp [Instr.length]

end Sys2Proof

namespace Sys2Proof.Machine

open Sys2Proof

/-- `CommandEffect s i t`: the command `i` can take the state `s` to `t`. The draws `o` are those left before `Unspec_t` or the value
is written. -/
inductive CommandEffect (s : State) : Instr → State → Prop where
  /-- a fault that leaves Vd as it is -/
  | refuse {i : Instr} {code : FaultCode} (hcause : i.Refuses s code) : CommandEffect s i (s.raise code)
  /-- OutOfMemory or IntegerOverflow, with `Unspec_t` in Vd (60_exceptions.md R241) -/
  | spoil {i : Instr} {d : VIx} {u : Radix} {code : FaultCode} {o : Oracle} (hd : d ∈ i.spoils)
      (hu : i.resultTag s = some u) (hcode : code = .outOfMemory ∨ code = .integerOverflow) :
      CommandEffect s i ((s.withOracle o).raiseInto code d u)
  /-- completion with a value in Vd, which may be the value Vd held; it is legal if the limb store was -/
  | write {i : Instr} {d : VIx} {u : Radix} {x : BigFloat} {o : Oracle} (hd : d ∈ i.spoils)
      (hu : i.resultTag s = some u) (hx : Memory.wf s.v → legalValue u x = true) :
      CommandEffect s i ((s.withOracle o).complete d u x i.length)
  /-- the commands with no Vd that a value is computed into -/
  | nop : CommandEffect s .nop (s.advance 1)
  | ldfs {spec : FloatSpec} : CommandEffect s (.ldfs spec) ((s.loadFloatSpec spec).advance 3)
  | mov {d r : VIx} {u : Radix} {x : BigFloat} (hr : s.reg r = .value u x) :
      CommandEffect s (.mov d r) (((s.setReg d (.value u x)).setReg r .empty).advance 1)
  | free {d : VIx} : CommandEffect s (.free d) ((s.setReg d .empty).advance 1)
  | isZero {r : VIx} {z : Bool} : CommandEffect s (.isZero r) ((s.withFlags (s.flags.withZero z)).advance 1)
  | cmp {a b : VIx} {o : Ordering} : CommandEffect s (.cmp a b) ((s.withFlags (s.flags.withOrdering o)).advance 1)

/-! ### What the operands' checks find -/

/-- Two registers that R120 does not let a command read are a bad pair. -/
theorem badPair_of_operandPair_eq_none {s : State} {a b : VIx} (h : operandPair (s.reg a) (s.reg b) = none) :
    s.badPair a b := by
  unfold State.badPair
  cases ha : s.reg a with
  | empty => exact .inl rfl
  | value t x =>
    cases hb : s.reg b with
    | empty => exact .inr (.inl rfl)
    | value u y =>
      have hne : t ≠ u := by rintro rfl; simp [ha, hb, operandPair] at h
      exact .inr (.inr (by simpa [VReg.tag] using hne))

/-- A value is its significand counted from any lower place. -/
theorem valueOf_eq_significandAt (t : Radix) (v : BigFloat) (L : Int) (h : L ≤ v.lp) :
    valueOf t v = (significandAt t v L : ℚ) * (base t : ℚ) ^ L := by
  obtain ⟨k, hk⟩ := Int.le.dest h
  have hsub : (v.lp - L).toNat = k := by omega
  rw [significandAt, hsub, valueOf, ← hk, zpow_add₀ (base_cast_ne_zero t), zpow_natCast, radixPow]
  push_cast
  ring

/-- CMP's and SUB's comparison finds the first value below the second exactly when it is (43_compare.md R161). -/
theorem compareValues_eq_lt_iff (t : Radix) (a b : BigFloat) :
    compareValues t a b = .lt ↔ valueOf t a < valueOf t b := by
  have hbase : (0 : ℚ) < (base t : ℚ) ^ anchor a b := zpow_pos (Nat.cast_pos.2 (base_pos t)) _
  rw [compareValues, compare_lt_iff_lt, valueOf_eq_significandAt t a _ (min_le_left a.lp b.lp),
    valueOf_eq_significandAt t b _ (min_le_right a.lp b.lp), ← anchor, mul_lt_mul_iff_left₀ hbase, Nat.cast_lt]

/-! ### The effect of each shared operation -/

namespace CommandEffect

variable {s : State} {i : Instr} {d : VIx} {u : Radix}

/-- The command leaves Vd with the value it holds. -/
theorem keep {x : BigFloat} {o : Oracle} (hd : d ∈ i.spoils) (hu : i.resultTag s = some u) (hx : s.reg d = .value u x) :
    CommandEffect s i ((s.withOracle o).advance i.length) := by
  have hsame : (s.withOracle o).setReg d (.value u x) = s.withOracle o := by
    rw [← hx]
    exact State.setReg_reg_self (s.withOracle o) d
  have hwrite : CommandEffect s i ((s.withOracle o).complete d u x i.length) :=
    .write hd hu fun hwf => legalValue_of_reg s d u x hwf hx
  rwa [State.complete, hsame] at hwrite

theorem allocating {rest : State → State} (hd : d ∈ i.spoils) (hu : i.resultTag s = some u)
    (hrest : ∀ o : Oracle, CommandEffect s i (rest (s.withOracle o))) : CommandEffect s i (s.allocating d u rest) := by
  rcases State.allocating_cases s d u rest with ⟨_, h⟩ | ⟨_, h⟩ <;> rw [h]
  · exact .spoil hd hu (.inl rfl)
  · exact hrest _

/-- What is delivered is stored only in bounds, so a normalized result is enough. -/
theorem deliver {x : BigFloat} {plp : Int} {pnd : Nat} {o : Oracle} (hd : d ∈ i.spoils) (hu : i.resultTag s = some u)
    (hx : normalized u x = true) : CommandEffect s i ((s.withOracle o).deliver d u x plp pnd i.length) := by
  rcases State.deliver_cases (s.withOracle o) d u x plp pnd i.length with
    ⟨hb, _, h⟩ | ⟨_, h⟩ | ⟨_, _, _, h⟩ | ⟨hb, _, _, h⟩ <;> rw [h]
  · exact .write hd hu fun _ => legalValue_of_normalized_of_inBounds hx hb
  · exact .spoil hd hu (.inr rfl)
  · exact .spoil hd hu (.inr rfl)
  · exact .write hd hu fun _ => legalValue_of_normalized_of_inBounds hx hb

theorem distinct {r : VIx} {rest : State → State} (hi : i.mustDiffer = some (d, r))
    (hrest : CommandEffect s i (rest s)) : CommandEffect s i (s.distinct d r rest) := by
  rcases State.distinct_cases s d r rest with ⟨heq, h⟩ | ⟨_, h⟩ <;> rw [h]
  · exact .refuse (.inl ⟨rfl, by simp [Instr.operandsDiffer, hi, heq]⟩)
  · exact hrest

theorem withValue {r : VIx} {rest : Radix → BigFloat → State} (hcause : s.reg r = .empty → i.operandCause s)
    (hrest : ∀ u x, s.reg r = .value u x → CommandEffect s i (rest u x)) : CommandEffect s i (s.withValue r rest) := by
  rcases State.withValue_cases s r rest with ⟨hempty, h⟩ | ⟨u, x, hx, h⟩ <;> rw [h]
  · exact .refuse (.inr ⟨rfl, hcause hempty⟩)
  · exact hrest u x hx

theorem withPair {r : VIx} {rest : Radix → BigFloat → BigFloat → State} (hcause : s.badPair d r → i.operandCause s)
    (hrest : ∀ u x y, s.reg d = .value u x → s.reg r = .value u y → CommandEffect s i (rest u x y)) :
    CommandEffect s i (s.withPair d r rest) := by
  rcases State.withPair_cases s d r rest with ⟨hnone, h⟩ | ⟨u, x, y, hx, hy, h⟩ <;> rw [h]
  · exact .refuse (.inr ⟨rfl, hcause (badPair_of_operandPair_eq_none hnone)⟩)
  · exact hrest u x y hx hy

/-! ### The effect of each command -/

/-- LDL.B and LDL.D (40_construct_move.md R101, R102). -/
theorem loadLimb {limb : Word} (hd : d ∈ i.spoils) (hu : i.resultTag s = some u) (hlength : i.length = 2)
    (hcause : isLimb u limb = false → i.operandCause s) : CommandEffect s i (s.loadLimb u d limb) := by
  unfold State.loadLimb
  split
  · next hlimb =>
    refine allocating hd hu fun o => ?_
    rw [← hlength]
    exact .write hd hu fun _ => legalValue_construct u _ ((isLimb_iff u limb).1 hlimb)
  · next hlimb => exact .refuse (.inr ⟨rfl, hcause (by simpa using hlimb)⟩)

/-- NRM.B and NRM.D (42_normalize_shift.md R146, R147). -/
theorem loadGrid {place : Word} {limbs : List Word} (hd : d ∈ i.spoils) (hu : i.resultTag s = some u)
    (hlength : i.length = limbs.length + 2) (hcause : limbs.all (isLimb u) = false → i.operandCause s) :
    CommandEffect s i (s.loadGrid u d place limbs) := by
  unfold State.loadGrid
  split
  · next hlimbs =>
    have hlt : ∀ x ∈ limbNats limbs, x < limbMod u := by
      simpa [limbNats, isLimb_iff] using hlimbs
    refine allocating hd hu fun o => ?_
    rw [← hlength]
    exact deliver hd hu (normalized_fromGrid u _ _ hlt)
  · next hlimbs => exact .refuse (.inr ⟨rfl, hcause (by simpa using hlimbs)⟩)

/-- SHIFT (42_normalize_shift.md R145). -/
theorem shift {offset : Word} : ∃ t, execShift d offset s = .next t ∧ CommandEffect s (.shift d offset) t := by
  refine ⟨_, rfl, withValue id fun u x hx => ?_⟩
  have hd : d ∈ (Instr.shift d offset).spoils := List.mem_singleton_self d
  have hu : (Instr.shift d offset).resultTag s = some u := congrArg VReg.tag hx
  unfold State.shiftValue
  split_ifs with hzero hoff hdraw hoff hplace
  · exact .spoil hd hu (.inr rfl)
  · exact keep hd hu hx
  · exact keep (o := s.oracle) hd hu hx
  · exact .spoil (o := s.oracle) hd hu (.inr rfl)
  · exact .spoil (o := s.oracle) hd hu (.inr rfl)
  · exact .write (o := s.oracle) hd hu fun hwf =>
      legalValue_move (legalValue_of_reg s d u x hwf hx) hzero (by simpa using hplace)

/-- ADD (41_add_sub.md R121). -/
theorem add {r : VIx} : ∃ t, execAdd d r s = .next t ∧ CommandEffect s (.add d r) t := by
  refine ⟨_, rfl, distinct rfl (withPair id fun u x y hx hy => ?_)⟩
  have hd : d ∈ (Instr.add d r).spoils := List.mem_singleton_self d
  have hu : (Instr.add d r).resultTag s = some u := congrArg VReg.tag hx
  refine allocating hd hu fun o => ?_
  split_ifs
  · exact keep hd hu hx
  · exact .write hd hu fun hwf => legalValue_of_reg s r u y hwf hy
  · exact deliver hd hu (normalized_canon u _ _)

/-- SUB (41_add_sub.md R125, R126). -/
theorem sub {r : VIx} : ∃ t, execSub d r s = .next t ∧ CommandEffect s (.sub d r) t := by
  refine ⟨_, rfl, distinct rfl (withPair .inl fun u x y hx hy => ?_)⟩
  have hd : d ∈ (Instr.sub d r).spoils := List.mem_singleton_self d
  have hu : (Instr.sub d r).resultTag s = some u := congrArg VReg.tag hx
  split
  · next hlt => exact .refuse (.inr ⟨rfl, .inr ⟨u, x, y, hx, hy, (compareValues_eq_lt_iff u x y).1 hlt⟩⟩)
  · refine allocating hd hu fun o => ?_
    split_ifs
    · exact keep hd hu hx
    · exact .write hd hu fun _ => legalValue_zero u
  · refine allocating hd hu fun o => ?_
    split_ifs
    · exact keep hd hu hx
    · exact deliver hd hu (normalized_canon u _ _)

/-- MUL (44_multiply.md R170). -/
theorem mul {r : VIx} : ∃ t, execMul d r s = .next t ∧ CommandEffect s (.mul d r) t := by
  refine ⟨_, rfl, distinct rfl (withPair id fun u x y hx hy => ?_)⟩
  have hd : d ∈ (Instr.mul d r).spoils := List.mem_singleton_self d
  have hu : (Instr.mul d r).resultTag s = some u := congrArg VReg.tag hx
  refine allocating hd hu fun o => ?_
  split_ifs
  · exact .write hd hu fun _ => legalValue_zero u
  · exact deliver hd hu (normalized_canon u _ _)

/-- ROUND (45_round.md R180). -/
theorem round : ∃ t, execRound d s = .next t ∧ CommandEffect s (.round d) t := by
  refine ⟨_, rfl, withValue .inl fun u x hx => ?_⟩
  have hd : d ∈ (Instr.round d).spoils := List.mem_singleton_self d
  have hu : (Instr.round d).resultTag s = some u := congrArg VReg.tag hx
  cases u with
  | dec => exact .refuse (.inr ⟨rfl, .inr (.inl hu)⟩)
  | bin =>
    dsimp only
    split
    · next hfsv => exact .refuse (.inr ⟨rfl, .inr (.inr hfsv)⟩)
    · refine allocating hd hu fun o => ?_
      split_ifs
      · exact keep hd hu hx
      · exact .write hd hu fun _ => legalValue_zero .bin
      · exact keep hd hu hx
      · exact deliver hd hu (normalized_canon .bin _ _)

end CommandEffect

/-- Every command answers a next state, and everything it can do is one of the effects. -/
theorem exec_effect (i : Instr) (s : State) : ∃ t, exec i s = .next t ∧ CommandEffect s i t := by
  cases i with
  | nop => exact ⟨_, rfl, .nop⟩
  | ldfs spec => exact ⟨_, rfl, .ldfs⟩
  | ldlB d limb =>
    exact ⟨_, rfl, .loadLimb (List.mem_singleton_self d) rfl rfl fun h => by simp [isLimb_bin] at h⟩
  | ldlD d limb =>
    refine ⟨_, rfl, .loadLimb (List.mem_singleton_self d) rfl rfl fun h => ?_⟩
    exact Nat.le_of_not_lt (mt (isLimb_iff .dec limb).2 (by simp [h]))
  | nrmB d place limbs =>
    exact ⟨_, rfl, .loadGrid (List.mem_singleton_self d) rfl rfl fun h => by simp [isLimb_bin] at h⟩
  | nrmD d place limbs =>
    refine ⟨_, rfl, .loadGrid (List.mem_singleton_self d) rfl rfl fun h => ?_⟩
    obtain ⟨x, hx, hlimb⟩ := List.all_eq_false.1 h
    exact ⟨x, hx, Nat.le_of_not_lt (mt (isLimb_iff .dec x).2 hlimb)⟩
  | mov d r => exact ⟨_, rfl, .distinct rfl (.withValue id fun _ _ hx => .mov hx)⟩
  | clone d r =>
    refine ⟨_, rfl, .distinct rfl (.withValue id fun u x hx => ?_)⟩
    have hd : d ∈ (Instr.clone d r).spoils := List.mem_singleton_self d
    have hu : (Instr.clone d r).resultTag s = some u := congrArg VReg.tag hx
    exact .allocating hd hu fun o => .write hd hu fun hwf => legalValue_of_reg s r u x hwf hx
  | free d => exact ⟨_, rfl, .free⟩
  | isZero r => exact ⟨_, rfl, .withValue id fun _ _ _ => .isZero⟩
  | cmp a b => exact ⟨_, rfl, .withPair id fun _ _ _ _ _ => .cmp⟩
  | shift d offset => exact CommandEffect.shift
  | add d r => exact CommandEffect.add
  | sub d r => exact CommandEffect.sub
  | mul d r => exact CommandEffect.mul
  | round d => exact CommandEffect.round

/-- A command's next state is reached by one of its effects. -/
theorem effect_of_exec {i : Instr} {s t : State} (h : exec i s = .next t) : CommandEffect s i t := by
  obtain ⟨t', ht', heffect⟩ := exec_effect i s
  rw [h] at ht'
  cases ht'
  exact heffect

end Sys2Proof.Machine
end

section
/-! PROOFS. What every command does to PC, STATUS, the frame and the tags, read off its effects (10_state.md R22, R28, R29,
R32). -/

namespace Sys2Proof.Machine

open Sys2Proof

namespace CommandEffect

variable {s t : State} {i : Instr}

/-- A fault that leaves Vd as it is has one of two codes. -/
theorem code_of_refuses {code : FaultCode} (h : i.Refuses s code) : code = .illegalCommand ∨ code = .invalidOperand :=
  h.imp And.left And.left

/-- A command completes, adding its length to PC, or faults, leaving PC (10_state.md R29, 60_exceptions.md R240). -/
theorem completes_or_faults (h : CommandEffect s i t) :
    (t.run = s.run ∧ t.err = s.err ∧ t.epc = s.epc ∧ t.pc = s.pc + BitVec.ofNat 32 i.length)
      ∨ (t.run = .faulted ∧ t.err ≠ .none ∧ t.epc = s.pc ∧ t.pc = s.pc) := by
  cases h with
  | refuse hcause =>
    refine .inr ⟨rfl, ?_, rfl, rfl⟩
    rcases code_of_refuses hcause with rfl | rfl <;> simp
  | spoil hd hu hcode =>
    refine .inr ⟨rfl, ?_, rfl, rfl⟩
    rcases hcode with rfl | rfl <;> simp
  | write | nop | ldfs | mov | free | isZero | cmp => exact .inl ⟨rfl, rfl, rfl, rfl⟩

/-- A command leaves every register it does not write (10_state.md R28). -/
theorem reg_eq (h : CommandEffect s i t) {j : VIx} (hj : j ∉ i.writes) : t.reg j = s.reg j := by
  cases h with
  | refuse | nop | ldfs | isZero | cmp => rfl
  | spoil hd =>
    have hne : j ≠ _ := ne_of_mem_of_not_mem (i.spoils_subset_writes hd) hj |>.symm
    rw [State.reg_raiseInto, if_neg hne, State.reg_withOracle]
  | write hd =>
    have hne : j ≠ _ := ne_of_mem_of_not_mem (i.spoils_subset_writes hd) hj |>.symm
    rw [State.reg_complete, if_neg hne, State.reg_withOracle]
  | mov =>
    obtain ⟨hd, hr⟩ : j ≠ _ ∧ j ≠ _ := by simpa [Instr.writes] using hj
    rw [State.reg_advance, State.reg_setReg_ne _ _ _ _ hr, State.reg_setReg_ne _ _ _ _ hd]
  | free =>
    rw [State.reg_advance, State.reg_setReg_ne _ _ _ _ (by simpa [Instr.writes] using hj)]

/-- FLAGS are ISZERO's and CMP's (10_state.md R32). -/
theorem flags_eq (h : CommandEffect s i t) (hi : i.writesFlags = false) : t.flags = s.flags := by
  cases h with
  | refuse | spoil | write | nop | ldfs | mov | free => rfl
  | isZero | cmp => simp [Instr.writesFlags] at hi

/-- FS and FSV are LDFS's (46_system.md R204). -/
theorem floatSpec_eq (h : CommandEffect s i t) (hi : i.writesFloatSpec = false) : t.fs = s.fs ∧ t.fsv = s.fsv := by
  cases h with
  | refuse | spoil | write | nop | mov | free | isZero | cmp => exact ⟨rfl, rfl⟩
  | ldfs => simp [Instr.writesFloatSpec] at hi

/-- No command changes the program or the host's schedule (20_memory.md R63). -/
theorem prog_host_eq (h : CommandEffect s i t) : t.prog = s.prog ∧ t.host = s.host := by
  cases h <;> exact ⟨rfl, rfl⟩

/-- After a command that is not refused, Vd holds a value of the command's radix (10_state.md R22). -/
theorem tag_eq_resultTag (h : CommandEffect s i t) {d : VIx} {u : Radix} (hd : d ∈ i.spoils) (hu : i.resultTag s = some u)
    (hdiffer : i.operandsDiffer = true) (hcause : t.err = .invalidOperand → ¬ i.operandCause s) :
    (t.reg d).tag = some u := by
  cases h with
  | refuse hrefused =>
    rcases hrefused with ⟨-, hsame⟩ | ⟨rfl, hoperand⟩
    · simp [hdiffer] at hsame
    · exact absurd hoperand (hcause rfl)
  | spoil hd' hu' =>
    obtain rfl := i.spoils_unique hd hd'
    rw [State.reg_raiseInto, if_pos rfl, VReg.tag, ← hu, hu']
  | write hd' hu' =>
    obtain rfl := i.spoils_unique hd hd'
    rw [State.reg_complete, if_pos rfl, VReg.tag, ← hu, hu']
  | nop | ldfs | mov | free | isZero | cmp => simp [Instr.spoils] at hd

/-- A command whose result has Vd's own radix changes no tag (10_state.md R22). -/
theorem tag_eq (h : CommandEffect s i t) (hwrites : i.writes = i.spoils)
    (hresult : ∀ d ∈ i.spoils, i.resultTag s = (s.reg d).tag) (j : VIx) : (t.reg j).tag = (s.reg j).tag := by
  have hwritten {d : VIx} {u : Radix} (hd : d ∈ i.spoils) (hu : i.resultTag s = some u) (x : BigFloat) :
      (if j = d then VReg.value u x else s.reg j).tag = (s.reg j).tag := by
    split
    · next heq => rw [heq, ← hresult d hd, hu, VReg.tag]
    · rfl
  cases h with
  | refuse | nop | ldfs | isZero | cmp => rfl
  | spoil hd hu => rw [State.reg_raiseInto]; exact hwritten hd hu _
  | write hd hu => rw [State.reg_complete]; exact hwritten hd hu _
  | mov | free => simp [Instr.writes, Instr.spoils] at hwrites

end CommandEffect

/-- Settles O22: a command completes past its own words or faults where it stands. -/
theorem commandsMovePcForward : Obligations.CommandsMovePcForward := by
  intro i s hrun
  obtain ⟨t, ht, heffect⟩ := exec_effect i s
  refine ⟨t, ht, ?_⟩
  rw [← hrun]
  exact heffect.completes_or_faults

/-- Settles O23: the frame of each effect. -/
theorem commandsWriteOnlyTheirDestination : Obligations.CommandsWriteOnlyTheirDestination := by
  intro i s t hexec
  have heffect := effect_of_exec hexec
  obtain ⟨hprog, hhost⟩ := heffect.prog_host_eq
  refine ⟨fun j hj => ?_, heffect.flags_eq, heffect.floatSpec_eq, hprog, hhost, ?_⟩
  · have hreg := heffect.reg_eq hj
    exact ⟨hreg, fun k => by rw [State.memRead, hreg, State.memRead]⟩
  · rcases heffect.completes_or_faults with ⟨hrun, herr, hepc, -⟩ | ⟨hrun, -, hepc, hpc⟩
    · exact .inl ⟨hrun, herr, hepc⟩
    · exact .inr ⟨hrun, hepc, hpc⟩

/-- MOV that completes gives Vs's tag to Vd and empties Vs (40_construct_move.md R105). -/
theorem tags_of_mov {s t : State} {d r : VIx} (h : CommandEffect s (.mov d r) t) (hne : d ≠ r) (hdone : t.run = .running) :
    (t.reg d).tag = (s.reg r).tag ∧ (t.reg r).tag = none := by
  cases h with
  | refuse => simp at hdone
  | spoil hd | write hd => simp [Instr.spoils] at hd
  | mov hr =>
    rw [State.reg_advance, State.reg_advance, State.reg_setReg_ne _ _ _ _ hne, State.reg_setReg_self,
      State.reg_setReg_self, hr]
    exact ⟨rfl, rfl⟩

/-- FREE leaves its register EMPTY (40_construct_move.md R107). -/
theorem tag_of_free {s t : State} {d : VIx} (h : CommandEffect s (.free d) t) : (t.reg d).tag = none := by
  cases h with
  | refuse hrefused => simp [Instr.Refuses, Instr.operandsDiffer, Instr.mustDiffer, Instr.operandCause] at hrefused
  | spoil hd | write hd => simp [Instr.spoils] at hd
  | free => rw [State.reg_advance, State.reg_setReg_self, VReg.tag]

/-- Settles O25: a command's tag is that of its effect. -/
theorem tagsFollowTheCommand : Obligations.TagsFollowTheCommand := by
  intro s t _
  refine ⟨fun d x h => ?ldlB, fun d p l h => ?nrmB, fun d x h herr _ => ?ldlD, fun d p l h herr _ => ?nrmD,
    fun d r hne h hdone => tags_of_mov (effect_of_exec h) hne hdone, fun d r hne hr h => ?clone,
    fun d h => tag_of_free (effect_of_exec h), fun i a b x spec hi h => (effect_of_exec h).tag_eq ?_ ?_⟩
  case ldlB | nrmB => exact (effect_of_exec h).tag_eq_resultTag (List.mem_singleton_self d) rfl rfl fun _ => id
  case ldlD | nrmD =>
    exact (effect_of_exec h).tag_eq_resultTag (List.mem_singleton_self d) rfl rfl fun hinvalid => absurd hinvalid herr
  case clone =>
    cases hsource : s.reg r with
    | empty => exact absurd hsource hr
    | value u y =>
      have hdiffer : (Instr.clone d r).operandsDiffer = true := by simpa [Instr.operandsDiffer, Instr.mustDiffer] using hne
      exact (effect_of_exec h).tag_eq_resultTag (List.mem_singleton_self d) (congrArg VReg.tag hsource) hdiffer fun _ => hr
  all_goals
    simp only [List.mem_cons, List.not_mem_nil, or_false] at hi
    rcases hi with rfl | rfl | rfl | rfl | rfl | rfl | rfl | rfl | rfl <;>
      simp [Instr.writes, Instr.spoils, Instr.resultTag]

end Sys2Proof.Machine
end

section
/-! PROOFS. The invariant: what each update of the state asks for to keep it, that a command's words lie inside the program, and
the step (10_state.md R24 to R33, 70_reset_and_hazards.md R264). -/

namespace Sys2Proof.Machine

open Sys2Proof

/-! ### A decoded command lies inside the words it was decoded from (30_encoding.md R79, R80) -/

theorem decodeA_eq_ok {w : Word} {mk : VIx → Instr} {i : Instr} (h : decodeA w mk = .ok i) : ∃ d, i = mk d := by
  unfold decodeA at h
  split at h <;> cases h
  exact ⟨_, rfl⟩

theorem decodeAB_eq_ok {w : Word} {mk : VIx → VIx → Instr} {i : Instr} (h : decodeAB w mk = .ok i) :
    ∃ d r, i = mk d r := by
  unfold decodeAB at h
  split at h <;> cases h
  exact ⟨_, _, rfl⟩

theorem decodeAI_eq_ok {w : Word} {ext : List Word} {mk : VIx → Word → Instr} {i : Instr}
    (h : decodeAI w ext mk = .ok i) : ∃ d x, i = mk d x := by
  cases ext with
  | nil => cases h
  | cons x _ =>
    obtain ⟨d, rfl⟩ := decodeA_eq_ok h
    exact ⟨d, x, rfl⟩

theorem decodeAN_eq_ok {w : Word} {ext : List Word} {mk : VIx → Word → List Word → Instr} {i : Instr}
    (h : decodeAN w ext mk = .ok i) : ∃ d x limbs, i = mk d x limbs ∧ limbs.length ≤ (nField w).toNat := by
  cases ext with
  | nil => cases h
  | cons x limbs =>
    obtain ⟨d, rfl⟩ := decodeA_eq_ok h
    exact ⟨d, x, _, rfl, List.length_take_le _ limbs⟩

theorem decodeF_eq_ok {ext : List Word} {i : Instr} (h : decodeF ext = .ok i) : ∃ spec, i = .ldfs spec := by
  unfold decodeF at h
  split at h
  · split at h <;> cases h
    exact ⟨_, rfl⟩
  · cases h

/-- A command is no longer than its command word announces (30_encoding.md R80). -/
theorem length_le_of_decodeOperands {o : Opcode} {w : Word} {ext : List Word} {i : Instr}
    (h : decodeOperands o w ext = .ok i) : i.length ≤ o.format.words w := by
  cases o with
  | nop => cases h; exact le_rfl
  | ldfs => obtain ⟨_, rfl⟩ := decodeF_eq_ok h; exact le_rfl
  | ldlB | ldlD | shift => obtain ⟨_, _, rfl⟩ := decodeAI_eq_ok h; exact le_rfl
  | nrmB | nrmD =>
    obtain ⟨_, _, _, rfl, hlimbs⟩ := decodeAN_eq_ok h
    exact Nat.add_le_add_right hlimbs 2
  | mov | clone | cmp | add | sub | mul => obtain ⟨_, _, rfl⟩ := decodeAB_eq_ok h; exact le_rfl
  | free | isZero | round => obtain ⟨_, rfl⟩ := decodeA_eq_ok h; exact le_rfl

/-- A decoded command lies inside the word list (30_encoding.md R79). -/
theorem length_le_of_decode {ws : List Word} {i : Instr} (h : decode ws = .ok i) : i.length ≤ ws.length := by
  cases ws with
  | nil => cases h
  | cons w ext =>
    unfold decode at h
    dsimp only at h
    split at h
    · cases h
    · next o _ =>
      split_ifs at h with _ hlength
      have hwords := length_le_of_decodeOperands h
      rw [List.length_cons]
      omega

/-! ### The updates that keep the invariant -/

/-- ISZERO leaves LT, EQ and GT (10_state.md R32). -/
theorem Flags.atMostOne_withZero (f : Flags) (z : Bool) : (f.withZero z).atMostOne = f.atMostOne := rfl

/-- CMP sets one of LT, EQ and GT (10_state.md R32). -/
theorem Flags.atMostOne_withOrdering (f : Flags) (o : Ordering) : (f.withOrdering o).atMostOne = true := by
  cases o <;> rfl

namespace State.Inv

variable {s : State}

theorem reset : State.reset.Inv where
  memory := reset_memory_wf
  programFits := by decide
  runningPc := by decide
  donePc := by decide
  faultedPc := by decide
  errWhenFaulted := by decide
  errOfUnit := by decide
  flagsExclusive := by decide
  noFloatSpec := by decide

theorem setReg (h : s.Inv) (i : VIx) {x : VReg} (hx : x.legal = true) : (s.setReg i x).Inv :=
  { h with memory := State.setReg_keeps_wf s i x hx h.memory }

theorem setValue (h : s.Inv) (i : VIx) {u : Radix} {x : BigFloat} (hx : legalValue u x = true) :
    (s.setReg i (.value u x)).Inv := h.setReg i hx

theorem setEmpty (h : s.Inv) (i : VIx) : (s.setReg i .empty).Inv := h.setReg i rfl

theorem withOracle (h : s.Inv) (o : Oracle) : (s.withOracle o).Inv := { h with }

theorem withHost (h : s.Inv) (host : List (Option HostAction)) : (s.withHost host).Inv := { h with }

theorem withFlags (h : s.Inv) {f : Flags} (hf : f.atMostOne = true) : (s.withFlags f).Inv :=
  { h with flagsExclusive := hf }

theorem loadFloatSpec (h : s.Inv) (spec : FloatSpec) : (s.loadFloatSpec spec).Inv :=
  { h with noFloatSpec := by simp }

/-- Outside FAULTED, ERR is 0 (10_state.md R33). -/
theorem err_eq_none (h : s.Inv) (hrun : s.run ≠ .faulted) : s.err = .none :=
  not_not.1 (mt h.errWhenFaulted.1 hrun)

/-- PC moves on inside the program (10_state.md R29). -/
theorem advance (h : s.Inv) (hrun : s.run = .running) {n : Nat} (hn : s.pc.toNat + n ≤ s.prog.length) :
    (s.advance n).Inv := by
  have hfits := h.programFits
  have hpc : (s.advance n).pc.toNat = s.pc.toNat + n := by
    rw [State.advance_pc, BitVec.toNat_add, BitVec.toNat_ofNat]
    omega
  exact
    { h with
      runningPc := fun _ => hpc ▸ hn
      donePc := by simp [hrun]
      faultedPc := by simp [hrun] }

/-- Fault entry at a command of the program (60_exceptions.md R240). -/
theorem raise (h : s.Inv) (hpc : s.pc.toNat < s.prog.length) {code : FaultCode} (hcode : code ≠ .none)
    (hunit : code.ofUnit = true) : (s.raise code).Inv :=
  { h with
    runningPc := by simp
    donePc := by simp
    faultedPc := fun _ => ⟨rfl, hpc⟩
    errWhenFaulted := by simpa using hcode
    errOfUnit := hunit }

theorem endRun (h : s.Inv) (hrun : s.run = .running) (hpc : s.pc.toNat = s.prog.length) : s.endRun.Inv :=
  { h with
    runningPc := by simp
    donePc := fun _ => hpc
    faultedPc := by simp
    errWhenFaulted := by simp [h.err_eq_none (by simp [hrun])] }

theorem clearError (h : s.Inv) : s.clearError.Inv := by
  rcases State.clearError_cases s with ⟨_, he⟩ | ⟨_, he⟩ <;> rw [he]
  · exact
      { h with
        runningPc := by simp
        donePc := by simp
        faultedPc := by simp
        errWhenFaulted := by simp
        errOfUnit := rfl }
  · exact h

theorem launch (h : s.Inv) {p : List Word} (hp : p.length < 4294967296) : (s.launch p).Inv := by
  rcases State.launch_cases s p with ⟨hrun, he⟩ | ⟨_, he⟩ <;> rw [he]
  · have hnone : s.err = .none := h.err_eq_none (by rcases hrun with hrun | hrun <;> simp [hrun])
    exact
      { h with
        programFits := hp
        runningPc := by simp
        donePc := by simp
        faultedPc := by simp
        errWhenFaulted := by simp [hnone] }
  · exact h

theorem hostReset : s.hostReset.Inv := { reset with }

/-! ### The step keeps the invariant -/

/-- A command that lies inside the program keeps the invariant. -/
theorem of_effect (h : s.Inv) (hrun : s.run = .running) {i : Instr} (hlength : s.pc.toNat + i.length ≤ s.prog.length)
    {t : State} (heffect : CommandEffect s i t) : t.Inv := by
  have hpc : s.pc.toNat < s.prog.length := by
    have := i.length_pos
    omega
  cases heffect with
  | refuse hcause => rcases CommandEffect.code_of_refuses hcause with rfl | rfl <;> exact h.raise hpc (by simp) rfl
  | @spoil _ d u code o hd hu hcode =>
    have hspoiled := ((h.withOracle o).setValue d (Oracle.unspecified_legal o u)).withOracle o.afterUnspec
    rcases hcode with rfl | rfl <;> exact hspoiled.raise hpc (by simp) rfl
  | @write _ d u x o hd hu hx => exact ((h.withOracle o).setValue d (hx h.memory)).advance hrun hlength
  | nop => exact h.advance hrun hlength
  | ldfs => exact (h.loadFloatSpec _).advance hrun hlength
  | mov hr =>
    have hx := legalValue_of_reg s _ _ _ h.memory hr
    exact ((h.setValue _ hx).setEmpty _).advance hrun hlength
  | free => exact (h.setEmpty _).advance hrun hlength
  | @isZero _ z => exact (h.withFlags ((Flags.atMostOne_withZero s.flags z).trans h.flagsExclusive)).advance hrun hlength
  | cmp => exact (h.withFlags (Flags.atMostOne_withOrdering _ _)).advance hrun hlength

/-- The unit's own step keeps the invariant (46_system.md R202). -/
theorem of_unitStep (h : s.Inv) {t : State} (hstep : unitStep s = .next t) : t.Inv := by
  unfold unitStep at hstep
  split at hstep
  · next hrun =>
    unfold runCommand at hstep
    rcases State.fetch_cases s with ⟨hpc, hfetch⟩ | ⟨_, hfetch⟩ | ⟨hpc, hfetch⟩ <;> rw [hfetch] at hstep
    · cases hstep
      exact h.endRun hrun hpc
    · cases hstep
    · dsimp only at hstep
      split at hstep
      · next i hdecode =>
        have hlength := length_le_of_decode hdecode
        rw [List.length_drop] at hlength
        exact h.of_effect hrun (by omega) (effect_of_exec hstep)
      · cases hstep
        exact h.raise hpc (by simp) rfl
  all_goals
    cases hstep
    exact h

/-- A host action keeps the invariant (60_exceptions.md R247). -/
theorem of_hostAct (h : s.Inv) {a : HostAction} {t : State} (hact : hostAct a s = .next t) : t.Inv := by
  cases a with
  | reset => cases hact; exact hostReset
  | start p =>
    unfold hostAct at hact
    dsimp only at hact
    split_ifs at hact with hp
    cases hact
    exact h.launch hp
  | clrerr => cases hact; exact h.clearError

/-- A step keeps the invariant, whatever the host's schedule says for it. -/
theorem of_step (h : s.Inv) {t : State} (hstep : step s = .next t) : t.Inv := by
  unfold step stepScheduled at hstep
  split at hstep
  · exact (h.withHost _).of_hostAct hstep
  · exact (h.withHost _).of_unitStep hstep
  · exact h.of_unitStep hstep

end State.Inv

/-- Settles O18: the table of R37 meets each clause. -/
theorem resetMeetsTheInvariant : Obligations.ResetMeetsTheInvariant := State.Inv.reset

/-- Settles O19: every step keeps the invariant, whose limb store holds only legal values. -/
theorem stepKeepsTheInvariant : Obligations.StepKeepsTheInvariant := by
  intro s t hinv hstep
  have ht := hinv.of_step hstep
  exact ⟨ht, fun i u x hx => (legalValue_iff u x).1 (legalValue_of_reg t i u x ht.memory hx)⟩

/-! ### Fixed states, draws and what the host reads -/

/-- Settles O17: each line of the table. -/
theorem resetStateIsTheTable : Obligations.ResetStateIsTheTable :=
  ⟨by decide, rfl, rfl, rfl, rfl, rfl, rfl, rfl, rfl, rfl⟩

/-- The first fixed draw of a legal value is that value (10_state.md R38). -/
theorem Oracle.unspecified_of_cons {o : Oracle} {t : Radix} {u : BigFloat} {vs : List BigFloat}
    (ho : o.unspec = u :: vs) (hu : legalValue t u = true) : o.unspecified t = u := by
  rw [Oracle.unspecified, ho]
  exact legalized_of_legal t u hu

/-- Settles O16: a draw is legal, and a legal value is the draw that it is itself. -/
theorem unspecifiedDestinationIsAnyLegalValue : Obligations.UnspecifiedDestinationIsAnyLegalValue := by
  intro s code d t
  refine ⟨⟨s.oracle.unspecified t, Oracle.unspecified_legal s.oracle t, rfl⟩, fun u hu => ?_⟩
  refine ⟨{ alloc := [], either := [], unspec := [u], taken := 0 }, ?_⟩
  rw [State.reg_raiseInto, if_pos rfl, Oracle.unspecified_of_cons rfl hu]

/-- The number of two words side by side. -/
theorem toNat_append_eq_add {m n : Nat} (x : BitVec m) (y : BitVec n) : (x ++ y).toNat = 2 ^ n * x.toNat + y.toNat := by
  rw [BitVec.toNat_append, ← Nat.shiftLeft_add_eq_or_of_lt y.isLt, Nat.shiftLeft_eq, Nat.mul_comm]

/-- STATUS as a number: RUN, ERR from bit 4 on, FSV at bit 8 (10_state.md R33). -/
theorem toNat_statusWord (s : State) :
    s.statusWord.toNat = s.run.code.toNat + 16 * s.err.code.toNat + 256 * s.fsv.toNat := by
  simp only [State.statusWord, toNat_append_eq_add, BitVec.toNat_ofBool, BitVec.toNat_ofNat]
  omega

/-- FLAGS as a number: Z, LT, EQ, GT from bit 0 on (10_state.md R32). -/
theorem toNat_flagsWord (f : Flags) :
    f.word.toNat = f.z.toNat + 2 * f.lt.toNat + 4 * f.eq.toNat + 8 * f.gt.toNat := by
  simp only [Flags.word, toNat_append_eq_add, BitVec.toNat_ofBool]
  omega

/-- Settles O28: the words as sums of their fields, and each field's code. -/
theorem statusAndFlagsReadAsLaidOut : Obligations.StatusAndFlagsReadAsLaidOut := by
  intro s
  rw [toNat_statusWord, toNat_flagsWord]
  constructor
  · congr 1
    · congr 1
      · cases s.run <;> rfl
      · cases s.err <;> rfl
    · cases s.fsv <;> rfl
  · cases s.flags.z <;> cases s.flags.lt <;> cases s.flags.eq <;> cases s.flags.gt <;> rfl

end Sys2Proof.Machine
end

section
/-! PROOFS. What a command asks of the allocator, and that OutOfMemory is the allocator's refusal and nothing else
(20_memory.md R58). -/

namespace Sys2Proof.Machine

open Sys2Proof

/-! ### The draws that are not the allocator's -/

@[simp] theorem Oracle.afterEither_alloc (o : Oracle) : o.afterEither.alloc = o.alloc := by
  unfold Oracle.afterEither
  split <;> rfl

@[simp] theorem Oracle.afterUnspec_alloc (o : Oracle) : o.afterUnspec.alloc = o.alloc := by
  unfold Oracle.afterUnspec
  split <;> rfl

/-- The end of a delivering command can only raise IntegerOverflow (10_state.md R31). -/
theorem State.deliver_err_ne_outOfMemory {s : State} {d : VIx} {u : Radix} {x : BigFloat} {plp : Int} {pnd n : Nat}
    (hs : s.err ≠ .outOfMemory) : (s.deliver d u x plp pnd n).err ≠ .outOfMemory := by
  rcases State.deliver_cases s d u x plp pnd n with ⟨_, _, h⟩ | ⟨_, h⟩ | ⟨_, _, _, h⟩ | ⟨_, _, _, h⟩ <;> rw [h]
  · exact hs
  · simp
  · simp
  · exact hs

/-! ### How a command uses the allocator -/

/-- `AllocatorUse s i t`: in going from `s` to `t`, `i` runs out of memory only where the allocator it asks refuses, and a
command that does not allocate asks for nothing (20_memory.md R58). -/
structure AllocatorUse (s : State) (i : Instr) (t : State) : Prop where
  allocFails_of_err : t.err = .outOfMemory → i.allocates = true ∧ s.oracle.allocFails = true
  alloc_eq : i.allocates = false → t.oracle.alloc = s.oracle.alloc

namespace AllocatorUse

variable {s t : State} {i : Instr} {d r : VIx} {u : Radix}

/-- The allocator is not asked, whether the command may ask it or not. -/
theorem unasked (herr : t.err ≠ .outOfMemory) (halloc : t.oracle.alloc = s.oracle.alloc) : AllocatorUse s i t :=
  ⟨fun h => absurd h herr, fun _ => halloc⟩

theorem illegalCommand : AllocatorUse s i (s.raise .illegalCommand) := unasked (by simp) rfl

theorem invalidOperand : AllocatorUse s i (s.raise .invalidOperand) := unasked (by simp) rfl

/-- The one place where OutOfMemory is raised: what follows an answered allocation must not raise it. -/
theorem allocating {rest : State → State} (hi : i.allocates = true)
    (hrest : ∀ o : Oracle, (rest (s.withOracle o)).err ≠ .outOfMemory) : AllocatorUse s i (s.allocating d u rest) := by
  refine ⟨fun herr => ⟨hi, ?_⟩, fun hno => absurd hi (by simp [hno])⟩
  rcases State.allocating_cases s d u rest with ⟨hfails, _⟩ | ⟨_, h⟩
  · exact hfails
  · exact absurd (h ▸ herr) (hrest _)

theorem distinct {rest : State → State} (hrest : AllocatorUse s i (rest s)) : AllocatorUse s i (s.distinct d r rest) := by
  rcases State.distinct_cases s d r rest with ⟨_, h⟩ | ⟨_, h⟩ <;> rw [h]
  · exact illegalCommand
  · exact hrest

theorem withValue {rest : Radix → BigFloat → State} (hrest : ∀ u x, AllocatorUse s i (rest u x)) :
    AllocatorUse s i (s.withValue r rest) := by
  rcases State.withValue_cases s r rest with ⟨_, h⟩ | ⟨u, x, _, h⟩ <;> rw [h]
  · exact invalidOperand
  · exact hrest u x

theorem withPair {rest : Radix → BigFloat → BigFloat → State} (hrest : ∀ u x y, AllocatorUse s i (rest u x y)) :
    AllocatorUse s i (s.withPair d r rest) := by
  rcases State.withPair_cases s d r rest with ⟨_, h⟩ | ⟨u, x, y, _, _, h⟩ <;> rw [h]
  · exact invalidOperand
  · exact hrest u x y

/-! ### Each command's use -/

/-- A command that computes no value into a register takes no draw at all. -/
theorem of_spoils_eq_nil (heffect : CommandEffect s i t) (hi : i.spoils = []) (hs : s.err ≠ .outOfMemory) :
    AllocatorUse s i t := by
  cases heffect with
  | refuse hcause =>
    rcases CommandEffect.code_of_refuses hcause with rfl | rfl
    · exact illegalCommand
    · exact invalidOperand
  | spoil hd | write hd => simp [hi] at hd
  | nop | ldfs | mov | free | isZero | cmp => exact unasked hs rfl

/-- LDL.B and LDL.D (40_construct_move.md R101, R102). -/
theorem loadLimb {limb : Word} (hi : i.allocates = true) (hs : s.err ≠ .outOfMemory) :
    AllocatorUse s i (s.loadLimb u d limb) := by
  unfold State.loadLimb
  split
  · exact allocating hi fun _ => hs
  · exact invalidOperand

/-- NRM.B and NRM.D (42_normalize_shift.md R146, R147). -/
theorem loadGrid {place : Word} {limbs : List Word} (hi : i.allocates = true) (hs : s.err ≠ .outOfMemory) :
    AllocatorUse s i (s.loadGrid u d place limbs) := by
  unfold State.loadGrid
  split
  · exact allocating hi fun _ => State.deliver_err_ne_outOfMemory hs
  · exact invalidOperand

/-- SHIFT moves the value in place: its only draws are the either-outcome one and `Unspec_t` (42_normalize_shift.md R145). -/
theorem shiftValue {x : BigFloat} {off : Int} (hs : s.err ≠ .outOfMemory) :
    AllocatorUse s i (s.shiftValue d u x off) := by
  unfold State.shiftValue
  split_ifs
  · exact unasked (by simp) (by simp)
  · exact unasked hs (by simp)
  · exact unasked hs rfl
  · exact unasked (by simp) (by simp)
  · exact unasked (by simp) (by simp)
  · exact unasked hs rfl

/-- ADD (41_add_sub.md R121). -/
theorem add (hs : s.err ≠ .outOfMemory) (h : execAdd d r s = .next t) : AllocatorUse s (.add d r) t := by
  cases h
  refine distinct (withPair fun u x y => allocating rfl fun _ => ?_)
  split_ifs
  · exact hs
  · exact hs
  · exact State.deliver_err_ne_outOfMemory hs

/-- SUB (41_add_sub.md R125, R126): the comparison comes before the allocation. -/
theorem sub (hs : s.err ≠ .outOfMemory) (h : execSub d r s = .next t) : AllocatorUse s (.sub d r) t := by
  cases h
  refine distinct (withPair fun u x y => ?_)
  split
  · exact invalidOperand
  · refine allocating rfl fun _ => ?_
    split_ifs <;> exact hs
  · refine allocating rfl fun _ => ?_
    split_ifs
    · exact hs
    · exact State.deliver_err_ne_outOfMemory hs

/-- MUL (44_multiply.md R170). -/
theorem mul (hs : s.err ≠ .outOfMemory) (h : execMul d r s = .next t) : AllocatorUse s (.mul d r) t := by
  cases h
  refine distinct (withPair fun u x y => allocating rfl fun _ => ?_)
  split_ifs
  · exact hs
  · exact State.deliver_err_ne_outOfMemory hs

/-- ROUND (45_round.md R180): the operand checks come before the allocation. -/
theorem round (hs : s.err ≠ .outOfMemory) (h : execRound d s = .next t) : AllocatorUse s (.round d) t := by
  cases h
  refine withValue fun u x => ?_
  cases u with
  | dec => exact invalidOperand
  | bin =>
    dsimp only
    split
    · exact invalidOperand
    · refine allocating rfl fun _ => ?_
      split_ifs
      · exact hs
      · exact hs
      · exact hs
      · exact State.deliver_err_ne_outOfMemory hs

/-- The use of each of the sixteen commands. -/
theorem of_exec (hs : s.err ≠ .outOfMemory) (h : exec i s = .next t) : AllocatorUse s i t := by
  cases i with
  | nop | ldfs | mov | free | isZero | cmp => exact of_spoils_eq_nil (effect_of_exec h) rfl hs
  | ldlB | ldlD => cases h; exact loadLimb rfl hs
  | nrmB | nrmD => cases h; exact loadGrid rfl hs
  | clone d r => cases h; exact distinct (withValue fun _ _ => allocating rfl fun _ => hs)
  | shift d offset => cases h; exact withValue fun _ _ => shiftValue hs
  | add d r => exact add hs h
  | sub d r => exact sub hs h
  | mul d r => exact mul hs h
  | round d => exact round hs h

end AllocatorUse

/-- Settles O26: each clause from the command's use of the allocator. -/
theorem onlyFailedAllocationsRunOutOfMemory : Obligations.OnlyFailedAllocationsRunOutOfMemory := by
  intro i s t _ hs hexec
  have huse : AllocatorUse s i t := .of_exec (by simp [hs]) hexec
  refine ⟨fun hno => ⟨fun herr => ?_, huse.alloc_eq hno⟩, fun _ hanswers herr => ?_, huse.allocFails_of_err⟩
  · obtain ⟨hallocates, -⟩ := huse.allocFails_of_err herr
    simp [hno] at hallocates
  · obtain ⟨-, hfails⟩ := huse.allocFails_of_err herr
    simp [hanswers] at hfails

end Sys2Proof.Machine
end

section
/-! PROOFS. A command word is its four fields, and the opcode map selects by them (30_encoding.md R71, R74 to R76). -/

namespace Sys2Proof

/-! ### The fields of a command word (30_encoding.md R71) -/

@[simp] theorem opField_commandWord (o : Opcode) (a b : BitVec 4) (n : BitVec 16) :
    opField (commandWord o a b n) = o.code := by
  simp (disch := omega) only [opField, commandWord, BitVec.extractLsb'_append_eq_of_le, Nat.reduceSub,
    BitVec.extractLsb'_eq_self]

@[simp] theorem aField_commandWord (o : Opcode) (a b : BitVec 4) (n : BitVec 16) :
    aField (commandWord o a b n) = a := by
  simp (disch := omega) only [aField, commandWord, BitVec.extractLsb'_append_eq_of_le,
    BitVec.extractLsb'_append_eq_of_add_le, Nat.reduceSub, BitVec.extractLsb'_eq_self]

@[simp] theorem bField_commandWord (o : Opcode) (a b : BitVec 4) (n : BitVec 16) :
    bField (commandWord o a b n) = b := by
  simp (disch := omega) only [bField, commandWord, BitVec.extractLsb'_append_eq_of_le,
    BitVec.extractLsb'_append_eq_of_add_le, Nat.reduceSub, BitVec.extractLsb'_eq_self]

@[simp] theorem nField_commandWord (o : Opcode) (a b : BitVec 4) (n : BitVec 16) :
    nField (commandWord o a b n) = n := by
  simp (disch := omega) only [nField, commandWord, BitVec.extractLsb'_append_eq_of_add_le, BitVec.extractLsb'_eq_self]

/-- The four fields leave out no bit of a word. -/
theorem fields_append (w : Word) : opField w ++ aField w ++ bField w ++ nField w = w := by
  have ha : opField w ++ aField w = w.extractLsb' 20 12 := BitVec.extractLsb'_append_extractLsb'_eq_extractLsb' rfl
  have hb : w.extractLsb' 20 12 ++ bField w = w.extractLsb' 16 16 :=
    BitVec.extractLsb'_append_extractLsb'_eq_extractLsb' rfl
  have hn : w.extractLsb' 16 16 ++ nField w = w.extractLsb' 0 32 :=
    BitVec.extractLsb'_append_extractLsb'_eq_extractLsb' rfl
  rw [ha, hb, hn, BitVec.extractLsb'_eq_self]

theorem word_eq_iff_fields (w x : Word) :
    w = x ↔ opField w = opField x ∧ aField w = aField x ∧ bField w = bField x ∧ nField w = nField x := by
  refine ⟨by rintro rfl; simp, fun ⟨hop, ha, hb, hn⟩ => ?_⟩
  rw [← fields_append w, hop, ha, hb, hn, fields_append]

theorem word_eq_zero_iff_fields (w : Word) :
    w = 0#32 ↔ opField w = 0#8 ∧ aField w = 0#4 ∧ bField w = 0#4 ∧ nField w = 0#16 := word_eq_iff_fields w 0#32

/-- A word is the command word of its fields. -/
theorem eq_commandWord {w : Word} {o : Opcode} {a b : BitVec 4} {n : BitVec 16} (hop : opField w = o.code)
    (ha : aField w = a) (hb : bField w = b) (hn : nField w = n) : w = commandWord o a b n := by
  simp [word_eq_iff_fields w, hop, ha, hb, hn]

@[simp] theorem opField_and (w x : Word) : opField (w &&& x) = opField w &&& opField x := BitVec.extractLsb'_and
@[simp] theorem aField_and (w x : Word) : aField (w &&& x) = aField w &&& aField x := BitVec.extractLsb'_and
@[simp] theorem bField_and (w x : Word) : bField (w &&& x) = bField w &&& bField x := BitVec.extractLsb'_and
@[simp] theorem nField_and (w x : Word) : nField (w &&& x) = nField w &&& nField x := BitVec.extractLsb'_and
@[simp] theorem opField_or (w x : Word) : opField (w ||| x) = opField w ||| opField x := BitVec.extractLsb'_or
@[simp] theorem aField_or (w x : Word) : aField (w ||| x) = aField w ||| aField x := BitVec.extractLsb'_or
@[simp] theorem bField_or (w x : Word) : bField (w ||| x) = bField w ||| bField x := BitVec.extractLsb'_or
@[simp] theorem nField_or (w x : Word) : nField (w ||| x) = nField w ||| nField x := BitVec.extractLsb'_or

/-! ### The opcode map (30_encoding.md R74 to R76) -/

theorem opcodeOf_eq_none_iff (c : BitVec 8) : opcodeOf c = none ↔ ∀ o ∈ opcodeRows, o.code ≠ c := by
  simp [opcodeOf]

@[simp] theorem opcodeOf_code (o : Opcode) : opcodeOf o.code = some o := by cases o <;> rfl

theorem opcodeOf_eq_some_iff (c : BitVec 8) (o : Opcode) : opcodeOf c = some o ↔ c = o.code := by
  refine ⟨fun h => ?_, fun h => h ▸ opcodeOf_code o⟩
  have hfound := List.find?_some h
  exact (by simpa using hfound : o.code = c).symm

theorem Opcode.matchWord_eq_commandWord (o : Opcode) : o.matchWord = commandWord o 0#4 0#4 0#16 := by
  cases o <;> rfl

/-- No must-be-zero bit lies in the `op` field. -/
theorem opField_zeroMask (fmt : Format) : opField fmt.zeroMask = 0#8 := by cases fmt <;> rfl

theorem and_fourOnes (x : BitVec 4) : x &&& 0xF#4 = x := BitVec.and_allOnes
theorem and_eightOnes (x : BitVec 8) : x &&& 0xFF#8 = x := BitVec.and_allOnes
theorem and_sixteenOnes (x : BitVec 16) : x &&& 0xFFFF#16 = x := BitVec.and_allOnes

/-- A row's match and mask select by `op` and the must-be-zero bits, field by field (30_encoding.md R74). -/
theorem and_matchMask_eq_matchWord_iff (o : Opcode) (w : Word) :
    w &&& o.matchMask = o.matchWord ↔ opField w = o.code ∧ w &&& o.format.zeroMask = 0#32 := by
  have hop : opField 0xFF000000#32 = 0xFF#8 := rfl
  have ha : aField 0xFF000000#32 = 0#4 := rfl
  have hb : bField 0xFF000000#32 = 0#4 := rfl
  have hn : nField 0xFF000000#32 = 0#16 := rfl
  simp [word_eq_zero_iff_fields, word_eq_iff_fields _ (commandWord _ _ _ _), Opcode.matchWord_eq_commandWord,
    Opcode.matchMask, opField_zeroMask, hop, ha, hb, hn, and_eightOnes]

/-- The fields a format does not use are zero: 30_encoding.md R72's dots, field by field. -/
def Format.UnusedFieldsZero : Format → Word → Prop
  | .z, w => aField w = 0#4 ∧ bField w = 0#4 ∧ nField w = 0#16
  | .a, w => bField w = 0#4 ∧ nField w = 0#16
  | .ab, w => nField w = 0#16
  | .ai, w => bField w = 0#4 ∧ nField w = 0#16
  | .an, w => bField w = 0#4
  | .f, w => aField w = 0#4 ∧ bField w = 0#4 ∧ nField w = 0#16

theorem and_zeroMask_eq_zero_iff (fmt : Format) (w : Word) : w &&& fmt.zeroMask = 0#32 ↔ fmt.UnusedFieldsZero w := by
  rw [word_eq_zero_iff_fields, opField_and, opField_zeroMask]
  cases fmt <;>
    simp [Format.zeroMask, Format.UnusedFieldsZero, opField, aField, bField, nField, BitVec.extractLsb'_and, and_fourOnes,
      and_sixteenOnes]

/-- Settles O4: the columns by evaluation, the selection by fields, and two rows with one `op` are one row. -/
theorem tableRowsSelectOneOpcode : Obligations.TableRowsSelectOneOpcode := by
  refine ⟨by decide, fun o w => ?_, fun o p w ho hp => ?_⟩
  · rw [and_matchMask_eq_matchWord_iff, opcodeOf_eq_some_iff]
  · obtain ⟨hop, _⟩ := (and_matchMask_eq_matchWord_iff o w).1 ho
    obtain ⟨hop', _⟩ := (and_matchMask_eq_matchWord_iff p w).1 hp
    have hrow := (opcodeOf_eq_some_iff _ p).2 hop'
    rw [(opcodeOf_eq_some_iff _ o).2 hop] at hrow
    exact Option.some.inj hrow

/-- Settles O5: an undefined opcode differs from every row's, and the rows' opcodes leave the listed gaps. -/
theorem undefinedOpcodesAreTheListedOnes : Obligations.UndefinedOpcodesAreTheListedOnes := by
  intro c
  rw [opcodeOf_eq_none_iff]
  simp only [opcodeRows, List.forall_mem_cons, List.not_mem_nil, false_implies, implies_true, and_true, ne_eq,
    Opcode.code]
  bv_omega

end Sys2Proof
end

section
/-! PROOFS. Decoding and encoding are inverse: each format's decoder finds exactly the words its encoder writes (30_encoding.md
R70 to R85). -/

namespace Sys2Proof

/-! ### Registers and FloatSpecs as fields (30_encoding.md R71, R73, R77) -/

theorem regOf_eq_some_iff (x : BitVec 4) (d : VIx) : regOf x = some d ↔ x = regField d := by
  have hlt : d.val < 16 := d.isLt.trans (by decide)
  have hd : (regField d).toNat = d.val := by simp [regField, Nat.mod_eq_of_lt hlt]
  rw [← BitVec.toNat_inj, hd, regOf]
  split
  · simp [Fin.ext_iff]
  · next hx => exact iff_of_false (by simp) fun heq => hx (heq ▸ d.isLt)

theorem ofBool_getLsbD (w : Word) (i : Nat) : BitVec.ofBool (w.getLsbD i) = w.extractLsb' i 1 := by
  ext j hj
  obtain rfl : j = 0 := by omega
  simp

theorem unpackFloatSpec_packFloatSpec (spec : FloatSpec) : unpackFloatSpec (packFloatSpec spec) spec.e1 = spec := by
  obtain ⟨m, eb, e1, den, nan⟩ := spec
  simp (disch := omega) only [unpackFloatSpec, packFloatSpec, BitVec.extractLsb'_append_eq_of_le,
    BitVec.extractLsb'_append_eq_of_add_le, BitVec.extractLsb'_eq_self, BitVec.getLsbD_append, BitVec.getLsbD_ofBool,
    Nat.reduceSub, Nat.reduceLT]
  simp

theorem floatSpecReservedBits_packFloatSpec (spec : FloatSpec) : floatSpecReservedBits (packFloatSpec spec) = 0#6 := by
  simp (disch := omega) only [floatSpecReservedBits, packFloatSpec, BitVec.extractLsb'_append_eq_of_le,
    BitVec.extractLsb'_append_eq_of_add_le, Nat.reduceSub, BitVec.extractLsb'_eq_self]

/-- With its reserved bits zero, `FS0` holds no bit beside the FloatSpec's. -/
theorem packFloatSpec_unpackFloatSpec {fs0 : Word} (fs1 : Word) (h : floatSpecReservedBits fs0 = 0#6) :
    packFloatSpec (unpackFloatSpec fs0 fs1) = fs0 := by
  have hbools : fs0.extractLsb' 31 1 ++ fs0.extractLsb' 30 1 = fs0.extractLsb' 30 2 :=
    BitVec.extractLsb'_append_extractLsb'_eq_extractLsb' rfl
  have hreserved : fs0.extractLsb' 30 2 ++ fs0.extractLsb' 24 6 = fs0.extractLsb' 24 8 :=
    BitVec.extractLsb'_append_extractLsb'_eq_extractLsb' rfl
  have heb : fs0.extractLsb' 24 8 ++ fs0.extractLsb' 16 8 = fs0.extractLsb' 16 16 :=
    BitVec.extractLsb'_append_extractLsb'_eq_extractLsb' rfl
  have hm : fs0.extractLsb' 16 16 ++ fs0.extractLsb' 0 16 = fs0.extractLsb' 0 32 :=
    BitVec.extractLsb'_append_extractLsb'_eq_extractLsb' rfl
  simp only [packFloatSpec, unpackFloatSpec, ofBool_getLsbD]
  rw [← h, floatSpecReservedBits, hbools, hreserved, heb, hm, BitVec.extractLsb'_eq_self]

/-! ### What each format's decoder finds (30_encoding.md R72, R81) -/

theorem decodeA_eq_ok_iff {w : Word} {mk : VIx → Instr} {i : Instr} :
    decodeA w mk = .ok i ↔ ∃ d, aField w = regField d ∧ i = mk d := by
  unfold decodeA
  simp only [← regOf_eq_some_iff]
  cases regOf (aField w) <;> simp [eq_comm]

theorem decodeAB_eq_ok_iff {w : Word} {mk : VIx → VIx → Instr} {i : Instr} :
    decodeAB w mk = .ok i ↔ ∃ d r, aField w = regField d ∧ bField w = regField r ∧ i = mk d r := by
  unfold decodeAB
  simp only [← regOf_eq_some_iff]
  cases regOf (aField w) <;> cases regOf (bField w) <;> simp [eq_comm]

theorem decodeAI_eq_ok_iff {w : Word} {ext : List Word} {mk : VIx → Word → Instr} {i : Instr} :
    decodeAI w ext mk = .ok i ↔ ∃ d imm rest, ext = imm :: rest ∧ aField w = regField d ∧ i = mk d imm := by
  cases ext <;> simp [decodeAI, decodeA_eq_ok_iff]

theorem decodeAN_eq_ok_iff {w : Word} {ext : List Word} {mk : VIx → Word → List Word → Instr} {i : Instr} :
    decodeAN w ext mk = .ok i ↔
      ∃ d place rest, ext = place :: rest ∧ aField w = regField d ∧ i = mk d place (rest.take (nField w).toNat) := by
  cases ext <;> simp [decodeAN, decodeA_eq_ok_iff]

theorem decodeF_eq_ok_iff {ext : List Word} {i : Instr} :
    decodeF ext = .ok i ↔ ∃ spec rest, ext = packFloatSpec spec :: spec.e1 :: rest ∧ i = .ldfs spec := by
  constructor
  · intro h
    unfold decodeF at h
    split at h
    · next fs0 fs1 rest =>
      split_ifs at h with hreserved
      cases h
      exact ⟨_, rest, by rw [packFloatSpec_unpackFloatSpec fs1 hreserved]; rfl, rfl⟩
    · cases h
  · rintro ⟨spec, rest, rfl, rfl⟩
    simp [decodeF, floatSpecReservedBits_packFloatSpec, unpackFloatSpec_packFloatSpec]

/-- Checks (1) to (3) of 30_encoding.md R81, then the operands'. -/
theorem decode_cons_eq_ok_iff {w : Word} {ext : List Word} {i : Instr} :
    decode (w :: ext) = .ok i ↔ ∃ o : Opcode, opField w = o.code ∧ o.format.UnusedFieldsZero w
      ∧ o.format.words w ≤ ext.length + 1 ∧ decodeOperands o w ext = .ok i := by
  simp only [← opcodeOf_eq_some_iff, ← and_zeroMask_eq_zero_iff, decode]
  cases opcodeOf (opField w) with
  | none => simp
  | some o =>
    simp only [Option.some.injEq, exists_eq_left', ne_eq, ite_not]
    split_ifs with hzero hlength
    · simp [hzero, Nat.not_le.2 hlength]
    · simp [hzero, Nat.not_lt.1 hlength]
    · simp [hzero]

/-! ### The round trips (30_encoding.md R71, R72, R75, R80, R85) -/

/-- The encoding of a command has the command's length (30_encoding.md R72, R80). -/
theorem length_encode (i : Instr) : (encode i).length = i.length := by
  open Laws.EncodeLength in
  cases i
  exacts [nop, ldfs _, ldlB _ _, ldlD _ _, nrmB _ _ _, nrmD _ _ _, mov _ _, clone _ _, free _, isZero _, cmp _ _, shift _ _,
    add _ _, sub _ _, mul _ _, round _]

/-- What is decoded is encoded by the words it was decoded from: the fields of the command word are those of the encoding, the
unused ones zero, and the words after it are the immediates. -/
theorem encode_of_decodeOperands {o : Opcode} {w : Word} {ext : List Word} {i : Instr} (hop : opField w = o.code)
    (hzero : o.format.UnusedFieldsZero w) (hwords : o.format.words w ≤ ext.length + 1)
    (h : decodeOperands o w ext = .ok i) : i.limbCountFits = true ∧ ∃ rest, encode i ++ rest = w :: ext := by
  cases o with
  | nop =>
    obtain ⟨ha, hb, hn⟩ := hzero
    cases h
    exact ⟨rfl, ext, by rw [eq_commandWord hop ha hb hn]; rfl⟩
  | ldfs =>
    obtain ⟨ha, hb, hn⟩ := hzero
    obtain ⟨spec, rest, rfl, rfl⟩ := decodeF_eq_ok_iff.1 h
    exact ⟨rfl, rest, by rw [eq_commandWord hop ha hb hn]; rfl⟩
  | free | isZero | round =>
    obtain ⟨hb, hn⟩ := hzero
    obtain ⟨d, ha, rfl⟩ := decodeA_eq_ok_iff.1 h
    exact ⟨rfl, ext, by rw [eq_commandWord hop ha hb hn]; rfl⟩
  | mov | clone | cmp | add | sub | mul =>
    obtain ⟨d, r, ha, hb, rfl⟩ := decodeAB_eq_ok_iff.1 h
    exact ⟨rfl, ext, by rw [eq_commandWord hop ha hb hzero]; rfl⟩
  | ldlB | ldlD | shift =>
    obtain ⟨hb, hn⟩ := hzero
    obtain ⟨d, imm, rest, rfl, ha, rfl⟩ := decodeAI_eq_ok_iff.1 h
    exact ⟨rfl, rest, by rw [eq_commandWord hop ha hb hn]; rfl⟩
  | nrmB | nrmD =>
    obtain ⟨d, place, rest, rfl, ha, rfl⟩ := decodeAN_eq_ok_iff.1 h
    have hcount : (rest.take (nField w).toNat).length = (nField w).toNat :=
      List.length_take_of_le (Nat.le_of_add_le_add_right (b := 2) hwords)
    have hn : nField w = BitVec.ofNat 16 (rest.take (nField w).toNat).length := by
      rw [hcount, BitVec.ofNat_toNat, BitVec.setWidth_eq]
    have hfits : (nField w).toNat ≤ maxLimbCount := Nat.le_of_lt_succ (nField w).isLt
    exact ⟨decide_eq_true (hcount.trans_le hfits), rest.drop (nField w).toNat,
      congrArg₂ List.cons (eq_commandWord hop ha hzero hn).symm (congrArg _ (List.take_append_drop _ rest))⟩

/-- Settles O2: the words are the encoding and what follows it, and the encoding is as long as the command. -/
theorem decodedWordsAreTheEncoding : Obligations.DecodedWordsAreTheEncoding := by
  intro ws i h
  have hlength := Machine.length_le_of_decode h
  cases ws with
  | nil => cases h
  | cons w ext =>
    obtain ⟨o, hop, hzero, hwords, hoperands⟩ := decode_cons_eq_ok_iff.1 h
    obtain ⟨hfits, rest, hrest⟩ := encode_of_decodeOperands hop hzero hwords hoperands
    exact ⟨hfits, hlength, by rw [← hrest, List.take_left' (length_encode i)]⟩

theorem decode_commandWord_eq_ok {o : Opcode} {a b : BitVec 4} {n : BitVec 16} {ext : List Word} {i : Instr}
    (hzero : o.format.UnusedFieldsZero (commandWord o a b n))
    (hwords : o.format.words (commandWord o a b n) ≤ ext.length + 1)
    (h : decodeOperands o (commandWord o a b n) ext = .ok i) : decode (commandWord o a b n :: ext) = .ok i :=
  decode_cons_eq_ok_iff.2 ⟨o, opField_commandWord o a b n, hzero, hwords, h⟩

/-- A limb count that fits is read back from the field `n` (30_encoding.md R70, R71). -/
theorem toNat_nField_wordAN (o : Opcode) (d : VIx) {n : Nat} (hn : n ≤ maxLimbCount) :
    (nField (wordAN o d n)).toNat = n := by
  rw [wordAN, nField_commandWord, BitVec.toNat_ofNat, Nat.mod_eq_of_lt (show n < 2 ^ 16 from Nat.lt_succ_of_le hn)]

/-- Settles O1, by format: each field of the encoding is read back, and the words after the command word are the immediates. -/
theorem decodeInvertsEncode : Obligations.DecodeInvertsEncode := by
  intro i rest hi
  cases i with
  | nop =>
    exact decode_commandWord_eq_ok ⟨aField_commandWord .., bField_commandWord .., nField_commandWord ..⟩
      (Nat.le_add_left 1 _) rfl
  | ldfs spec =>
    exact decode_commandWord_eq_ok ⟨aField_commandWord .., bField_commandWord .., nField_commandWord ..⟩
      (Nat.le_add_left 3 _) (decodeF_eq_ok_iff.2 ⟨spec, rest, rfl, rfl⟩)
  | free d | isZero d | round d =>
    exact decode_commandWord_eq_ok ⟨bField_commandWord .., nField_commandWord ..⟩ (Nat.le_add_left 1 _)
      (decodeA_eq_ok_iff.2 ⟨d, aField_commandWord .., rfl⟩)
  | mov d r | clone d r | cmp d r | add d r | sub d r | mul d r =>
    exact decode_commandWord_eq_ok (nField_commandWord ..) (Nat.le_add_left 1 _)
      (decodeAB_eq_ok_iff.2 ⟨d, r, aField_commandWord .., bField_commandWord .., rfl⟩)
  | ldlB d imm | ldlD d imm | shift d imm =>
    exact decode_commandWord_eq_ok ⟨bField_commandWord .., nField_commandWord ..⟩ (Nat.le_add_left 2 _)
      (decodeAI_eq_ok_iff.2 ⟨d, imm, rest, rfl, aField_commandWord .., rfl⟩)
  | nrmB d place limbs | nrmD d place limbs =>
    have hcount (o : Opcode) : (nField (wordAN o d limbs.length)).toNat = limbs.length :=
      toNat_nField_wordAN o d (of_decide_eq_true hi)
    have hlength (o : Opcode) : (nField (wordAN o d limbs.length)).toNat ≤ (limbs ++ rest).length := by simp [hcount o]
    exact decode_commandWord_eq_ok (bField_commandWord ..) (Nat.add_le_add_right (hlength _) 2) (decodeAN_eq_ok_iff.2
      ⟨d, place, limbs ++ rest, rfl, aField_commandWord .., congrArg _ (List.take_left' (hcount _).symm).symm⟩)

/-- Settles O3: each worked word list is the encoding of its command. -/
theorem workedEncodingsDecode : Obligations.WorkedEncodingsDecode := by
  have hoffset : BitVec.ofInt 32 (-150) = 0xFFFFFF6A#32 := by decide
  exact ⟨decodeInvertsEncode .nop [] rfl, decodeInvertsEncode (.round 3) [] rfl, decodeInvertsEncode (.add 2 1) [] rfl,
    decodeInvertsEncode (.cmp 2 0) [] rfl, decodeInvertsEncode (.ldlB 0 5#32) [] rfl,
    hoffset ▸ decodeInvertsEncode (.shift 1 0xFFFFFF6A#32) [] rfl,
    decodeInvertsEncode (.nrmB 0 0#32 [0xFFFFFFFF#32, 0xFFFFFFFF#32]) [] rfl,
    decodeInvertsEncode (.ldfs { m := 23#16, eb := 8#8, e1 := 127#32, den := true, nan := true }) [] rfl⟩

end Sys2Proof
end

section
/-! PROOFS. One register named twice (30_encoding.md R78). -/

namespace Sys2Proof.Machine

open Sys2Proof

variable (s : State)

theorem State.distinct_self (d : VIx) (rest : State → State) : s.distinct d d rest = s.raise .illegalCommand := if_pos rfl

theorem State.withPair_of_reg_eq {d r : VIx} {t : Radix} {a b : BigFloat} (hd : s.reg d = .value t a)
    (hr : s.reg r = .value t b) (rest : Radix → BigFloat → BigFloat → State) : s.withPair d r rest = rest t a b := by
  simp [State.withPair, operandPair, hd, hr]

theorem compareValues_self (t : Radix) (v : BigFloat) : compareValues t v v = .eq := compare_eq_iff_eq.2 rfl

/-- Settles O7: check (6) comes first in the five mutating commands, and a value compares equal to itself. -/
theorem aliasedOperandsRaiseIllegalCommand : Obligations.AliasedOperandsRaiseIllegalCommand := by
  intro d s
  have hdistinct (rest : State → State) :
      (.next (s.distinct d d rest) : Host.Outcome State Fault Refusal) = .next (s.raise .illegalCommand) :=
    congrArg _ (s.distinct_self d rest)
  refine ⟨hdistinct _, hdistinct _, hdistinct _, hdistinct _, hdistinct _, fun t v hv => ?_⟩
  rw [exec, execCmp, s.withPair_of_reg_eq hv hv, compareValues_self]
  rfl

end Sys2Proof.Machine
end

section
/-! PROOFS. The spellings of formats A and AB (30_encoding.md R71, R72), what a shared operation answers once its check is
decided, and the commands that construct, move, copy and free values (40_construct_move.md R101 to R107). -/

namespace Sys2Proof

/-! ### Command words as the spec writes them (30_encoding.md R71, R72) -/

/-- Formats A and AI: the two fields below the register are one run of twenty zero bits. -/
theorem wordA_eq_append (o : Opcode) (d : VIx) : wordA o d = o.code ++ BitVec.ofNat 4 d.val ++ 0#20 :=
  (BitVec.append_assoc (x₁ := o.code ++ regField d) (x₂ := 0#4) (x₃ := 0#16)).trans rfl

/-- Format AB: the two registers and a zero count. -/
theorem wordAB_eq_append (o : Opcode) (d r : VIx) :
    wordAB o d r = o.code ++ BitVec.ofNat 4 d.val ++ BitVec.ofNat 4 r.val ++ 0#16 := rfl

end Sys2Proof

namespace Sys2Proof.Machine

open Sys2Proof

variable {s : State}

/-! ### The shared operations once their check is decided -/

theorem State.allocating_of_allocFails (h : s.oracle.allocFails = true) (d : VIx) (t : Radix) (rest : State → State) :
    s.allocating d t rest = (s.withOracle s.oracle.afterAlloc).raiseInto .outOfMemory d t := if_pos h

theorem State.allocating_of_not_allocFails (h : s.oracle.allocFails = false) (d : VIx) (t : Radix)
    (rest : State → State) : s.allocating d t rest = rest (s.withOracle s.oracle.afterAlloc) :=
  if_neg (Bool.eq_false_iff.1 h)

theorem State.distinct_of_ne {d r : VIx} (h : d ≠ r) (rest : State → State) : s.distinct d r rest = rest s := if_neg h

theorem State.withValue_of_reg_eq {i : VIx} {t : Radix} {x : BigFloat} (h : s.reg i = .value t x)
    (rest : Radix → BigFloat → State) : s.withValue i rest = rest t x := by simp [State.withValue, h]

theorem State.withValue_of_reg_eq_empty {i : VIx} (h : s.reg i = .empty) (rest : Radix → BigFloat → State) :
    s.withValue i rest = s.raise .invalidOperand := by simp [State.withValue, h]

/-! ### The value of one limb (40_construct_move.md R101, R102) -/

/-- The canonical form of a limb has its low place inside the limb and no more digits than the limb. -/
theorem canon_limb_bounds (t : Radix) (x : Nat) (hlt : x < limbMod t) :
    0 ≤ (canon t x 0).lp ∧ (canon t x 0).lp < digitsPerLimb t ∧ (canon t x 0).nd ≤ digitsPerLimb t := by
  rcases eq_or_ne x 0 with rfl | hx
  · simp [BigFloat.zero, digitsPerLimb_pos t]
  have htz := tz_lt_digitsPerLimb t x hx hlt
  have hdigits : digitCount t (x / radixPow t (tz t x)) ≤ digitsPerLimb t := by
    rw [digitCount_le_iff, ← limbMod_eq]
    exact (Nat.div_le_self _ _).trans_lt hlt
  simp only [canon, if_neg hx]
  omega

/-- The canonical form of a limb has the limb's value. -/
theorem isCanon_limb (t : Radix) (x : Nat) : IsCanon t (x : ℚ) (canon t x 0) := by
  simpa using isCanon_canon t x 0

/-! ### Loading a limb (40_construct_move.md R101, R102) -/

theorem State.loadLimb_eq_complete {t : Radix} {limb : Word} (hlimb : limb.toNat < limbMod t)
    (h : s.oracle.allocFails = false) (d : VIx) :
    s.loadLimb t d limb = (s.withOracle s.oracle.afterAlloc).complete d t (canon t limb.toNat 0) 2 := by
  rw [State.loadLimb, if_pos ((isLimb_iff t limb).2 hlimb), State.allocating_of_not_allocFails h, zeroExtended,
    construct_eq_canon t _ hlimb]

theorem State.loadLimb_eq_outOfMemory {t : Radix} {limb : Word} (hlimb : limb.toNat < limbMod t)
    (h : s.oracle.allocFails = true) (d : VIx) :
    s.loadLimb t d limb = (s.withOracle s.oracle.afterAlloc).raiseInto .outOfMemory d t := by
  rw [State.loadLimb, if_pos ((isLimb_iff t limb).2 hlimb), State.allocating_of_allocFails h]

theorem State.loadLimb_eq_invalidOperand {t : Radix} {limb : Word} (hlimb : limbMod t ≤ limb.toNat) (d : VIx) :
    s.loadLimb t d limb = s.raise .invalidOperand :=
  if_neg (mt (isLimb_iff t limb).1 hlimb.not_gt)

/-- Settles O32: every word is a BIN limb, and `Canon_BIN` of it lies inside 32 digits. -/
theorem ldlBConstructsTheBinaryValue : Obligations.LdlBConstructsTheBinaryValue := by
  intro d x s
  obtain ⟨hplace, hplaceTop, hdigits⟩ := canon_limb_bounds .bin x.toNat x.isLt
  exact ⟨congrArg (· :: [x]) (wordA_eq_append .ldlB d),
    fun h => congrArg _ (State.loadLimb_eq_complete x.isLt h d),
    fun h => congrArg _ (State.loadLimb_eq_outOfMemory x.isLt h d),
    isCanon_limb .bin x.toNat, hplace, Int.le_of_lt_add_one hplaceTop, hdigits⟩

/-- Settles O33: below 10^8 as O32 with 8 digits, and from 10^8 on the limb check fails first. -/
theorem ldlDConstructsTheDecimalValue : Obligations.LdlDConstructsTheDecimalValue := by
  intro d x s
  refine ⟨congrArg (· :: [x]) (wordA_eq_append .ldlD d), fun hx => ?_,
    fun hx => congrArg _ (State.loadLimb_eq_invalidOperand (t := .dec) hx d)⟩
  obtain ⟨hplace, hplaceTop, hdigits⟩ := canon_limb_bounds .dec x.toNat hx
  exact ⟨fun h => congrArg _ (State.loadLimb_eq_complete hx h d),
    fun h => congrArg _ (State.loadLimb_eq_outOfMemory hx h d),
    isCanon_limb .dec x.toNat, hplace, Int.le_of_lt_add_one hplaceTop, hdigits⟩

/-! ### Moving, copying, freeing (40_construct_move.md R105 to R107) -/

/-- Settles O36, by what Vs holds. -/
theorem movTransfersTheValue : Obligations.MovTransfersTheValue := by
  intro d r s hne
  refine ⟨congrArg (· :: []) (wordAB_eq_append .mov d r), fun hfull => ?_, fun hempty => ?_⟩ <;>
    rw [exec, execMov, State.distinct_of_ne hne]
  · cases hr : s.reg r with
    | empty => exact absurd hr hfull
    | value t x => rw [State.withValue_of_reg_eq hr]; rfl
  · rw [State.withValue_of_reg_eq_empty hempty]

/-- Settles O37, by what Vs holds and the allocator's answer. -/
theorem cloneCopiesTheValue : Obligations.CloneCopiesTheValue := by
  intro d r s hne
  refine ⟨congrArg (· :: []) (wordAB_eq_append .clone d r), fun t x hr => ?_, fun hempty => ?_⟩ <;>
    rw [exec, execClone, State.distinct_of_ne hne]
  · rw [State.withValue_of_reg_eq hr]
    exact ⟨fun h => congrArg _ (State.allocating_of_not_allocFails h d t _),
      fun h => congrArg _ (State.allocating_of_allocFails h d t _)⟩
  · rw [State.withValue_of_reg_eq_empty hempty]

/-- Settles O38: FREE has no check, so it is one update of the state. -/
theorem freeEmptiesTheRegister : Obligations.FreeEmptiesTheRegister := by
  intro d s
  have hexec : exec (.free d) s = .next ((s.setReg d .empty).advance 1) := rfl
  exact ⟨congrArg (· :: []) (wordA_eq_append .free d), hexec⟩

end Sys2Proof.Machine
end

section
/-! PROOFS. The normalizer makes `Canon_t` of the number its grid stands for (42_normalize_shift.md R141 to R144). -/

namespace Sys2Proof.Machine

open Sys2Proof

theorem length_dropLowZeros_le (s : List Nat) : (dropLowZeros s).length ≤ s.length := by
  induction s with
  | nil => exact le_rfl
  | cons x xs ih =>
    rw [dropLowZeros]
    split
    · exact ih.trans (Nat.le_succ _)
    · exact le_rfl

/-- Step 1 takes away low zero limbs: the number loses a power of `Mod` for each (42_normalize_shift.md R141). -/
theorem limbSum_dropLowZeros (t : Radix) (s : List Nat) :
    limbSum t s = limbMod t ^ (s.length - (dropLowZeros s).length) * limbSum t (dropLowZeros s) := by
  induction s with
  | nil => rfl
  | cons x xs ih =>
    rw [dropLowZeros]
    split
    · next hx =>
      rw [List.length_cons, Nat.succ_sub (length_dropLowZeros_le xs), Nat.pow_succ', Nat.mul_assoc, ← ih, limbSum, hx,
        Nat.zero_add]
    · rw [Nat.sub_self, Nat.pow_zero, Nat.one_mul]

/-- Step 2 divides the number by `beta^j` (42_normalize_shift.md R142). -/
theorem limbSum_digitShift (t : Radix) (j : Nat) (s : List Nat) (hj : j ≤ digitsPerLimb t) :
    limbSum t (digitShift t j s) = limbSum t s / radixPow t j := by
  have hsplit : limbMod t = radixPow t j * radixPow t (digitsPerLimb t - j) := by
    rw [radixPow, radixPow, ← Nat.pow_add, Nat.add_sub_cancel' hj, limbMod_eq]
  induction s using digitShift.induct with
  | case1 => simp [digitShift, limbSum]
  | case2 x => simp [digitShift, limbSum]
  | case3 x y rest ih =>
    have hlow : limbSum t (y :: rest) % radixPow t j = y % radixPow t j := by
      rw [limbSum, hsplit, Nat.mul_assoc, Nat.add_mul_mod_self_left]
    have hnumber : limbSum t (x :: y :: rest)
        = x + radixPow t j * (radixPow t (digitsPerLimb t - j) * limbSum t (y :: rest)) := by
      rw [← Nat.mul_assoc, ← hsplit, limbSum]
    rw [digitShift, limbSum, ih, ← hlow, hnumber, Nat.add_mul_div_left _ _ (radixPow_pos t j), hsplit]
    calc x / radixPow t j + limbSum t (y :: rest) % radixPow t j * radixPow t (digitsPerLimb t - j)
          + radixPow t j * radixPow t (digitsPerLimb t - j) * (limbSum t (y :: rest) / radixPow t j)
        = x / radixPow t j + radixPow t (digitsPerLimb t - j)
            * (limbSum t (y :: rest) % radixPow t j + radixPow t j * (limbSum t (y :: rest) / radixPow t j)) := by ring
      _ = _ := by rw [Nat.mod_add_div]

/-- Step 3 takes away high zero limbs, which count nothing (42_normalize_shift.md R143). -/
theorem limbSum_dropHighZeros (t : Radix) (s : List Nat) : limbSum t (dropHighZeros s) = limbSum t s := by
  induction s with
  | nil => rfl
  | cons x xs ih =>
    rw [dropHighZeros, limbSum, ← ih]
    cases dropHighZeros xs with
    | nil => by_cases hx : x = 0 <;> simp [hx, limbSum]
    | cons y ys => rfl

/-- After step 3 there are digits unless there are no limbs (42_normalize_shift.md R143). -/
theorem dropHighZeros_eq_nil_of_countDigits {t : Radix} {s : List Nat} (h : countDigits t (dropHighZeros s) = 0) :
    dropHighZeros s = [] := by
  have htop := getLastD_dropHighZeros_ne_zero s Nat.one_ne_zero
  cases hs : dropHighZeros s with
  | nil => rfl
  | cons x xs =>
    rw [hs, List.getLastD_cons] at htop
    rw [hs, countDigits, List.getLastD_cons, Nat.add_eq_zero_iff, digitCount_eq_zero] at h
    obtain ⟨-, hzero⟩ := h
    exact absurd hzero htop

/-- The normalizer's limbs stand for the grid's number without its `trim` low zero digits (42_normalize_shift.md R144). -/
theorem limbSum_normalizeLimbs (t : Radix) (s : List Nat) (h : ∀ x ∈ s, x < limbMod t) :
    limbSum t (normalizeLimbs t s).f * base t ^ (normalizeLimbs t s).trim = limbSum t s := by
  have hdropped := limbSum_dropLowZeros t s
  unfold normalizeLimbs
  split
  · next heq => simp [hdropped, heq, limbSum]
  · next x xs heq =>
    obtain ⟨hx, hmem⟩ := dropLowZeros_eq_cons heq
    have hj := tz_lt_digitsPerLimb t x hx (h x (hmem x (by simp)))
    have hdvd : radixPow t (tz t x) ∣ limbSum t (x :: xs) := by
      have hmod : radixPow t (tz t x) ∣ limbMod t := limbMod_eq t ▸ pow_dvd_pow _ hj.le
      exact dvd_add (radixPow_tz_dvd t x) (hmod.mul_right _)
    dsimp only
    rw [limbSum_dropHighZeros, limbSum_digitShift t _ _ hj.le, hdropped, heq, Nat.pow_add', ← Nat.mul_assoc, ← radixPow,
      Nat.div_mul_cancel hdvd, List.length_cons, limbMod_eq, ← Nat.pow_mul, Nat.mul_comm (digitsPerLimb t), Nat.mul_comm]

/-- A grid without digits stands for zero. -/
theorem limbSum_eq_zero_of_normalizeLimbs {t : Radix} {s : List Nat} (h : ∀ x ∈ s, x < limbMod t)
    (hnd : (normalizeLimbs t s).nd = 0) : limbSum t s = 0 := by
  have hnil : (normalizeLimbs t s).f = [] := by
    unfold normalizeLimbs at hnd ⊢
    split
    · rfl
    · next heq =>
      rw [heq] at hnd
      exact dropHighZeros_eq_nil_of_countDigits hnd
  rw [← limbSum_normalizeLimbs t s h, hnil, limbSum, Nat.zero_mul]

/-- A grid normalizes to `Canon_t` of its number (42_normalize_shift.md R144). -/
theorem fromGrid_eq_canon (t : Radix) (s : List Nat) (L : Int) (h : ∀ x ∈ s, x < limbMod t) :
    fromGrid t s L = canon t (limbSum t s) L := by
  rw [eq_canon_of_normalized t _ (normalized_fromGrid t s L h), fromGrid]
  split
  · next hnd => rw [limbSum_eq_zero_of_normalizeLimbs h hnd]; rfl
  · next hnd =>
    have hfits : ∀ x ∈ (normalizeLimbs t s).f, x < 4294967296 := by
      obtain ⟨-, -, hlimbs⟩ := (limbsNormal_iff t _ _).1 (limbsNormal_normalizeLimbs t s h hnd)
      rw [hlimbs]
      exact fun x hx => (limbsOf_lt t _ _ x hx).trans_le (limbMod_le_word t)
    rw [significand, limbNats_limbWords _ hfits, ← canon_mul_pow, limbSum_normalizeLimbs t s h]

end Sys2Proof.Machine
end

section
/-! PROOFS. The value rules compute `Canon_t` of the exact sum, difference and product, and canonical forms of one value are one
triple, which gives the identities of R131 (41_add_sub.md R121, R125, R131, 44_multiply.md R170). -/

namespace Sys2Proof.Machine

open Sys2Proof

/-! ### Values and their significands on the common low place -/

theorem valueOf_eq_anchor_left (t : Radix) (a b : BigFloat) :
    valueOf t a = (significandAt t a (anchor a b) : ℚ) * (base t : ℚ) ^ anchor a b :=
  valueOf_eq_significandAt t a _ (min_le_left a.lp b.lp)

theorem valueOf_eq_anchor_right (t : Radix) (a b : BigFloat) :
    valueOf t b = (significandAt t b (anchor a b) : ℚ) * (base t : ℚ) ^ anchor a b :=
  valueOf_eq_significandAt t b _ (min_le_right a.lp b.lp)

/-- Two values compare as their significands on the common low place (43_compare.md R161). -/
theorem valueOf_le_iff (t : Radix) (a b : BigFloat) :
    valueOf t b ≤ valueOf t a ↔ significandAt t b (anchor a b) ≤ significandAt t a (anchor a b) := by
  have hbase : (0 : ℚ) < (base t : ℚ) ^ anchor a b := zpow_pos (Nat.cast_pos.2 (base_pos t)) _
  rw [valueOf_eq_anchor_left t a b, valueOf_eq_anchor_right t a b, mul_le_mul_iff_left₀ hbase, Nat.cast_le]

/-- CMP's and SUB's comparison finds two values equal exactly when they are (43_compare.md R161). -/
theorem compareValues_eq_eq_iff (t : Radix) (a b : BigFloat) :
    compareValues t a b = .eq ↔ valueOf t b = valueOf t a := by
  have hbase : (base t : ℚ) ^ anchor a b ≠ 0 := zpow_ne_zero _ (base_cast_ne_zero t)
  rw [compareValues, compare_eq_iff_eq, valueOf_eq_anchor_left t a b, valueOf_eq_anchor_right t a b,
    mul_left_inj' hbase, Nat.cast_inj, eq_comm]

/-- CMP's and SUB's comparison finds the second value below the first exactly when it is (43_compare.md R161). -/
theorem compareValues_eq_gt_iff (t : Radix) (a b : BigFloat) :
    compareValues t a b = .gt ↔ valueOf t b < valueOf t a := by
  rw [lt_iff_le_and_ne, Ne, ← compareValues_eq_eq_iff, ← not_lt, ← compareValues_eq_lt_iff]
  cases compareValues t a b <;> simp

/-! ### The value rules are exact -/

/-- Uniqueness (00_scope.md R13): two canonical forms of one value are one triple. -/
theorem IsCanon.unique {t : Radix} {q : ℚ} {v w : BigFloat} (hv : IsCanon t q v) (hw : IsCanon t q w) : v = w := by
  obtain ⟨hv, rfl⟩ := hv
  obtain ⟨hw, hvalue⟩ := hw
  rw [eq_canon_of_normalized t v hv, eq_canon_of_normalized t w hw]
  exact canon_congr t _ _ _ _ hvalue.symm

/-- ADD's value rule is exact (41_add_sub.md R121). -/
theorem isCanon_sumValue (t : Radix) (a b : BigFloat) : IsCanon t (valueOf t a + valueOf t b) (sumValue t a b) := by
  rw [valueOf_eq_anchor_left t a b, valueOf_eq_anchor_right t a b, ← add_mul, ← Nat.cast_add]
  exact isCanon_canon t _ _

/-- SUB's value rule is exact where the subtrahend is not above the minuend (41_add_sub.md R125). -/
theorem isCanon_diffValue (t : Radix) (a b : BigFloat) (h : valueOf t b ≤ valueOf t a) :
    IsCanon t (valueOf t a - valueOf t b) (diffValue t a b) := by
  have hle := (valueOf_le_iff t a b).1 h
  rw [valueOf_eq_anchor_left t a b, valueOf_eq_anchor_right t a b, ← sub_mul, ← Nat.cast_sub hle]
  exact isCanon_canon t _ _

/-- MUL's value rule is exact (44_multiply.md R170). -/
theorem isCanon_productValue (t : Radix) (a b : BigFloat) :
    IsCanon t (valueOf t a * valueOf t b) (productValue t a b) := by
  rw [valueOf, valueOf, mul_mul_mul_comm, ← Nat.cast_mul, ← zpow_add₀ (base_cast_ne_zero t)]
  exact isCanon_canon t _ _

/-- A constructed limb has the limb's value (40_construct_move.md R101, R102). -/
theorem valueOf_construct (t : Radix) (x : Nat) (hx : x < limbMod t) : valueOf t (construct t x) = x := by
  rw [construct_eq_canon t x hx]
  exact (isCanon_limb t x).2

theorem valueOf_nonneg (t : Radix) (v : BigFloat) : 0 ≤ valueOf t v :=
  mul_nonneg (Nat.cast_nonneg _) (zpow_nonneg (Nat.cast_nonneg _) _)

/-- Settles O56: the two sides of each identity are canonical forms of one rational. -/
theorem arithmeticIdentitiesHold : Obligations.ArithmeticIdentitiesHold := by
  intro t a b ha _ _ _
  have hone : valueOf t (construct t 1) = 1 := by exact_mod_cast valueOf_construct t 1 (by cases t <;> decide)
  have htwo : valueOf t (construct t 2) = 2 := by exact_mod_cast valueOf_construct t 2 (by cases t <;> decide)
  have hself : IsCanon t (valueOf t a) a := ⟨ha, rfl⟩
  refine ⟨IsCanon.unique ?_ hself, IsCanon.unique ?_ hself, IsCanon.unique (isCanon_sumValue t a a) ?_⟩
  · obtain ⟨-, hsum⟩ := isCanon_sumValue t a b
    have hle : valueOf t b ≤ valueOf t (sumValue t a b) := by
      rw [hsum]
      exact le_add_of_nonneg_left (valueOf_nonneg t a)
    have hdiff := isCanon_diffValue t _ _ hle
    rwa [hsum, add_sub_cancel_right] at hdiff
  · have hproduct := isCanon_productValue t a (construct t 1)
    rwa [hone, mul_one] at hproduct
  · have hproduct := isCanon_productValue t a (construct t 2)
    rwa [htwo, mul_two] at hproduct

end Sys2Proof.Machine
end

section
/-! PROOFS. The carry chains of ADD and SUB on the aligned grid agree with the value rules (41_add_sub.md R122, R127). -/

namespace Sys2Proof.Machine

open Sys2Proof

/-! ### A normalized value on a grid (00_scope.md R14) -/

/-- The limbs of a normalized value are limbs of the radix (10_state.md R24 (e)). -/
theorem limbNats_lt_of_normalized {t : Radix} {v : BigFloat} (h : normalized t v = true) :
    ∀ x ∈ limbNats v.f, x < limbMod t := by
  rcases (normalized_iff t v).1 h with rfl | ⟨-, hv⟩
  · simp [BigFloat.zero, limbNats]
  · rw [hv, limbNats_tripleOf]
    exact limbsOf_lt t _ _

/-- A normalized value has no more than its `nd` digits (10_state.md R24 (d)). -/
theorem significand_lt_of_normalized {t : Radix} {v : BigFloat} (h : normalized t v = true) :
    significand t v < base t ^ v.nd := by
  rcases (normalized_iff t v).1 h with rfl | ⟨-, hv⟩
  · simp [BigFloat.zero, significand, limbNats, limbSum]
  · have hnd : v.nd = digitCount t (significand t v) := congrArg BigFloat.nd hv
    exact hnd ▸ lt_pow_digitCount t _

/-- A grid from `L` up to `top` holds every normalized value that lies between them (41_add_sub.md R122 step 2). -/
theorem significandAt_lt_of_extent_le {t : Radix} {v : BigFloat} {L top : Int} (h : normalized t v = true)
    (hL : L ≤ v.lp) (htop : extent v ≤ top) : significandAt t v L < limbMod t ^ gridSize t top L := by
  have hgrid : (top - L).toNat ≤ digitsPerLimb t * gridSize t top L :=
    (ceilDiv_le_iff _ _ _ (digitsPerLimb_pos t)).1 le_rfl
  have hdigits : v.nd + (v.lp - L).toNat ≤ digitsPerLimb t * gridSize t top L := by
    unfold extent at htop
    omega
  calc significandAt t v L < base t ^ v.nd * base t ^ (v.lp - L).toNat :=
        Nat.mul_lt_mul_of_pos_right (significand_lt_of_normalized h) (radixPow_pos t _)
    _ = base t ^ (v.nd + (v.lp - L).toNat) := (Nat.pow_add ..).symm
    _ ≤ base t ^ (digitsPerLimb t * gridSize t top L) := Nat.pow_le_pow_right (base_pos t) hdigits
    _ = limbMod t ^ gridSize t top L := by rw [Nat.pow_mul, ← limbMod_eq]

/-- On a grid that holds it, a normalized value is the limbs of its significand counted from the grid's low place. -/
theorem alignAt_eq_limbsOf {t : Radix} {v : BigFloat} (h : normalized t v = true) (L : Int) (n : Nat) :
    alignAt t v L n = limbsOf t n (significandAt t v L) :=
  align_eq_limbsOf t _ _ n (limbNats_lt_of_normalized h)

/-! ### The chain as a division by `Mod^n` -/

/-- The chain's limbs are the total modulo `Mod^n`, and its carry out is the total divided by `Mod^n` (41_add_sub.md R122
step 4). -/
theorem ripple_eq_mod_div (t : Radix) (x y : List Nat) (c : Nat) (h : x.length = y.length) :
    limbSum t (ripple t x y c).1 = (limbSum t x + limbSum t y + c) % limbMod t ^ x.length
      ∧ (ripple t x y c).2 = (limbSum t x + limbSum t y + c) / limbMod t ^ x.length := by
  have hlt : limbSum t (ripple t x y c).1 < limbMod t ^ x.length :=
    ripple_length t x y c h ▸ limbSum_lt t _ (ripple_lt t x y c)
  have hunique := (Nat.div_mod_unique (Nat.pow_pos (limbMod_pos t))).2 ⟨ripple_sum t x y c h, hlt⟩
  exact ⟨hunique.2.symm, hunique.1.symm⟩

/-- The limbs of the chain from carry 0 with its carry out, if there is one, as a new top limb 1 (41_add_sub.md R122 steps 4
and 5). -/
def sumGrid (t : Radix) (x y : List Nat) : List Nat :=
  if (ripple t x y 0).2 = 1 then (ripple t x y 0).1 ++ [1] else (ripple t x y 0).1

theorem addLimbs_eq_fromGrid (t : Radix) (a b : BigFloat) :
    addLimbs t a b = fromGrid t
      (sumGrid t (alignAt t a (anchor a b) (addGrid t a b)) (alignAt t b (anchor a b) (addGrid t a b))) (anchor a b) := rfl

theorem sumGrid_lt (t : Radix) (x y : List Nat) : ∀ z ∈ sumGrid t x y, z < limbMod t := by
  have hone : 1 < limbMod t := by cases t <;> decide
  unfold sumGrid
  split
  · simpa [or_imp, forall_and, hone] using ripple_lt t x y 0
  · exact ripple_lt t x y 0

/-- The carry out of a sum of two numbers below `Mod^n` is at most 1, so no carry is lost (41_add_sub.md R122 step 5). -/
theorem limbSum_sumGrid (t : Radix) (x y : List Nat) (h : x.length = y.length) (hx : ∀ z ∈ x, z < limbMod t)
    (hy : ∀ z ∈ y, z < limbMod t) : limbSum t (sumGrid t x y) = limbSum t x + limbSum t y := by
  have hsum := ripple_sum t x y 0 h
  obtain ⟨-, hcarry⟩ := ripple_eq_mod_div t x y 0 h
  have hxlt := limbSum_lt t x hx
  have hylt := h ▸ limbSum_lt t y hy
  have hatMostOne : (ripple t x y 0).2 < 2 := hcarry ▸ Nat.div_lt_of_lt_mul (by omega)
  unfold sumGrid
  split
  · next hc =>
    rw [limbSum_append, ripple_length t x y 0 h]
    simpa [hc, limbSum] using hsum
  · next hc =>
    have hzero : (ripple t x y 0).2 = 0 := by omega
    simpa [hzero] using hsum

/-- The limb rule of ADD gives the value rule's sum (41_add_sub.md R122). -/
theorem addLimbs_eq_sumValue {t : Radix} {a b : BigFloat} (ha : normalized t a = true) (hb : normalized t b = true) :
    addLimbs t a b = sumValue t a b := by
  have hafits : significandAt t a (anchor a b) < limbMod t ^ addGrid t a b :=
    significandAt_lt_of_extent_le ha (min_le_left a.lp b.lp) (le_max_left _ _)
  have hbfits : significandAt t b (anchor a b) < limbMod t ^ addGrid t a b :=
    significandAt_lt_of_extent_le hb (min_le_right a.lp b.lp) (le_max_right _ _)
  rw [addLimbs_eq_fromGrid, alignAt_eq_limbsOf ha, alignAt_eq_limbsOf hb, fromGrid_eq_canon t _ _ (sumGrid_lt t _ _),
    limbSum_sumGrid t _ _ (by simp) (limbsOf_lt t _ _) (limbsOf_lt t _ _), limbSum_limbsOf t _ _ hafits,
    limbSum_limbsOf t _ _ hbfits, sumValue]

/-- Settles O50: the limb rule is the value rule, which is exact. -/
theorem carryChainAddsExactly : Obligations.CarryChainAddsExactly := by
  intro t a b ha hb _ _
  rw [addLimbs_eq_sumValue ha hb]
  exact isCanon_sumValue t a b

/-! ### The complement subtraction (41_add_sub.md R127) -/

@[simp] theorem invertLimbs_length (t : Radix) (s : List Nat) : (invertLimbs t s).length = s.length := by
  simp [invertLimbs]

/-- A list and its inverse add up to `Mod^n - 1` (41_add_sub.md R127 step 2). -/
theorem limbSum_invertLimbs (t : Radix) (s : List Nat) (h : ∀ x ∈ s, x < limbMod t) :
    limbSum t (invertLimbs t s) + limbSum t s + 1 = limbMod t ^ s.length := by
  induction s with
  | nil => rfl
  | cons x xs ih =>
    have hx : x < limbMod t := h x (by simp)
    have hxs := ih fun y hy => h y (by simp [hy])
    have hdigit : limbMod t - 1 - x + x + 1 = limbMod t := by omega
    calc limbSum t (invertLimbs t (x :: xs)) + limbSum t (x :: xs) + 1
        = (limbMod t - 1 - x + limbMod t * limbSum t (invertLimbs t xs)) + (x + limbMod t * limbSum t xs) + 1 := rfl
      _ = (limbMod t - 1 - x + x + 1) + limbMod t * (limbSum t (invertLimbs t xs) + limbSum t xs) := by ring
      _ = limbMod t * (limbSum t (invertLimbs t xs) + limbSum t xs + 1) := by rw [hdigit]; ring
      _ = limbMod t ^ (x :: xs).length := by rw [hxs, List.length_cons, Nat.pow_succ']

/-- Adding the inverse of `y` and 1 to an `x` not below it gives the difference and a carry of 1 (41_add_sub.md R127). -/
theorem ripple_invertLimbs (t : Radix) (x y : List Nat) (h : x.length = y.length) (hx : ∀ z ∈ x, z < limbMod t)
    (hy : ∀ z ∈ y, z < limbMod t) (hle : limbSum t y ≤ limbSum t x) :
    limbSum t (ripple t x (invertLimbs t y) 1).1 = limbSum t x - limbSum t y
      ∧ (ripple t x (invertLimbs t y) 1).2 = 1 := by
  have hinvert := limbSum_invertLimbs t y hy
  have hxlt := limbSum_lt t x hx
  obtain ⟨hmod, hdiv⟩ := ripple_eq_mod_div t x (invertLimbs t y) 1 (by simpa using h)
  rw [h] at hxlt hmod hdiv
  have htotal : limbSum t x + limbSum t (invertLimbs t y) + 1
      = limbSum t x - limbSum t y + limbMod t ^ y.length := by omega
  have hdiff : limbSum t x - limbSum t y < limbMod t ^ y.length := by omega
  rw [htotal] at hmod hdiv
  rw [hmod, hdiv, Nat.add_mod_right, Nat.mod_eq_of_lt hdiff, Nat.add_div_right _ (Nat.pow_pos (limbMod_pos t)),
    Nat.div_eq_of_lt hdiff]
  exact ⟨rfl, rfl⟩

/-- The complement sum of the aligned operands, the subtrahend not above the minuend: the difference of the significands, and
the carry that is dropped (41_add_sub.md R127 steps 2 to 4). The subtrahend fits on the minuend's grid because it is not
above it. -/
theorem complementSum_eq {t : Radix} {a b : BigFloat} (ha : normalized t a = true) (hb : normalized t b = true)
    (hle : valueOf t b ≤ valueOf t a) :
    limbSum t (complementSum t a b).1 = significandAt t a (anchor a b) - significandAt t b (anchor a b)
      ∧ (complementSum t a b).2 = 1 := by
  have hsignificands := (valueOf_le_iff t a b).1 hle
  have hafits : significandAt t a (anchor a b) < limbMod t ^ subGrid t a b :=
    significandAt_lt_of_extent_le ha (min_le_left a.lp b.lp) le_rfl
  have hasum := limbSum_limbsOf t _ _ hafits
  have hbsum := limbSum_limbsOf t _ _ (hsignificands.trans_lt hafits)
  have hripple := ripple_invertLimbs t (limbsOf t (subGrid t a b) (significandAt t a (anchor a b)))
    (limbsOf t (subGrid t a b) (significandAt t b (anchor a b))) (by simp) (limbsOf_lt t _ _) (limbsOf_lt t _ _)
  rw [hasum, hbsum] at hripple
  rw [complementSum, alignAt_eq_limbsOf ha, alignAt_eq_limbsOf hb]
  exact hripple hsignificands

/-- The limb rule of SUB gives the value rule's difference (41_add_sub.md R127). -/
theorem subLimbs_eq_diffValue {t : Radix} {a b : BigFloat} (ha : normalized t a = true) (hb : normalized t b = true)
    (hle : valueOf t b ≤ valueOf t a) : subLimbs t a b = diffValue t a b := by
  obtain ⟨hsum, -⟩ := complementSum_eq ha hb hle
  rw [subLimbs, fromGrid_eq_canon t (complementSum t a b).1 _ (ripple_lt t _ _ _), hsum, diffValue]

/-- Settles O51: the dropped carry is 1, and the limb rule is the value rule, which is exact. -/
theorem complementSubtractionIsExact : Obligations.ComplementSubtractionIsExact := by
  intro t a b ha hb _ _ hle
  obtain ⟨-, hcarry⟩ := complementSum_eq ha hb hle
  refine ⟨hcarry, ?_⟩
  rw [subLimbs_eq_diffValue ha hb hle]
  exact isCanon_diffValue t a b hle

end Sys2Proof.Machine
end

section
/-! PROOFS. The commands ADD and SUB in every state: what the shared operations answer once the operands, the bounds and the
draws are known, then the clauses of each command (41_add_sub.md R120 to R128). -/

namespace Sys2Proof.Machine

open Sys2Proof

variable {s : State} {d r : VIx} {t : Radix} {a b : BigFloat}

/-! ### The shared operations once their check is decided -/

theorem State.withPair_of_badPair (h : s.badPair d r) (rest : Radix → BigFloat → BigFloat → State) :
    s.withPair d r rest = s.raise .invalidOperand := by
  rcases State.withPair_cases s d r rest with ⟨_, he⟩ | ⟨t, a, b, hd, hr, _⟩
  · exact he
  · simp [State.badPair, hd, hr, VReg.tag] at h

theorem State.deliver_of_inBounds {v : BigFloat} {plp : Int} {pnd : Nat} (hv : inBounds v.lp v.nd = true)
    (hpre : inBounds plp pnd = true) (n : Nat) : s.deliver d t v plp pnd n = s.complete d t v n := by
  simp [State.deliver, boundCheck, hv, hpre]

theorem State.deliver_of_not_inBounds {v : BigFloat} (hv : inBounds v.lp v.nd = false) (plp : Int) (pnd n : Nat) :
    s.deliver d t v plp pnd n = s.raiseInto .integerOverflow d t := by
  simp [State.deliver, boundCheck, hv]

/-- The grey band: only the intermediate is out of bounds (10_state.md R31). -/
theorem State.deliver_of_grey {v : BigFloat} {plp : Int} {pnd : Nat} (hv : inBounds v.lp v.nd = true)
    (hpre : inBounds plp pnd = false) (n : Nat) :
    s.deliver d t v plp pnd n
      = if s.oracle.eitherFaults = true then (s.withOracle s.oracle.afterEither).raiseInto .integerOverflow d t
        else (s.withOracle s.oracle.afterEither).complete d t v n := by
  simp [State.deliver, boundCheck, hv, hpre]

/-! ### ADD -/

/-- ADD of two values of one radix (41_add_sub.md R121). -/
theorem exec_add_of_regs (hne : d ≠ r) (hd : s.reg d = .value t a) (hr : s.reg r = .value t b) :
    exec (.add d r) s = .next (s.allocating d t fun s' =>
      if b.nd = 0 then s'.advance 1
      else if a.nd = 0 then s'.complete d t b 1
      else s'.deliver d t (sumValue t a b) (anchor a b) (addPreDigits t a b) 1) := by
  rw [exec, execAdd, State.distinct_of_ne hne, State.withPair_of_reg_eq s hd hr]

/-- Settles O42: by the operands, the allocator's answer and the answer of `BoundCheck`. -/
theorem addIsExact : Obligations.AddIsExact := by
  intro d r s hne
  refine ⟨congrArg (· :: []) (wordAB_eq_append .add d r), fun hbad => ?_, ?_⟩
  · rw [exec, execAdd, State.distinct_of_ne hne, State.withPair_of_badPair hbad]
  rintro t a b _ _ hd hr rfl rfl
  rw [exec_add_of_regs hne hd hr]
  refine ⟨isCanon_sumValue t a b, fun halloc => ?_, fun halloc hb => ?_, fun halloc hb ha => ?_,
    fun halloc hb ha hfinal hpre => ?_, fun halloc hb ha hfinal => ?_, fun halloc hb ha hfinal hpre => ?_⟩
  · rw [State.allocating_of_allocFails halloc]; rfl
  all_goals rw [State.allocating_of_not_allocFails halloc]
  · rw [if_pos hb]; rfl
  · rw [if_neg hb, if_pos ha]; rfl
  · rw [if_neg hb, if_neg ha, State.deliver_of_inBounds (plp := anchor a b) (pnd := addPreDigits t a b) hfinal hpre]; rfl
  · rw [if_neg hb, if_neg ha, State.deliver_of_not_inBounds hfinal]; rfl
  · rw [if_neg hb, if_neg ha, State.deliver_of_grey (plp := anchor a b) (pnd := addPreDigits t a b) hfinal hpre]; rfl

/-! ### SUB -/

/-- SUB of two values of one radix, the subtrahend above the minuend (41_add_sub.md R126). -/
theorem exec_sub_of_lt (hne : d ≠ r) (hd : s.reg d = .value t a) (hr : s.reg r = .value t b)
    (hlt : valueOf t a < valueOf t b) : exec (.sub d r) s = .next (s.raise .invalidOperand) := by
  rw [exec, execSub, State.distinct_of_ne hne, State.withPair_of_reg_eq s hd hr, (compareValues_eq_lt_iff t a b).2 hlt]

/-- SUB of two equal values of one radix (41_add_sub.md R125). -/
theorem exec_sub_of_eq (hne : d ≠ r) (hd : s.reg d = .value t a) (hr : s.reg r = .value t b)
    (heq : valueOf t b = valueOf t a) :
    exec (.sub d r) s
      = .next (s.allocating d t fun s' => if b.nd = 0 then s'.advance 1 else s'.complete d t .zero 1) := by
  rw [exec, execSub, State.distinct_of_ne hne, State.withPair_of_reg_eq s hd hr, (compareValues_eq_eq_iff t a b).2 heq]

/-- SUB of two values of one radix, the subtrahend below the minuend (41_add_sub.md R125). -/
theorem exec_sub_of_gt (hne : d ≠ r) (hd : s.reg d = .value t a) (hr : s.reg r = .value t b)
    (hgt : valueOf t b < valueOf t a) :
    exec (.sub d r) s = .next (s.allocating d t fun s' =>
      if b.nd = 0 then s'.advance 1
      else s'.deliver d t (diffValue t a b) (anchor a b) (subPreDigits t a b) 1) := by
  rw [exec, execSub, State.distinct_of_ne hne, State.withPair_of_reg_eq s hd hr, (compareValues_eq_gt_iff t a b).2 hgt]

/-- SUB of a subtrahend not above the minuend, whether below it or equal: the allocation is asked for, and a zero subtrahend
leaves Vd (41_add_sub.md R125). -/
theorem exec_sub_of_le (hne : d ≠ r) (hd : s.reg d = .value t a) (hr : s.reg r = .value t b)
    (hle : valueOf t b ≤ valueOf t a) :
    ∃ rest : State → State, exec (.sub d r) s = .next (s.allocating d t rest)
      ∧ (b.nd = 0 → ∀ s', rest s' = s'.advance 1) := by
  rcases hle.eq_or_lt with heq | hgt
  · exact ⟨_, exec_sub_of_eq hne hd hr heq, fun hb _ => if_pos hb⟩
  · exact ⟨_, exec_sub_of_gt hne hd hr hgt, fun hb _ => if_pos hb⟩

/-- Settles O43: by the operands, their order, the allocator's answer and the answer of `BoundCheck`. -/
theorem subIsExact : Obligations.SubIsExact := by
  intro d r s hne
  refine ⟨congrArg (· :: []) (wordAB_eq_append .sub d r), fun hbad => ?_, ?_⟩
  · rw [exec, execSub, State.distinct_of_ne hne, State.withPair_of_badPair hbad]
  rintro t a b _ _ hd hr rfl rfl
  refine ⟨exec_sub_of_lt hne hd hr, isCanon_diffValue t a b, fun hle halloc => ?_, fun hle halloc hb => ?_,
    fun heq halloc hb => ?_, fun hgt halloc hb hfinal hpre => ?_, fun hgt halloc hb hfinal => ?_,
    fun hgt halloc hb hfinal hpre => ?_⟩
  · obtain ⟨rest, hexec, -⟩ := exec_sub_of_le hne hd hr hle
    rw [hexec, State.allocating_of_allocFails halloc]; rfl
  · obtain ⟨rest, hexec, hzero⟩ := exec_sub_of_le hne hd hr hle
    rw [hexec, State.allocating_of_not_allocFails halloc, hzero hb]; rfl
  · rw [exec_sub_of_eq hne hd hr heq, State.allocating_of_not_allocFails halloc, if_neg hb]; rfl
  all_goals rw [exec_sub_of_gt hne hd hr hgt, State.allocating_of_not_allocFails halloc, if_neg hb]
  · rw [State.deliver_of_inBounds (plp := anchor a b) (pnd := subPreDigits t a b) hfinal hpre]; rfl
  · rw [State.deliver_of_not_inBounds hfinal]; rfl
  · rw [State.deliver_of_grey (plp := anchor a b) (pnd := subPreDigits t a b) hfinal hpre]; rfl

end Sys2Proof.Machine
end

section
/-! PROOFS. What the normalizer returns, field by field, and that it returns its own results unchanged (42_normalize_shift.md
R144). -/

namespace Sys2Proof.Machine

open Sys2Proof

variable {t : Radix} {s : List Nat}

/-! ### A grid that stands for zero -/

/-- Step 1 leaves nothing of a grid that stands for zero (42_normalize_shift.md R141). -/
theorem dropLowZeros_eq_nil_of_limbSum (h : limbSum t s = 0) : dropLowZeros s = [] := by
  cases heq : dropLowZeros s with
  | nil => rfl
  | cons x xs =>
    obtain ⟨hx, -⟩ := dropLowZeros_eq_cons heq
    rw [limbSum_dropLowZeros, heq, mul_eq_zero, limbSum] at h
    exact absurd h (by simp [(limbMod_pos t).ne', hx])

theorem normalizeLimbs_of_limbSum_eq_zero (h : limbSum t s = 0) :
    normalizeLimbs t s = { trim := 0, nd := 0, f := [] } := by
  rw [normalizeLimbs, dropLowZeros_eq_nil_of_limbSum h]

/-! ### A grid that does not -/

/-- The limbs left meet R24 (42_normalize_shift.md R144). -/
theorem limbsNormal_normalizeLimbs_of_limbSum_ne_zero (h : ∀ x ∈ s, x < limbMod t) (hs : limbSum t s ≠ 0) :
    limbsNormal t (normalizeLimbs t s).nd (normalizeLimbs t s).f = true :=
  limbsNormal_normalizeLimbs t s h (mt (limbSum_eq_zero_of_normalizeLimbs h) hs)

/-- The limbs left stand for `S / beta^trim` (42_normalize_shift.md R144). -/
theorem limbSum_normalizeLimbs_eq_div (h : ∀ x ∈ s, x < limbMod t) :
    limbSum t (normalizeLimbs t s).f = limbSum t s / base t ^ (normalizeLimbs t s).trim := by
  rw [← limbSum_normalizeLimbs t s h, Nat.mul_div_cancel _ (Nat.pow_pos (base_pos t))]

/-- `trim` counts no more than the low zero digits: the next digit is not zero (42_normalize_shift.md R144). -/
theorem not_base_pow_trim_succ_dvd (h : ∀ x ∈ s, x < limbMod t) (hs : limbSum t s ≠ 0) :
    ¬ base t ^ ((normalizeLimbs t s).trim + 1) ∣ limbSum t s := by
  obtain ⟨hlow, -, -⟩ := (limbsNormal_iff t _ _).1 (limbsNormal_normalizeLimbs_of_limbSum_ne_zero h hs)
  rw [← limbSum_normalizeLimbs t s h, Nat.pow_succ', Nat.mul_dvd_mul_iff_right (Nat.pow_pos (base_pos t)),
    Nat.dvd_iff_mod_eq_zero]
  exact hlow

/-! ### Normalizing again -/

theorem Trimmed.eq_mk_of_fields {r : Trimmed} {trim nd : Nat} {f : List Nat} (htrim : r.trim = trim) (hnd : r.nd = nd)
    (hf : r.f = f) : r = { trim := trim, nd := nd, f := f } := by
  subst htrim hnd hf
  rfl

/-- Limbs that meet R24 are left as they are: their lowest digit is not zero, so nothing is trimmed, and R24 fixes the limbs
of a number. -/
theorem normalizeLimbs_of_limbsNormal {nd : Nat} (h : limbsNormal t nd s = true) :
    normalizeLimbs t s = { trim := 0, nd := nd, f := s } := by
  obtain ⟨hlow, hnd, hlimbs⟩ := (limbsNormal_iff t nd s).1 h
  have hlt : ∀ x ∈ s, x < limbMod t := hlimbs ▸ limbsOf_lt t _ _
  have hs : limbSum t s ≠ 0 := fun hzero => hlow (by rw [hzero, Nat.zero_mod])
  obtain ⟨-, hnd', hlimbs'⟩ := (limbsNormal_iff t _ _).1 (limbsNormal_normalizeLimbs_of_limbSum_ne_zero hlt hs)
  have htrim : (normalizeLimbs t s).trim = 0 := by
    by_contra hne
    have hdvd : base t ∣ limbSum t s :=
      (dvd_pow_self _ hne).trans (Dvd.intro_left _ (limbSum_normalizeLimbs t s hlt))
    exact hlow (Nat.mod_eq_zero_of_dvd hdvd)
  have hsum : limbSum t (normalizeLimbs t s).f = limbSum t s := by
    rw [limbSum_normalizeLimbs_eq_div hlt, htrim, Nat.pow_zero, Nat.div_one]
  rw [hsum, ← hnd] at hnd'
  rw [hsum, hnd', ← hlimbs] at hlimbs'
  exact Trimmed.eq_mk_of_fields htrim hnd' hlimbs'

/-- The normalizer is idempotent (42_normalize_shift.md R144). -/
theorem normalizeLimbs_normalizeLimbs (h : ∀ x ∈ s, x < limbMod t) :
    normalizeLimbs t (normalizeLimbs t s).f
      = { trim := 0, nd := (normalizeLimbs t s).nd, f := (normalizeLimbs t s).f } := by
  rcases eq_or_ne (limbSum t s) 0 with hs | hs
  · rw [normalizeLimbs_of_limbSum_eq_zero hs]; rfl
  · exact normalizeLimbs_of_limbsNormal (limbsNormal_normalizeLimbs_of_limbSum_ne_zero h hs)

/-- Settles O48: the limbs left meet R24 and give the number back when their low zero digits are put back, which fixes every
field. -/
theorem normalizerTrimsToTheCanonicalForm : Obligations.NormalizerTrimsToTheCanonicalForm := by
  intro t s L h
  have hdiv := limbSum_normalizeLimbs_eq_div h
  refine ⟨normalizeLimbs_of_limbSum_eq_zero, fun hs => ?_, fromGrid_eq_canon t s L h, normalizeLimbs_normalizeLimbs h⟩
  have hnormal := limbsNormal_normalizeLimbs_of_limbSum_ne_zero h hs
  obtain ⟨-, hnd, -⟩ := (limbsNormal_iff t _ _).1 hnormal
  exact ⟨Dvd.intro_left _ (limbSum_normalizeLimbs t s h), not_base_pow_trim_succ_dvd h hs, hdiv, hdiv ▸ hnd, hnormal⟩

end Sys2Proof.Machine
end

section
/-! PROOFS. The commands NRM.B and NRM.D in every state (42_normalize_shift.md R146, R147). -/

namespace Sys2Proof.Machine

open Sys2Proof

variable {s : State} {d : VIx} {t : Radix} {place : Word} {limbs : List Word}

/-! ### Bounds spelled out (00_scope.md R15) -/

theorem inBounds_iff (lp : Int) (nd : Nat) : inBounds lp nd = true ↔ nd ≤ 65536 ∧ -65536 ≤ lp ∧ lp ≤ 65536 := by
  unfold inBounds Config.kMaxDigits Config.kMinLowPlace Config.kMaxLowPlace
  simp [and_assoc]

theorem inBounds_eq_false_iff (lp : Int) (nd : Nat) :
    inBounds lp nd = false ↔ 65536 < nd ∨ lp < -65536 ∨ 65536 < lp := by
  rw [Bool.eq_false_iff, Ne, inBounds_iff]
  omega

/-! ### Loading a grid -/

/-- Format AN (30_encoding.md R71, R72). -/
theorem wordAN_eq_append (o : Opcode) (d : VIx) (n : Nat) :
    wordAN o d n = o.code ++ BitVec.ofNat 4 d.val ++ 0#4 ++ BitVec.ofNat 16 n := rfl

/-- `Canon_t(S * beta^L)`, S the sum of the limbs of a grid with low place L (42_normalize_shift.md R146). -/
def gridCanon (t : Radix) (place : Word) (limbs : List Word) : BigFloat :=
  canon t (limbSum t (limbNats limbs)) place.toInt

/-- Past the limb check the command allocates and delivers `Canon_t(S * beta^L)`, which is its own intermediate
(42_normalize_shift.md R146). -/
theorem State.loadGrid_of_limbs (h : ∀ x ∈ limbs, x.toNat < limbMod t) :
    s.loadGrid t d place limbs = s.allocating d t fun s' =>
      s'.deliver d t (gridCanon t place limbs) (gridCanon t place limbs).lp (gridCanon t place limbs).nd
        (limbs.length + 2) := by
  have hlimbs : limbs.all (isLimb t) = true := List.all_eq_true.2 fun x hx => (isLimb_iff t x).2 (h x hx)
  have hnats : ∀ x ∈ limbNats limbs, x < limbMod t := List.forall_mem_map.2 h
  rw [State.loadGrid, if_pos hlimbs, fromGrid_eq_canon t _ _ hnats]
  rfl

theorem State.loadGrid_eq_outOfMemory (h : ∀ x ∈ limbs, x.toNat < limbMod t) (halloc : s.oracle.allocFails = true) :
    s.loadGrid t d place limbs = (s.withOracle s.oracle.afterAlloc).raiseInto .outOfMemory d t := by
  rw [State.loadGrid_of_limbs h, State.allocating_of_allocFails halloc]

theorem State.loadGrid_eq_complete (h : ∀ x ∈ limbs, x.toNat < limbMod t) (halloc : s.oracle.allocFails = false)
    (hnd : (gridCanon t place limbs).nd ≤ 65536) (hlow : -65536 ≤ (gridCanon t place limbs).lp)
    (htop : (gridCanon t place limbs).lp ≤ 65536) :
    s.loadGrid t d place limbs
      = (s.withOracle s.oracle.afterAlloc).complete d t (gridCanon t place limbs) (limbs.length + 2) := by
  have hbounds := (inBounds_iff _ _).2 ⟨hnd, hlow, htop⟩
  rw [State.loadGrid_of_limbs h, State.allocating_of_not_allocFails halloc, State.deliver_of_inBounds hbounds hbounds]

theorem State.loadGrid_eq_integerOverflow (h : ∀ x ∈ limbs, x.toNat < limbMod t)
    (halloc : s.oracle.allocFails = false)
    (hout : 65536 < (gridCanon t place limbs).nd ∨ (gridCanon t place limbs).lp < -65536
      ∨ 65536 < (gridCanon t place limbs).lp) :
    s.loadGrid t d place limbs = (s.withOracle s.oracle.afterAlloc).raiseInto .integerOverflow d t := by
  rw [State.loadGrid_of_limbs h, State.allocating_of_not_allocFails halloc,
    State.deliver_of_not_inBounds ((inBounds_eq_false_iff _ _).2 hout)]

/-- The limb check comes before the allocation (42_normalize_shift.md R147). -/
theorem State.loadGrid_eq_invalidOperand (h : ∃ x ∈ limbs, limbMod t ≤ x.toNat) :
    s.loadGrid t d place limbs = s.raise .invalidOperand := by
  obtain ⟨x, hx, hbig⟩ := h
  refine if_neg fun hall => ?_
  have hlt := (isLimb_iff t x).1 (List.all_eq_true.1 hall x hx)
  omega

/-- Settles O34: every word is a BIN limb, and the answer goes by the allocator's and by the bounds of `Canon_BIN`. -/
theorem nrmBNormalizesTheLimbs : Obligations.NrmBNormalizesTheLimbs := by
  refine ⟨inBounds_iff, ?_⟩
  rintro d L limbs s _ rfl
  have hlimbs : ∀ x ∈ limbs, x.toNat < limbMod .bin := fun x _ => x.isLt
  exact ⟨congrArg (· :: L :: limbs) (wordAN_eq_append .nrmB d limbs.length),
    isCanon_canon .bin _ _,
    fun halloc => congrArg _ (State.loadGrid_eq_outOfMemory hlimbs halloc),
    fun halloc hnd hlow htop => congrArg _ (State.loadGrid_eq_complete hlimbs halloc hnd hlow htop),
    fun halloc hout => congrArg _ (State.loadGrid_eq_integerOverflow hlimbs halloc hout)⟩

/-- Settles O35: below 10^8 as O34, and a limb from 10^8 on fails the limb check. -/
theorem nrmDNormalizesTheLimbs : Obligations.NrmDNormalizesTheLimbs := by
  rintro d L limbs s _ rfl
  refine ⟨congrArg (· :: L :: limbs) (wordAN_eq_append .nrmD d limbs.length), fun hlimbs => ?_,
    fun hbig => congrArg _ (State.loadGrid_eq_invalidOperand (t := .dec) hbig)⟩
  exact ⟨isCanon_canon .dec _ _,
    fun halloc => congrArg _ (State.loadGrid_eq_outOfMemory hlimbs halloc),
    fun halloc hnd hlow htop => congrArg _ (State.loadGrid_eq_complete hlimbs halloc hnd hlow htop),
    fun halloc hout => congrArg _ (State.loadGrid_eq_integerOverflow hlimbs halloc hout)⟩

end Sys2Proof.Machine
end

section
/-! PROOFS. The command SHIFT in every state (42_normalize_shift.md R145). -/

namespace Sys2Proof.Machine

open Sys2Proof

variable {s : State} {d : VIx} {t : Radix} {x : BigFloat} {off : Int}

/-- A place is bad past the place bounds (42_normalize_shift.md R145). -/
theorem placeBad_iff (p : Int) : placeBad p = true ↔ p < -65536 ∨ 65536 < p := by
  rw [← Bool.not_eq_false, placeBad_eq_false_iff]
  omega

/-- Moving the low place multiplies the value by a power of the base (42_normalize_shift.md R145). -/
theorem valueOf_move (t : Radix) (x : BigFloat) (off : Int) :
    valueOf t { x with lp := x.lp + off } = valueOf t x * (base t : ℚ) ^ off := by
  have hsplit : (base t : ℚ) ^ (x.lp + off) = (base t : ℚ) ^ x.lp * (base t : ℚ) ^ off :=
    zpow_add₀ (base_cast_ne_zero t) _ _
  rw [valueOf, valueOf, hsplit, ← mul_assoc]
  rfl

theorem exec_shift_of_reg {w : Word} (hd : s.reg d = .value t x) :
    exec (.shift d w) s = .next (s.shiftValue d t x w.toInt) := by
  rw [exec, execShift, State.withValue_of_reg_eq hd, signExtended]

/-! ### A nonzero value -/

theorem State.shiftValue_eq_complete (hnd : x.nd ≠ 0) (hoff : placeBad off = false)
    (hplace : placeBad (x.lp + off) = false) :
    s.shiftValue d t x off = s.complete d t { x with lp := x.lp + off } 2 := by
  simp [State.shiftValue, hnd, hoff, hplace]

theorem State.shiftValue_eq_integerOverflow (hnd : x.nd ≠ 0)
    (hbad : placeBad off = true ∨ placeBad (x.lp + off) = true) :
    s.shiftValue d t x off = s.raiseInto .integerOverflow d t := by
  rw [State.shiftValue, if_neg hnd]
  split_ifs with hoff hplace
  · rfl
  · rfl
  · exact absurd hbad (by simp [hoff, hplace])

/-! ### Zero -/

theorem State.shiftValue_zero_of_not_placeBad (hnd : x.nd = 0) (hoff : placeBad off = false) :
    s.shiftValue d t x off = s.advance 2 := by
  simp [State.shiftValue, hnd, hoff]

/-- Zero with an offset out of bounds: a draw decides (93_implementation_defined.md U2). -/
theorem State.shiftValue_zero_of_placeBad (hnd : x.nd = 0) (hoff : placeBad off = true) :
    s.shiftValue d t x off
      = if s.oracle.eitherFaults = true then (s.withOracle s.oracle.afterEither).raiseInto .integerOverflow d t
        else (s.withOracle s.oracle.afterEither).advance 2 := by
  rw [State.shiftValue, if_pos hnd, if_pos hoff]

/-- Settles O41: by what Vd holds, the bounds of the offset and of the resulting place, and the draw for zero. -/
theorem shiftMultipliesByAPowerOfTheBase : Obligations.ShiftMultipliesByAPowerOfTheBase := by
  intro d off s
  refine ⟨congrArg (· :: [off]) (wordA_eq_append .shift d), fun hempty => ?_, fun t x hd => ?_⟩
  · rw [exec, execShift, State.withValue_of_reg_eq_empty hempty]
  rw [exec_shift_of_reg hd]
  refine ⟨fun hnd hlow htop hplaceLow hplaceTop => ⟨?_, valueOf_move t x off.toInt⟩, fun hnd hbad => ?_,
    fun hnd hlow htop => ?_, fun hnd hoff hdraw => ?_, fun hnd hoff hdraw => ?_⟩
  · rw [State.shiftValue_eq_complete hnd ((placeBad_eq_false_iff _).2 ⟨hlow, htop⟩)
      ((placeBad_eq_false_iff _).2 ⟨hplaceLow, hplaceTop⟩)]
    rfl
  · rw [State.shiftValue_eq_integerOverflow hnd (by rw [placeBad_iff, placeBad_iff]; omega)]
  · rw [State.shiftValue_zero_of_not_placeBad hnd ((placeBad_eq_false_iff _).2 ⟨hlow, htop⟩)]
    rfl
  · rw [State.shiftValue_zero_of_placeBad hnd ((placeBad_iff _).2 hoff), if_neg (Bool.eq_false_iff.1 hdraw)]
    rfl
  · rw [State.shiftValue_zero_of_placeBad hnd ((placeBad_iff _).2 hoff), if_pos hdraw]
    rfl

end Sys2Proof.Machine
end

section
/-! PROOFS. The order of normalized values as the spec's comparison finds it: zero operands, then extents, then aligned limbs from
the top (43_compare.md R162 to R164). -/

namespace Sys2Proof.Machine

open Sys2Proof

variable {t : Radix} {a b : BigFloat}

/-! ### Zero and the extent in the exact value -/

@[simp] theorem valueOf_zero (t : Radix) : valueOf t .zero = 0 := by
  simp [valueOf, significand, limbNats, limbSum, BigFloat.zero]

/-- A normalized value lies below `beta` to its extent. -/
theorem valueOf_lt_base_zpow_extent (h : normalized t a = true) : valueOf t a < (base t : ℚ) ^ extent a := by
  have hlt : (significand t a : ℚ) < (base t : ℚ) ^ a.nd := by exact_mod_cast significand_lt_of_normalized h
  rw [extent, add_comm, zpow_add₀ (base_cast_ne_zero t), zpow_natCast]
  exact mul_lt_mul_of_pos_right hlt (zpow_pos (Nat.cast_pos.2 (base_pos t)) _)

/-- A nonzero normalized value reaches the weight of its top digit, one place below its extent. -/
theorem base_zpow_extent_sub_one_le_valueOf (h : normalized t a = true) (hnd : a.nd ≠ 0) :
    (base t : ℚ) ^ (extent a - 1) ≤ valueOf t a := by
  obtain ⟨-, htriple⟩ := (normalized_iff_of_nd_ne_zero t a hnd).1 h
  have hcount : a.nd = digitCount t (significand t a) := congrArg BigFloat.nd htriple
  obtain ⟨k, hk⟩ := Nat.exists_eq_succ_of_ne_zero hnd
  have htop : (base t : ℚ) ^ k ≤ significand t a := by
    exact_mod_cast pow_le_of_digitCount t _ k (hcount.symm.trans hk)
  have hplace : extent a - 1 = k + a.lp := by rw [extent, hk]; push_cast; ring
  rw [hplace, zpow_add₀ (base_cast_ne_zero t), zpow_natCast]
  exact mul_le_mul_of_nonneg_right htop (zpow_nonneg (Nat.cast_nonneg _) _)

theorem valueOf_pos_of_normalized (h : normalized t a = true) (hnd : a.nd ≠ 0) : 0 < valueOf t a :=
  (zpow_pos (Nat.cast_pos.2 (base_pos t)) _).trans_le (base_zpow_extent_sub_one_le_valueOf h hnd)

theorem valueOf_eq_zero_of_normalized (h : normalized t a = true) (hnd : a.nd = 0) : valueOf t a = 0 := by
  rw [(normalized_iff_of_nd_eq_zero t a hnd).1 h, valueOf_zero]

/-- Zero has no digits, and nothing else has none (43_compare.md R160). -/
theorem nd_eq_zero_iff_valueOf_eq_zero (h : normalized t a = true) : a.nd = 0 ↔ valueOf t a = 0 :=
  ⟨valueOf_eq_zero_of_normalized h, fun hzero => by_contra fun hnd => (valueOf_pos_of_normalized h hnd).ne' hzero⟩

/-- Of two nonzero normalized values the one of the greater extent is greater (43_compare.md R162 step 1). -/
theorem valueOf_lt_of_extent_lt (ha : normalized t a = true) (hb : normalized t b = true) (hnd : b.nd ≠ 0)
    (hlt : extent a < extent b) : valueOf t a < valueOf t b :=
  calc valueOf t a < (base t : ℚ) ^ extent a := valueOf_lt_base_zpow_extent ha
    _ ≤ (base t : ℚ) ^ (extent b - 1) :=
      zpow_le_zpow_right₀ (Nat.one_le_cast.2 (base_pos t)) (Int.le_sub_one_of_lt hlt)
    _ ≤ valueOf t b := base_zpow_extent_sub_one_le_valueOf hb hnd

/-! ### Limbs from the top -/

/-- A limb below decides only between equal numbers above it. -/
theorem compare_limb_add_mul {x y n p q : Nat} (hx : x < n) (hy : y < n) :
    compare (x + n * p) (y + n * q) = (compare p q).then (compare x y) := by
  rcases Nat.lt_trichotomy p q with hlt | rfl | hgt
  · have hrow : n * (p + 1) ≤ n * q := Nat.mul_le_mul_left n hlt
    rw [compare_lt_iff_lt.2 hlt, Ordering.lt_then, compare_lt_iff_lt]
    rw [Nat.mul_succ] at hrow
    omega
  · rw [compare_eq_iff_eq.2 rfl, Ordering.eq_then]
    simp [compare, compareOfLessAndEq]
  · have hrow : n * (q + 1) ≤ n * p := Nat.mul_le_mul_left n hgt
    rw [compare_gt_iff_gt.2 hgt, Ordering.gt_then, compare_gt_iff_gt]
    rw [Nat.mul_succ] at hrow
    omega

/-- Limbs of the radix compared from the top compare as the numbers they stand for (43_compare.md R162 step 2). -/
theorem compareTop_eq_compare_limbSum (t : Radix) (x y : List Nat) (hlength : x.length = y.length)
    (hx : ∀ z ∈ x, z < limbMod t) (hy : ∀ z ∈ y, z < limbMod t) :
    compareTop x y = compare (limbSum t x) (limbSum t y) := by
  induction x generalizing y with
  | nil => simp [compareTop, List.length_eq_zero_iff.1 hlength.symm]
  | cons u us ih =>
    cases y with
    | nil => simp at hlength
    | cons v vs =>
      obtain ⟨hu, hus⟩ := List.forall_mem_cons.1 hx
      obtain ⟨hv, hvs⟩ := List.forall_mem_cons.1 hy
      rw [limbSum, limbSum, compare_limb_add_mul hu hv, ← ih vs (Nat.succ.inj hlength) hus hvs, compareTop]
      cases compareTop us vs <;> rfl

/-- On one extent the aligned limbs from the top give the order of the values (43_compare.md R162 step 2). -/
theorem compareTop_alignAt_eq_compareValues (ha : normalized t a = true) (hb : normalized t b = true)
    (hextent : extent a = extent b) :
    compareTop (alignAt t a (anchor a b) (gridSize t (extent a) (anchor a b)))
      (alignAt t b (anchor a b) (gridSize t (extent a) (anchor a b))) = compareValues t a b := by
  have hafits := significandAt_lt_of_extent_le ha (min_le_left a.lp b.lp) le_rfl
  have hbfits := significandAt_lt_of_extent_le hb (min_le_right a.lp b.lp) hextent.ge
  rw [alignAt_eq_limbsOf ha, alignAt_eq_limbsOf hb,
    compareTop_eq_compare_limbSum t _ _ (by simp) (limbsOf_lt t _ _) (limbsOf_lt t _ _), anchor,
    limbSum_limbsOf t _ _ hafits, limbSum_limbsOf t _ _ hbfits, compareValues, anchor]

/-- The procedure for two nonzero operands gives the order of the values (43_compare.md R162). -/
theorem compareNonzero_eq_compareValues (ha : normalized t a = true) (hb : normalized t b = true) (hand : a.nd ≠ 0)
    (hbnd : b.nd ≠ 0) : compareNonzero t a b = compareValues t a b := by
  unfold compareNonzero
  rcases lt_trichotomy (extent a) (extent b) with hlt | heq | hgt
  · rw [compare_lt_iff_lt.2 hlt, (compareValues_eq_lt_iff t a b).2 (valueOf_lt_of_extent_lt ha hb hbnd hlt)]
  · rw [compare_eq_iff_eq.2 heq]
    exact compareTop_alignAt_eq_compareValues ha hb heq
  · rw [compare_gt_iff_gt.2 hgt, (compareValues_eq_gt_iff t a b).2 (valueOf_lt_of_extent_lt hb ha hand hgt)]

/-- The limb comparison is CMP's comparison of the exact values (43_compare.md R162, R164). -/
theorem compareLimbs_eq_compareValues (ha : normalized t a = true) (hb : normalized t b = true) :
    compareLimbs t a b = compareValues t a b := by
  unfold compareLimbs
  split_ifs with hand hbnd hbnd
  · refine ((compareValues_eq_eq_iff t a b).2 ?_).symm
    rw [valueOf_eq_zero_of_normalized ha hand, valueOf_eq_zero_of_normalized hb hbnd]
  · refine ((compareValues_eq_lt_iff t a b).2 ?_).symm
    rw [valueOf_eq_zero_of_normalized ha hand]
    exact valueOf_pos_of_normalized hb hbnd
  · refine ((compareValues_eq_gt_iff t a b).2 ?_).symm
    rw [valueOf_eq_zero_of_normalized hb hbnd]
    exact valueOf_pos_of_normalized ha hand
  · exact compareNonzero_eq_compareValues ha hb hand hbnd

/-- Settles O53: the limb comparison is the comparison of the exact values. -/
theorem limbComparisonOrdersTheValues : Obligations.LimbComparisonOrdersTheValues := by
  intro t a b ha hb
  rw [compareLimbs_eq_compareValues ha hb]
  exact ⟨compareValues_eq_lt_iff t a b, (compareValues_eq_eq_iff t a b).trans eq_comm, compareValues_eq_gt_iff t a b⟩

end Sys2Proof.Machine
end

section
/-! PROOFS. The commands ISZERO and CMP in every state, and what CMP's flags say (43_compare.md R160, R161, R163). -/

namespace Sys2Proof.Machine

open Sys2Proof

variable {s u : State} {a b : VIx} {t : Radix} {x y : BigFloat}

/-! ### ISZERO -/

/-- Settles O39: by what Vs holds. -/
theorem isZeroTestsForZero : Obligations.IsZeroTestsForZero := by
  intro r s
  refine ⟨congrArg (· :: []) (wordA_eq_append .isZero r), fun t x hr => ⟨?_, nd_eq_zero_iff_valueOf_eq_zero⟩,
    fun hempty => ?_⟩
  · rw [exec, execIsZero, State.withValue_of_reg_eq hr]
    rfl
  · rw [exec, execIsZero, State.withValue_of_reg_eq_empty hempty]

/-! ### CMP -/

/-- CMP of two values of one radix (43_compare.md R161). -/
theorem exec_cmp_of_regs (ha : s.reg a = .value t x) (hb : s.reg b = .value t y) :
    exec (.cmp a b) s = .next ((s.withFlags (s.flags.withOrdering (compareValues t x y))).advance 1) := by
  rw [exec, execCmp, State.withPair_of_reg_eq s ha hb]

/-- CMP's flags are the three relations of the exact values, and Z as it was (43_compare.md R161). -/
theorem withOrdering_compareValues (f : Flags) (t : Radix) (x y : BigFloat) :
    f.withOrdering (compareValues t x y)
      = { z := f.z, lt := decide (valueOf t x < valueOf t y)
          eq := decide (valueOf t x = valueOf t y), gt := decide (valueOf t y < valueOf t x) } := by
  simp only [Flags.withOrdering, compareValues_eq_lt_iff, compareValues_eq_eq_iff, compareValues_eq_gt_iff,
    eq_comm (a := valueOf t y)]

/-- Settles O40: by what the two registers hold. -/
theorem cmpOrdersTheValues : Obligations.CmpOrdersTheValues := by
  intro a b s
  refine ⟨congrArg (· :: []) (wordAB_eq_append .cmp a b), fun t x y ha hb => ?_, fun hbad => ?_⟩
  · rw [exec_cmp_of_regs ha hb, withOrdering_compareValues]
    rfl
  · rw [exec, execCmp, State.withPair_of_badPair hbad]

/-- Normalized values are equal exactly when every field is (43_compare.md R163). -/
theorem valueOf_eq_iff_fields_eq (hx : normalized t x = true) (hy : normalized t y = true) :
    valueOf t x = valueOf t y ↔ x.lp = y.lp ∧ x.nd = y.nd ∧ x.f = y.f := by
  constructor
  · intro hvalue
    have hsame : x = y := IsCanon.unique ⟨hx, hvalue⟩ ⟨hy, rfl⟩
    exact hsame ▸ ⟨rfl, rfl, rfl⟩
  · rintro ⟨hlp, -, hf⟩
    rw [valueOf, valueOf, significand, significand, hlp, hf]

/-- Settles O54: canonical forms of one value are one triple, and CMP's EQ is the equality of the values. -/
theorem equalityIsFieldEquality : Obligations.EqualityIsFieldEquality := by
  intro t x y hx hy
  have hfields := valueOf_eq_iff_fields_eq hx hy
  refine ⟨hfields, fun a b s u ha hb hexec => ?_⟩
  rw [exec_cmp_of_regs ha hb, withOrdering_compareValues] at hexec
  cases hexec
  exact decide_eq_true_iff.trans hfields

/-- A CMP that does not fault wrote its flags from some relation (43_compare.md R161). -/
theorem flags_of_cmp (hexec : exec (.cmp a b) s = .next u) (hdone : u.run = .running) :
    ∃ o : Ordering, u.flags = s.flags.withOrdering o := by
  cases effect_of_exec hexec with
  | refuse => simp at hdone
  | spoil hd | write hd => simp [Instr.spoils] at hd
  | cmp => exact ⟨_, rfl⟩

/-- Settles O55: the flags of each of the three relations. -/
theorem cmpSetsExactlyOneRelation : Obligations.CmpSetsExactlyOneRelation := by
  intro a b s u _ hexec hdone
  obtain ⟨o, hflags⟩ := flags_of_cmp hexec hdone
  rw [hflags]
  cases o <;> simp [Flags.withOrdering]

end Sys2Proof.Machine
end

section
/-! PROOFS. The schoolbook rows of MUL compute the product of the limbs' numbers, and so the value rule's product
(44_multiply.md R171). -/

namespace Sys2Proof.Machine

open Sys2Proof

variable {t : Radix} {a b : BigFloat}

/-! ### One step and one row -/

/-- The running carry stays a limb: `x * b + y + c ≤ Mod^2 - 1` (44_multiply.md R171). -/
theorem mulStep_carry_lt {x b y c n : Nat} (hx : x < n) (hb : b < n) (hy : y < n) (hc : c < n) :
    (x * b + y + c) / n < n := by
  have hsquare : x * b ≤ (n - 1) * (n - 1) := Nat.mul_le_mul (Nat.le_sub_one_of_lt hx) (Nat.le_sub_one_of_lt hb)
  obtain ⟨k, rfl⟩ := Nat.exists_eq_add_of_lt (Nat.zero_lt_of_lt hx)
  rw [Nat.div_lt_iff_lt_mul (by omega)]
  simp only [Nat.zero_add, Nat.add_sub_cancel, Nat.add_mul, Nat.mul_add] at hsquare ⊢
  omega

/-- A row replaces the limbs `ys` under B and the one above them, `y`, by limbs that stand for `x * B + ys + c`, and leaves the
limbs `zs` above (44_multiply.md R171). -/
theorem exists_mulRow_eq_append (t : Radix) (x : Nat) (bs ys : List Nat) (c y : Nat) (zs : List Nat)
    (hlength : bs.length = ys.length) (hx : x < limbMod t) (hbs : ∀ z ∈ bs, z < limbMod t)
    (hys : ∀ z ∈ ys, z < limbMod t) (hc : c < limbMod t) :
    ∃ r rs, mulRow t x bs (ys ++ y :: zs) c = r :: rs ++ zs ∧ rs.length = bs.length
      ∧ limbSum t (r :: rs) = x * limbSum t bs + limbSum t ys + c ∧ ∀ z ∈ r :: rs, z < limbMod t := by
  induction bs generalizing ys c with
  | nil =>
    obtain rfl := List.length_eq_zero_iff.1 hlength.symm
    exact ⟨c, [], rfl, rfl, by simp [limbSum], by simpa using hc⟩
  | cons b bs ih =>
    cases ys with
    | nil => simp at hlength
    | cons u us =>
      obtain ⟨hb, hbs⟩ := List.forall_mem_cons.1 hbs
      obtain ⟨hu, hus⟩ := List.forall_mem_cons.1 hys
      obtain ⟨r, rs, hrow, hrs, hsum, hlt⟩ :=
        ih us ((x * b + u + c) / limbMod t) (Nat.succ.inj hlength) hbs hus (mulStep_carry_lt hx hb hu hc)
      refine ⟨(x * b + u + c) % limbMod t, r :: rs, congrArg (_ :: ·) hrow, congrArg Nat.succ hrs, ?_,
        List.forall_mem_cons.2 ⟨Nat.mod_lt _ (limbMod_pos t), hlt⟩⟩
      rw [limbSum, hsum]
      calc (x * b + u + c) % limbMod t
            + limbMod t * (x * limbSum t bs + limbSum t us + (x * b + u + c) / limbMod t)
          = (x * b + u + c) % limbMod t + limbMod t * ((x * b + u + c) / limbMod t)
            + limbMod t * (x * limbSum t bs + limbSum t us) := by ring
        _ = x * limbSum t (b :: bs) + limbSum t (u :: us) + c := by
          rw [Nat.mod_add_div, limbSum, limbSum]
          ring

/-! ### All the rows -/

theorem limbSum_replicate_zero (t : Radix) (n : Nat) : limbSum t (List.replicate n 0) = 0 := by
  induction n with
  | zero => rfl
  | succ n ih => rw [List.replicate_succ, limbSum, ih, Nat.mul_zero]

/-- The rows for the limbs `xs` of A, on an accumulator that holds `ys` under B and zeros above, leave limbs that stand for
`A * B + ys`. Each row makes its lowest limb final and moves the window `ys` up by one, over a zero (44_multiply.md R171). -/
theorem mulRows_correct (t : Radix) (xs bs ys : List Nat) (hlength : bs.length = ys.length)
    (hxs : ∀ z ∈ xs, z < limbMod t) (hbs : ∀ z ∈ bs, z < limbMod t) (hys : ∀ z ∈ ys, z < limbMod t) :
    limbSum t (mulRows t xs bs (ys ++ List.replicate xs.length 0)) = limbSum t xs * limbSum t bs + limbSum t ys
      ∧ ∀ z ∈ mulRows t xs bs (ys ++ List.replicate xs.length 0), z < limbMod t := by
  induction xs generalizing ys with
  | nil => simpa [mulRows, limbSum] using hys
  | cons x xs ih =>
    obtain ⟨hx, hxs⟩ := List.forall_mem_cons.1 hxs
    obtain ⟨r, rs, hrow, hrs, hsum, hlt⟩ := exists_mulRow_eq_append t x bs ys 0 0 (List.replicate xs.length 0) hlength
      hx hbs hys (limbMod_pos t)
    obtain ⟨hr, hrslt⟩ := List.forall_mem_cons.1 hlt
    obtain ⟨hrest, hrestlt⟩ := ih rs hrs.symm hxs hrslt
    have hrows : mulRows t (x :: xs) bs (ys ++ List.replicate (x :: xs).length 0)
        = r :: mulRows t xs bs (rs ++ List.replicate xs.length 0) := by
      rw [List.length_cons, List.replicate_succ, mulRows, hrow]
      rfl
    rw [hrows]
    refine ⟨?_, List.forall_mem_cons.2 ⟨hr, hrestlt⟩⟩
    rw [limbSum] at hsum
    calc limbSum t (r :: mulRows t xs bs (rs ++ List.replicate xs.length 0))
        = limbMod t * (limbSum t xs * limbSum t bs) + (r + limbMod t * limbSum t rs) := by rw [limbSum, hrest]; ring
      _ = limbSum t (x :: xs) * limbSum t bs + limbSum t ys := by rw [hsum, limbSum]; ring

/-- The limb rule of MUL gives the value rule's product (44_multiply.md R171). -/
theorem mulLimbs_eq_productValue (ha : normalized t a = true) (hb : normalized t b = true) :
    mulLimbs t a b = productValue t a b := by
  have hzeros : List.replicate (a.f.length + b.f.length) 0
      = List.replicate b.f.length 0 ++ List.replicate (limbNats a.f).length 0 := by
    rw [List.replicate_append_replicate, limbNats_length, Nat.add_comm]
  obtain ⟨hsum, hlt⟩ := mulRows_correct t (limbNats a.f) (limbNats b.f) (List.replicate b.f.length 0) (by simp)
    (limbNats_lt_of_normalized ha) (limbNats_lt_of_normalized hb) (by simp [limbMod_pos t])
  rw [mulLimbs, hzeros, fromGrid_eq_canon t _ _ hlt, hsum, limbSum_replicate_zero, Nat.add_zero, productValue,
    significand, significand]

/-- Settles O52: the limb rule is the value rule, which is exact. -/
theorem schoolbookMultiplicationIsExact : Obligations.SchoolbookMultiplicationIsExact := by
  intro t a b ha hb _ _
  rw [mulLimbs_eq_productValue ha hb]
  exact isCanon_productValue t a b

end Sys2Proof.Machine
end

section
/-! PROOFS. The command MUL in every state, and the place and digit count of its product (44_multiply.md R170, R173). -/

namespace Sys2Proof.Machine

open Sys2Proof

variable {s : State} {d r : VIx} {t : Radix} {a b : BigFloat}

/-! ### MUL -/

/-- MUL of two values of one radix (44_multiply.md R170). -/
theorem exec_mul_of_regs (hne : d ≠ r) (hd : s.reg d = .value t a) (hr : s.reg r = .value t b) :
    exec (.mul d r) s = .next (s.allocating d t fun s' =>
      if a.nd = 0 ∨ b.nd = 0 then s'.complete d t .zero 1
      else s'.deliver d t (productValue t a b) (a.lp + b.lp) (mulPreDigits t a b) 1) := by
  rw [exec, execMul, State.distinct_of_ne hne, State.withPair_of_reg_eq s hd hr]

/-- Settles O44: by the operands, the allocator's answer and the answer of `BoundCheck`. -/
theorem mulIsExact : Obligations.MulIsExact := by
  intro d r s hne
  refine ⟨congrArg (· :: []) (wordAB_eq_append .mul d r), fun hbad => ?_, ?_⟩
  · rw [exec, execMul, State.distinct_of_ne hne, State.withPair_of_badPair hbad]
  rintro t a b _ _ hd hr rfl rfl
  rw [exec_mul_of_regs hne hd hr]
  refine ⟨isCanon_productValue t a b, fun halloc => ?_, fun halloc hzero => ?_, fun halloc ha hb hfinal hpre => ?_,
    fun halloc ha hb hfinal => ?_, fun halloc ha hb hfinal hpre => ?_⟩
  · rw [State.allocating_of_allocFails halloc]; rfl
  · rw [State.allocating_of_not_allocFails halloc, if_pos hzero]; rfl
  all_goals rw [State.allocating_of_not_allocFails halloc, if_neg (not_or_intro ha hb)]
  · rw [State.deliver_of_inBounds (pnd := mulPreDigits t a b) hfinal hpre]; rfl
  · rw [State.deliver_of_not_inBounds hfinal]; rfl
  · rw [State.deliver_of_grey (pnd := mulPreDigits t a b) hfinal hpre]; rfl

/-! ### The product's place and digits -/

/-- A number whose lowest digit is not zero is not zero. -/
theorem ne_zero_of_mod_base_ne_zero {m : Nat} (hm : m % base t ≠ 0) : m ≠ 0 := by
  rintro rfl
  exact hm (Nat.zero_mod _)

/-- The digits of a product of nonzero numbers: as many as the factors' together, or one less (44_multiply.md R170). -/
theorem digitCount_mul (t : Radix) {x y : Nat} (hx : x ≠ 0) (hy : y ≠ 0) :
    digitCount t (x * y) = digitCount t x + digitCount t y
      ∨ digitCount t (x * y) + 1 = digitCount t x + digitCount t y := by
  have hmost : digitCount t (x * y) ≤ digitCount t x + digitCount t y := by
    rw [digitCount_le_iff, Nat.pow_add]
    exact Nat.mul_lt_mul'' (lt_pow_digitCount t x) (lt_pow_digitCount t y)
  obtain ⟨j, hj⟩ := Nat.exists_eq_succ_of_ne_zero (mt (digitCount_eq_zero t x).1 hx)
  obtain ⟨k, hk⟩ := Nat.exists_eq_succ_of_ne_zero (mt (digitCount_eq_zero t y).1 hy)
  have hleast : base t ^ (j + k) ≤ x * y := by
    rw [Nat.pow_add]
    exact Nat.mul_le_mul (pow_le_of_digitCount t x j hj) (pow_le_of_digitCount t y k hk)
  have hmore := mt (digitCount_le_iff t (x * y) (j + k)).1 hleast.not_gt
  omega

/-- Low zero digits count as digits. -/
theorem digitCount_mul_radixPow (t : Radix) (k : Nat) {m : Nat} (hm : m ≠ 0) :
    digitCount t (m * radixPow t k) = digitCount t m + k := by
  have hcount := digitCount_add_mul t k 0 m (Nat.pow_pos (base_pos t)) hm
  rwa [Nat.zero_add, Nat.mul_comm, Nat.add_comm] at hcount

/-- A product of odd numbers is odd, so a BIN product has no low zero digits (44_multiply.md R170). -/
theorem eq_zero_of_bin_mul_eq {x y m k : Nat} (hx : x % base .bin ≠ 0) (hy : y % base .bin ≠ 0)
    (h : x * y = m * radixPow .bin k) : k = 0 := by
  by_contra hk
  have heven : 2 ∣ x * y := h ▸ (dvd_pow_self 2 hk).mul_left m
  rcases (Nat.prime_two.dvd_mul).1 heven with hdvd | hdvd
  · exact hx (Nat.mod_eq_zero_of_dvd hdvd)
  · exact hy (Nat.mod_eq_zero_of_dvd hdvd)

/-- Settles O45: the product of the significands without its `trim` low zero digits is the product's significand. -/
theorem productPlaceAndDigits : Obligations.ProductPlaceAndDigits := by
  intro t a b ha hb hand hbnd
  obtain ⟨halow, hatriple⟩ := (normalized_iff_of_nd_ne_zero t a hand).1 ha
  obtain ⟨hblow, hbtriple⟩ := (normalized_iff_of_nd_ne_zero t b hbnd).1 hb
  have hacount : a.nd = digitCount t (significand t a) := congrArg BigFloat.nd hatriple
  have hbcount : b.nd = digitCount t (significand t b) := congrArg BigFloat.nd hbtriple
  have hane := ne_zero_of_mod_base_ne_zero halow
  have hbne := ne_zero_of_mod_base_ne_zero hblow
  obtain ⟨m, trim, hm, hproduct⟩ := exists_eq_mul_radixPow t _ (Nat.mul_ne_zero hane hbne)
  have hdigits := digitCount_mul t hane hbne
  rw [hproduct, digitCount_mul_radixPow t trim (ne_zero_of_mod_base_ne_zero hm), ← hacount, ← hbcount] at hdigits
  rw [productValue, hproduct, canon_mul_radixPow t m trim _ hm]
  refine ⟨trim, rfl, ?_, hdigits⟩
  rintro rfl
  exact eq_zero_of_bin_mul_eq halow hblow hproduct

end Sys2Proof.Machine
end

section
/-! PROOFS. The rounded value as the nearest multiple of the last kept bit, ties to even, and the limb chain that computes it
(45_round.md R181 to R186, R189, R190). -/

namespace Sys2Proof.Machine

open Sys2Proof

variable {spec : FloatSpec} {v : BigFloat}

/-! ### The nearest multiple, ties to even -/

/-- `k * u` lies within half of `u` of `x`, and a `k` at just half is even (45_round.md R184, R186). -/
def NearestEven (x u : ℚ) (k : Nat) : Prop := 2 * |x - k * u| ≤ u ∧ (2 * |x - k * u| = u → k % 2 = 0)

namespace NearestEven

variable {x u : ℚ} {k : Nat}

theorem of_lt (h : 2 * |x - k * u| < u) : NearestEven x u k := ⟨h.le, fun htie => absurd htie h.ne⟩

theorem scale (h : NearestEven x u k) {c : ℚ} (hc : 0 < c) : NearestEven (x * c) (u * c) k := by
  have hdist : 2 * |x * c - k * (u * c)| = 2 * |x - k * u| * c := by
    rw [← mul_assoc, ← sub_mul, abs_mul, abs_of_pos hc, mul_assoc]
  rw [NearestEven, hdist]
  exact ⟨mul_le_mul_of_nonneg_right h.1 hc.le, fun htie => h.2 (mul_right_cancel₀ hc.ne' htie)⟩

/-- Two multiples of `u` lie at least `u` apart, so no multiple is nearer, and one as near makes a tie. -/
theorem isNearest (h : NearestEven x u k) (hu : 0 < u) (j : Nat) :
    |x - k * u| ≤ |x - j * u| ∧ (j ≠ k → |x - k * u| = |x - j * u| → k % 2 = 0) := by
  obtain ⟨hhalf, heven⟩ := h
  rcases eq_or_ne j k with rfl | hjk
  · exact ⟨le_rfl, fun hne => absurd rfl hne⟩
  have hint : (1 : ℚ) ≤ |(j : ℚ) - k| := by
    exact_mod_cast Int.one_le_abs (sub_ne_zero.2 (Nat.cast_injective.ne hjk : (j : ℤ) ≠ k))
  have happart : u ≤ |x - k * u| + |x - j * u| :=
    calc u ≤ |(j : ℚ) - k| * u := le_mul_of_one_le_left hu.le hint
      _ = |(x - k * u) - (x - j * u)| := by rw [← abs_of_pos hu, ← abs_mul, abs_of_pos hu]; ring_nf
      _ ≤ |x - k * u| + |x - j * u| := abs_sub _ _
  exact ⟨by linarith, fun _ heq => heven (by linarith)⟩

/-- Below a multiple of `u`, the nearest multiple is not above it. -/
theorem le_of_lt_mul (h : NearestEven x u k) (hu : 0 < u) {a : Nat} (hx : x < a * u) : k ≤ a := by
  by_contra hak
  have hstep : ((a : ℚ) + 1) * u ≤ k * u :=
    mul_le_mul_of_nonneg_right (by exact_mod_cast Nat.lt_of_not_le hak) hu.le
  linarith [h.1, neg_le_abs (x - k * u)]

end NearestEven

/-! ### The places (45_round.md R181 to R183) -/

theorem isSubnormal_iff (spec : FloatSpec) (v : BigFloat) :
    isSubnormal spec v = true ↔ spec.den = true ∧ highBit v + spec.e1.toInt ≤ 0 := by simp [isSubnormal]

theorem lastBit_of_isSubnormal (h : isSubnormal spec v = true) : lastBit spec v = 1 - spec.e1.toInt - spec.m.toNat := if_pos h

theorem lastBit_of_not_isSubnormal (h : ¬ isSubnormal spec v = true) : lastBit spec v = highBit v - spec.m.toNat := if_neg h

theorem lastBit_eq_ite (spec : FloatSpec) (v : BigFloat) :
    lastBit spec v = if spec.den = true ∧ highBit v + spec.e1.toInt ≤ 0 then 1 - spec.e1.toInt - spec.m.toNat
      else highBit v - spec.m.toNat := if_congr (isSubnormal_iff spec v) rfl rfl

/-- With denormals the floor and the normal place meet in one maximum (45_round.md R182). -/
theorem lastBit_eq_max (hden : spec.den = true) :
    lastBit spec v = max (highBit v - spec.m.toNat) (1 - spec.e1.toInt - spec.m.toNat) := by
  rw [lastBit_eq_ite]
  split_ifs with hfloor
  · omega
  · have habove : ¬ highBit v + spec.e1.toInt ≤ 0 := fun hle => hfloor ⟨hden, hle⟩
    omega

/-- No more than `m + 1` places are kept (45_round.md R182). -/
theorem highBit_sub_le_lastBit (spec : FloatSpec) (v : BigFloat) : highBit v - spec.m.toNat ≤ lastBit spec v := by
  by_cases hsub : isSubnormal spec v = true
  · obtain ⟨hden, -⟩ := (isSubnormal_iff spec v).1 hsub
    exact (lastBit_eq_max hden).symm ▸ le_max_left _ _
  · exact (lastBit_of_not_isSubnormal hsub).ge

/-- The top bit lies below the rounding bit only under the floor (45_round.md R183). -/
theorem flushes_iff (spec : FloatSpec) (v : BigFloat) : flushes spec v = true ↔ highBit v < lastBit spec v - 1 := by
  rw [flushes, Bool.and_eq_true, decide_eq_true_iff, and_iff_right_iff_imp]
  intro hlow
  by_contra hsub
  rw [lastBit_of_not_isSubnormal hsub] at hlow
  omega

/-! ### The branches of the rounded value (45_round.md R180) -/

theorem roundTo_of_nd_eq_zero (spec : FloatSpec) (h : v.nd = 0) : roundTo spec v = v := if_pos h

theorem roundTo_of_flushes (hnd : v.nd ≠ 0) (h : flushes spec v = true) : roundTo spec v = .zero := by
  rw [roundTo, if_neg hnd, if_pos h]

/-- A value with no bit below the last kept one is its own rounded value. -/
theorem roundTo_of_lastBit_le (h : lastBit spec v ≤ v.lp) : roundTo spec v = v := by
  rcases eq_or_ne v.nd 0 with hnd | hnd
  · exact roundTo_of_nd_eq_zero spec hnd
  have hflush : ¬ flushes spec v = true := by
    rw [flushes_iff, highBit, extent]
    omega
  rw [roundTo, if_neg hnd, if_neg hflush, if_pos (Int.sub_one_lt_of_le h)]

theorem roundTo_of_lt_lastBit (hnd : v.nd ≠ 0) (hflush : ¬ flushes spec v = true) (h : v.lp < lastBit spec v) :
    roundTo spec v = roundedValue spec v := by
  rw [roundTo, if_neg hnd, if_neg hflush, if_neg (by omega)]

/-! ### The decision on the rounding bit (45_round.md R184) -/

/-- The decision for one dropped bit: of an odd number it is a tie, and goes to the even neighbour. -/
theorem nearestEven_tie {n : Nat} (hn : n % 2 = 1) : NearestEven n 2 (n / 2 + n / 2 % 2) := by
  have hsplit : (n : ℚ) = 2 * (n / 2 : Nat) + 1 := by exact_mod_cast (hn ▸ Nat.div_add_mod n 2).symm
  have hdist : |(n : ℚ) - (n / 2 + n / 2 % 2 : Nat) * 2| = 1 := by
    rw [abs_eq zero_le_one]
    rcases Nat.mod_two_eq_zero_or_one (n / 2) with hbit | hbit
    · left; rw [hbit, hsplit]; push_cast; ring
    · right; rw [hbit, hsplit]; push_cast; ring
  rw [NearestEven, hdist, mul_one]
  exact ⟨le_rfl, fun _ => by omega⟩

/-- The decision for more than one dropped bit: bits below the rounding bit exclude the tie, so the rounding bit decides. -/
theorem nearestEven_roundingBit {n h : Nat} (hlow : n % h ≠ 0) (hpos : 0 < h) :
    NearestEven n (h * 2) (n / (h * 2) + n / h % 2) := by
  have hsplit : (n : ℚ) = h * (2 * (n / (h * 2) : Nat) + (n / h % 2 : Nat)) + (n % h : Nat) := by
    have hq : 2 * (n / (h * 2)) + n / h % 2 = n / h := by rw [← Nat.div_div_eq_div_mul, Nat.div_add_mod]
    exact_mod_cast (hq ▸ Nat.div_add_mod n h).symm
  have hr : (0 : ℚ) < (n % h : Nat) := Nat.cast_pos.2 (Nat.pos_of_ne_zero hlow)
  have hrh : ((n % h : Nat) : ℚ) < h := Nat.cast_lt.2 (Nat.mod_lt n hpos)
  apply NearestEven.of_lt
  rcases Nat.mod_two_eq_zero_or_one (n / h) with hbit | hbit <;> rw [hbit] at hsplit ⊢
  · have hdist : (n : ℚ) - (n / (h * 2) + 0 : Nat) * (h * 2) = (n % h : Nat) := by
      rw [hsplit]; push_cast; ring
    rw [hdist, abs_of_pos hr]
    linarith
  · have hdist : (n : ℚ) - (n / (h * 2) + 1 : Nat) * (h * 2) = (n % h : Nat) - h := by
      rw [hsplit]; push_cast; ring
    rw [hdist, abs_of_neg (sub_neg.2 hrh)]
    linarith

/-- The kept bits and the decision are the multiple of `2^drop` nearest to the significand (45_round.md R184). -/
theorem nearestEven_keptBits (hodd : significand .bin v % 2 = 1) (h : v.lp < lastBit spec v) :
    NearestEven (significand .bin v) (2 ^ dropCount spec v) (keptBits spec v + roundUp spec v) := by
  have hdrop : dropCount spec v = (lastBit spec v - 1 - v.lp).toNat + 1 := by rw [dropCount]; omega
  rw [roundUp, keptBits, hdrop, Nat.add_sub_cancel]
  split_ifs with htie
  · rw [htie, Int.sub_self]
    simpa using nearestEven_tie hodd
  · obtain ⟨j, hj⟩ := Nat.exists_eq_succ_of_ne_zero (n := (lastBit spec v - 1 - v.lp).toNat) (by omega)
    have hlow : significand .bin v % 2 ^ (j + 1) ≠ 0 := by
      intro hzero
      have heven := Nat.mod_eq_zero_of_dvd ((dvd_pow_self 2 j.succ_ne_zero).trans (Nat.dvd_of_mod_eq_zero hzero))
      omega
    rw [hj, pow_succ, pow_succ (2 : Nat) (j + 1)]
    exact_mod_cast nearestEven_roundingBit hlow (by positivity)

/-! ### The rounded value is the nearest multiple (45_round.md R186) -/

theorem valueOf_bin (v : BigFloat) : valueOf .bin v = significand .bin v * 2 ^ v.lp := by simp [valueOf, base]

theorem valueOf_canon_bin (n : Nat) (e : Int) : valueOf .bin (canon .bin n e) = n * 2 ^ e := by
  simpa [base] using (isCanon_canon .bin n e).2

theorem valueOf_lt_two_zpow_highBit (h : normalized .bin v = true) : valueOf .bin v < 2 ^ (highBit v + 1) := by
  simpa [base, highBit] using valueOf_lt_base_zpow_extent h

theorem two_zpow_highBit_le_valueOf (h : normalized .bin v = true) (hnd : v.nd ≠ 0) :
    2 ^ highBit v ≤ valueOf .bin v := by
  simpa [base, highBit] using base_zpow_extent_sub_one_le_valueOf h hnd

/-- The rounded value of each branch is `Canon_BIN` of the nearest multiple of `2^last`. -/
theorem exists_roundTo_eq_canon (spec : FloatSpec) (h : normalized .bin v = true) (hnd : v.nd ≠ 0) :
    ∃ k : Nat, roundTo spec v = canon .bin k (lastBit spec v)
      ∧ NearestEven (valueOf .bin v) (2 ^ lastBit spec v) k := by
  by_cases hflush : flushes spec v = true
  · refine ⟨0, roundTo_of_flushes hnd hflush, .of_lt ?_⟩
    have hhalf : (2 : ℚ) * 2 ^ (highBit v + 1) ≤ 2 ^ lastBit spec v := by
      rw [← zpow_one_add₀ two_ne_zero]
      exact zpow_le_zpow_right₀ one_le_two (by have := (flushes_iff spec v).1 hflush; omega)
    rw [Nat.cast_zero, zero_mul, sub_zero, abs_of_nonneg (valueOf_nonneg .bin v)]
    linarith [valueOf_lt_two_zpow_highBit h]
  rcases le_or_gt (lastBit spec v) v.lp with hkeep | hlose
  · obtain ⟨j, hj⟩ := Int.le.dest hkeep
    have hcanon : v = canon .bin (significand .bin v * base .bin ^ j) (lastBit spec v) := by
      rw [canon_mul_pow, hj]
      exact eq_canon_of_normalized .bin v h
    refine ⟨_, (roundTo_of_lastBit_le hkeep).trans hcanon, .of_lt ?_⟩
    rw [← valueOf_canon_bin, ← hcanon, sub_self, abs_zero, mul_zero]
    positivity
  · obtain ⟨hlow, -⟩ := (normalized_iff_of_nd_ne_zero .bin v hnd).1 h
    refine ⟨_, roundTo_of_lt_lastBit hnd hflush hlose, ?_⟩
    have hunit : (2 : ℚ) ^ lastBit spec v = 2 ^ dropCount spec v * 2 ^ v.lp := by
      rw [← zpow_natCast, ← zpow_add₀ two_ne_zero]
      congr 1
      rw [dropCount]
      omega
    rw [valueOf_bin, hunit]
    exact (nearestEven_keptBits (Nat.mod_two_ne_zero.1 hlow) hlose).scale (by positivity)

theorem normalized_roundTo (spec : FloatSpec) (h : normalized .bin v = true) : normalized .bin (roundTo spec v) = true := by
  rcases eq_or_ne v.nd 0 with hnd | hnd
  · rwa [roundTo_of_nd_eq_zero spec hnd]
  · obtain ⟨k, hk, -⟩ := exists_roundTo_eq_canon spec h hnd
    exact hk ▸ normalized_canon .bin k _

/-! ### The fields of a canonical form -/

theorem nd_canon_ne_zero_iff (t : Radix) (n : Nat) (e : Int) : (canon t n e).nd ≠ 0 ↔ n ≠ 0 := by
  rw [Ne, nd_eq_zero_iff_valueOf_eq_zero (normalized_canon t n e), (isCanon_canon t n e).2]
  simp [zpow_ne_zero _ (base_cast_ne_zero t)]

theorem le_lp_canon (t : Radix) {n : Nat} (e : Int) (hn : n ≠ 0) : e ≤ (canon t n e).lp := by
  rw [canon, if_neg hn]
  exact Int.le_add_of_nonneg_right (Int.natCast_nonneg _)

/-- Trimming low zero digits keeps the top digit's place. -/
theorem extent_canon (t : Radix) {n : Nat} (e : Int) (hn : n ≠ 0) : extent (canon t n e) = e + digitCount t n := by
  obtain ⟨m, k, hm, rfl⟩ := exists_eq_mul_radixPow t n hn
  rw [canon_mul_radixPow t m k e hm, digitCount_mul_radixPow t k (ne_zero_of_mod_base_ne_zero hm), extent, tripleOf]
  push_cast
  ring

/-- A multiple up to `2^a` has at most `a` digits, or is the one digit of `2^a` (45_round.md R185, the mantissa overflow). -/
theorem nd_canon_le {k a : Nat} (e : Int) (hk : k ≤ 2 ^ a) : (canon .bin k e).nd ≤ max 1 a := by
  rcases hk.lt_or_eq with hlt | rfl
  · rcases eq_or_ne k 0 with rfl | hne
    · exact Nat.zero_le _
    have hdigits : digitCount .bin k ≤ a := (digitCount_le_iff .bin k a).2 hlt
    have htop := extent_canon .bin e hne
    have hplace := le_lp_canon .bin e hne
    rw [extent] at htop
    omega
  · have hone := canon_mul_radixPow .bin 1 a e (by decide)
    rw [Nat.one_mul] at hone
    exact le_max_of_le_left (congrArg BigFloat.nd hone).le

/-! ### The bounds of the rounded value (45_round.md R186) -/

/-- The places from `last` to the top bit, none where the top bit lies below `last`. -/
def keptPlaces (spec : FloatSpec) (v : BigFloat) : Nat := (highBit v + 1 - lastBit spec v).toNat

theorem keptPlaces_le (spec : FloatSpec) (v : BigFloat) : keptPlaces spec v ≤ spec.m.toNat + 1 := by
  have := highBit_sub_le_lastBit spec v
  rw [keptPlaces]
  omega

/-- The nearest multiple has no more than the kept places, or is the power of two above them. -/
theorem NearestEven.le_two_pow_keptPlaces {k : Nat} (h : normalized .bin v = true)
    (hk : NearestEven (valueOf .bin v) (2 ^ lastBit spec v) k) : k ≤ 2 ^ keptPlaces spec v := by
  refine hk.le_of_lt_mul (by positivity) ((valueOf_lt_two_zpow_highBit h).trans_le ?_)
  rw [Nat.cast_pow, Nat.cast_ofNat, ← zpow_natCast, ← zpow_add₀ two_ne_zero]
  exact zpow_le_zpow_right₀ one_le_two (by rw [keptPlaces]; omega)

theorem nd_roundTo_le (spec : FloatSpec) (h : normalized .bin v = true) (hnd : v.nd ≠ 0) :
    (roundTo spec v).nd ≤ max 1 (keptPlaces spec v) := by
  obtain ⟨k, hk, hnear⟩ := exists_roundTo_eq_canon spec h hnd
  exact hk ▸ nd_canon_le _ (hnear.le_two_pow_keptPlaces h)

theorem nd_roundTo_le_mantissa (spec : FloatSpec) (h : normalized .bin v = true) (hnd : v.nd ≠ 0) :
    (roundTo spec v).nd ≤ spec.m.toNat + 1 :=
  (nd_roundTo_le spec h hnd).trans (max_le (Nat.le_add_left _ _) (keptPlaces_le spec v))

theorem lastBit_le_lp_roundTo (h : normalized .bin v = true) (hnd : v.nd ≠ 0) (hw : (roundTo spec v).nd ≠ 0) :
    lastBit spec v ≤ (roundTo spec v).lp := by
  obtain ⟨k, hk, -⟩ := exists_roundTo_eq_canon spec h hnd
  rw [hk] at hw ⊢
  exact le_lp_canon .bin _ ((nd_canon_ne_zero_iff _ _ _).1 hw)

theorem highBit_roundTo_le (h : normalized .bin v = true) (hnd : v.nd ≠ 0) (hw : (roundTo spec v).nd ≠ 0) :
    highBit (roundTo spec v) ≤ highBit v + 1 := by
  have hflush : ¬ flushes spec v = true := fun hflush => hw (by rw [roundTo_of_flushes hnd hflush]; rfl)
  rw [flushes_iff] at hflush
  obtain ⟨k, hk, hnear⟩ := exists_roundTo_eq_canon spec h hnd
  rw [hk] at hw ⊢
  have hdigits : digitCount .bin k ≤ keptPlaces spec v + 1 :=
    (digitCount_le_iff .bin k _).2 ((hnear.le_two_pow_keptPlaces h).trans_lt (Nat.pow_lt_pow_succ (by decide)))
  rw [highBit, extent_canon .bin _ ((nd_canon_ne_zero_iff _ _ _).1 hw)]
  rw [keptPlaces] at hdigits
  omega

/-- A zero result is at most half of `2^last`, so the top bit lies below `last`, which only the floor allows. -/
theorem of_nd_roundTo_eq_zero (h : normalized .bin v = true) (hnd : v.nd ≠ 0) (hw : (roundTo spec v).nd = 0) :
    isSubnormal spec v = true ∧ valueOf .bin v ≤ 2 ^ lastBit spec v / 2 := by
  obtain ⟨k, hk, hnear, -⟩ := exists_roundTo_eq_canon spec h hnd
  obtain rfl : k = 0 := by
    by_contra hne
    exact (nd_canon_ne_zero_iff .bin k (lastBit spec v)).2 hne (hk ▸ hw)
  rw [Nat.cast_zero, zero_mul, sub_zero, abs_of_nonneg (valueOf_nonneg .bin v)] at hnear
  refine ⟨?_, by linarith⟩
  by_contra hsub
  have hplace : (2 : ℚ) ^ lastBit spec v ≤ 2 ^ highBit v :=
    zpow_le_zpow_right₀ one_le_two (by rw [lastBit_of_not_isSubnormal hsub]; omega)
  have hpos : (0 : ℚ) < 2 ^ lastBit spec v := by positivity
  linarith [two_zpow_highBit_le_valueOf h hnd]

/-- Settles O58: the rounded value is `Canon_BIN` of the nearest multiple, whose size bounds its digits and its top bit. -/
theorem roundingIsToNearestEven : Obligations.RoundingIsToNearestEven := by
  intro spec v h hnd
  refine ⟨isSubnormal_iff spec v, lastBit_eq_ite spec v, lastBit_eq_max, normalized_roundTo spec h, ?_,
    nd_roundTo_le_mantissa spec h hnd, fun _ hflush => ?_, fun hw => ⟨?_, highBit_roundTo_le h hnd hw⟩, fun hw => ?_⟩
  · obtain ⟨k, hk, hnear⟩ := exists_roundTo_eq_canon spec h hnd
    exact ⟨k, hk ▸ valueOf_canon_bin k _, hnear.isNearest (by positivity)⟩
  · have hdigits := nd_roundTo_le spec h hnd
    have hhigh := mt (flushes_iff spec v).2 (Bool.eq_false_iff.1 hflush)
    rw [keptPlaces] at hdigits
    omega
  · have hplace := lastBit_le_lp_roundTo h hnd hw
    rw [highBit, extent]
    omega
  · obtain ⟨hsub, hvalue⟩ := of_nd_roundTo_eq_zero h hnd hw
    exact ⟨((isSubnormal_iff spec v).1 hsub).1, lastBit_of_isSubnormal hsub, hvalue⟩

/-! ### Rounding again (45_round.md R189, R190) -/

/-- Settles O59: a rounded value has no bit below its own last kept one, be that the floor or `m` places below its top bit. -/
theorem roundingIsIdempotent : Obligations.RoundingIsIdempotent := by
  intro spec v h
  have hshort {w : BigFloat} (hsub : ¬ isSubnormal spec w = true) (hw : w.nd ≤ spec.m.toNat + 1) :
      lastBit spec w ≤ w.lp := by
    rw [lastBit_of_not_isSubnormal hsub, highBit, extent]
    omega
  refine ⟨?_, fun hsub hw => roundTo_of_lastBit_le (hshort (Bool.eq_false_iff.1 hsub) hw)⟩
  rcases eq_or_ne v.nd 0 with hnd | hnd
  · rw [roundTo_of_nd_eq_zero spec hnd, roundTo_of_nd_eq_zero spec hnd]
  rcases eq_or_ne (roundTo spec v).nd 0 with hw | hw
  · exact roundTo_of_nd_eq_zero spec hw
  apply roundTo_of_lastBit_le
  by_cases hsub : isSubnormal spec (roundTo spec v) = true
  · obtain ⟨hden, -⟩ := (isSubnormal_iff _ _).1 hsub
    calc lastBit spec (roundTo spec v) = 1 - spec.e1.toInt - spec.m.toNat := lastBit_of_isSubnormal hsub
      _ ≤ lastBit spec v := (lastBit_eq_max hden).symm ▸ le_max_right _ _
      _ ≤ (roundTo spec v).lp := lastBit_le_lp_roundTo h hnd hw
  · exact hshort hsub (nd_roundTo_le_mantissa spec h hnd)

end Sys2Proof.Machine
end

section
/-! PROOFS. The drop, round-up and renormalization on limbs compute the rounded value (45_round.md R185). -/

namespace Sys2Proof.Machine

open Sys2Proof

/-! ### The drop -/

/-- R185 step 1 cuts the limbs of `M div 2^drop`: each limb joins the high part of limb `k + q` to the low part of the limb
above it. -/
theorem dropBits_eq_limbsOf (f : List Nat) (drop : Nat) (h : ∀ x ∈ f, x < limbMod .bin) :
    dropBits f drop = limbsOf .bin (max (f.length - drop / 32) 1) (limbSum .bin f / 2 ^ drop) := by
  rw [limbsOf_eq_map_range, dropBits]
  refine List.map_congr_left fun k _ => ?_
  have hmod : 2 ^ (32 - drop % 32) * 2 ^ (drop % 32) = limbMod .bin := by
    rw [Nat.mul_comm]
    exact radixPow_mul_split .bin drop
  have hdigit := split_raise_digit (limbSum .bin f) (limbMod .bin ^ (k + drop / 32 + 1)) (2 ^ (32 - drop % 32))
    (2 ^ (drop % 32)) (by positivity) (by positivity)
  have hshift : limbSum .bin f * 2 ^ (32 - drop % 32) / limbMod .bin ^ (k + drop / 32 + 1)
      = limbSum .bin f / 2 ^ drop / limbMod .bin ^ k := by
    have hdrop : 2 ^ drop = limbMod .bin ^ (drop / 32) * 2 ^ (drop % 32) := base_pow_eq_limbs_digits .bin drop
    have hplaces : limbMod .bin ^ (k + drop / 32 + 1) = 2 ^ drop * limbMod .bin ^ k * 2 ^ (32 - drop % 32) := by
      rw [hdrop, pow_succ, pow_add]
      nth_rw 3 [← hmod]
      ring
    rw [hplaces, Nat.mul_div_mul_right _ _ (by positivity), Nat.div_div_eq_div_mul]
  rw [hshift, hmod, pow_succ, Nat.mul_div_mul_right _ _ (limbMod_pos .bin), ← pow_succ] at hdigit
  rw [getD_eq_limbSum_div_mod .bin f _ h, getD_eq_limbSum_div_mod .bin f _ h, Nat.add_comm, hdigit]

/-- The limbs kept hold all of `M div 2^drop` (45_round.md R185 step 1). -/
theorem limbSum_dropBits (f : List Nat) (drop : Nat) (h : ∀ x ∈ f, x < limbMod .bin) :
    limbSum .bin (dropBits f drop) = limbSum .bin f / 2 ^ drop := by
  rw [dropBits_eq_limbsOf f drop h]
  apply limbSum_limbsOf
  apply Nat.div_lt_of_lt_mul
  calc limbSum .bin f < limbMod .bin ^ f.length := limbSum_lt .bin f h
    _ ≤ limbMod .bin ^ (drop / 32 + max (f.length - drop / 32) 1) :=
      Nat.pow_le_pow_right (limbMod_pos .bin) (by omega)
    _ = limbMod .bin ^ (drop / 32) * limbMod .bin ^ max (f.length - drop / 32) 1 := pow_add ..
    _ ≤ 2 ^ drop * limbMod .bin ^ max (f.length - drop / 32) 1 := by
      refine Nat.mul_le_mul_right _ ?_
      rw [limbMod_eq, ← Nat.pow_mul]
      exact Nat.pow_le_pow_right (by decide) (Nat.mul_div_le drop 32)

/-! ### The round-up chain -/

/-- R185 step 2: the chain adds the carry, and every limb stays a limb. -/
theorem addCarry_correct (s : List Nat) (c : Nat) (hs : ∀ x ∈ s, x < limbMod .bin) (hc : c < limbMod .bin) :
    limbSum .bin (addCarry s c) = limbSum .bin s + c ∧ ∀ x ∈ addCarry s c, x < limbMod .bin := by
  induction s generalizing c with
  | nil =>
    rw [addCarry]
    split_ifs with hzero
    · simp [limbSum, hzero]
    · simpa [limbSum] using hc
  | cons x xs ih =>
    obtain ⟨hx, hxs⟩ := List.forall_mem_cons.1 hs
    have hcarry : (x + c) / limbMod .bin < limbMod .bin := by
      simp only [limbMod] at hx hc ⊢
      omega
    obtain ⟨hsum, hlt⟩ := ih _ hxs hcarry
    refine ⟨?_, List.forall_mem_cons.2 ⟨Nat.mod_lt _ (limbMod_pos .bin), hlt⟩⟩
    calc limbSum .bin (addCarry (x :: xs) c)
        = (x + c) % limbMod .bin + limbMod .bin * (limbSum .bin xs + (x + c) / limbMod .bin) :=
          congrArg ((x + c) % limbMod .bin + limbMod .bin * ·) hsum
      _ = (x + c) % limbMod .bin + limbMod .bin * ((x + c) / limbMod .bin) + limbMod .bin * limbSum .bin xs := by ring
      _ = limbSum .bin (x :: xs) + c := by rw [Nat.mod_add_div, limbSum]; ring

theorem roundUp_le_one (spec : FloatSpec) (v : BigFloat) : roundUp spec v ≤ 1 := by
  unfold roundUp
  split_ifs
  · exact Nat.le_of_lt_succ (Nat.mod_lt _ two_pos)
  · exact Nat.le_of_lt_succ (Nat.mod_lt _ two_pos)

/-- Settles O57: the chain's grid stands for `kept + up` at the place `last`, and normalizes to `Canon_BIN` of it. -/
theorem roundUpChainGivesTheRoundedValue : Obligations.RoundUpChainGivesTheRoundedValue := by
  intro spec v h _ _ hlose
  have hlimbs := limbNats_lt_of_normalized h
  have hdropped : ∀ x ∈ dropBits (limbNats v.f) (dropCount spec v), x < limbMod .bin := by
    rw [dropBits_eq_limbsOf _ _ hlimbs]
    exact limbsOf_lt .bin _ _
  obtain ⟨hsum, hlt⟩ := addCarry_correct _ (roundUp spec v) hdropped ((roundUp_le_one spec v).trans_lt (by decide))
  have hplace : v.lp + dropCount spec v = lastBit spec v := by rw [dropCount]; omega
  rw [roundLimbs, fromGrid_eq_canon .bin _ _ hlt, hsum, limbSum_dropBits _ _ hlimbs, hplace]
  rfl

end Sys2Proof.Machine
end

section
/-! PROOFS. The command ROUND in every state, and that exponentBits and supportsNaNs do not enter it (45_round.md R180, R187,
R188). -/

namespace Sys2Proof.Machine

open Sys2Proof

variable {s : State} {d : VIx} {v : BigFloat} {f : FloatSpec}

/-! ### ROUND -/

/-- What ROUND does with the BIN value `v` of Vd once the allocator has answered (45_round.md R180). -/
def State.roundInto (s : State) (d : VIx) (v : BigFloat) : State :=
  if v.nd = 0 then s.advance 1
  else if flushes s.fs v then s.complete d .bin .zero 1
  else if lastBit s.fs v - 1 < v.lp then s.advance 1
  else s.deliver d .bin (roundedValue s.fs v) (lastBit s.fs v) (roundPreDigits s.fs v) 1

theorem exec_round_of_bin (hd : s.reg d = .value .bin v) :
    exec (.round d) s = .next (if s.fsv = false then s.raise .invalidOperand
      else s.allocating d .bin fun s' => s'.roundInto d v) := by
  rw [exec, execRound, State.withValue_of_reg_eq hd]
  rfl

theorem exec_round_of_dec (hd : s.reg d = .value .dec v) : exec (.round d) s = .next (s.raise .invalidOperand) := by
  rw [exec, execRound, State.withValue_of_reg_eq hd]

theorem exec_round_of_empty (hd : s.reg d = .empty) : exec (.round d) s = .next (s.raise .invalidOperand) := by
  rw [exec, execRound, State.withValue_of_reg_eq_empty hd]

/-- A command that leaves Vd as it is completes with the value Vd holds. -/
theorem State.advance_eq_complete (hd : s.reg d = .value .bin v) (n : Nat) : s.advance n = s.complete d .bin v n := by
  rw [State.complete, ← hd, State.setReg_reg_self]

/-- No bound check meets zero, a value that flushes, and one with no bit below the last kept one (45_round.md R180). -/
theorem State.roundInto_eq_complete (hd : s.reg d = .value .bin v)
    (h : v.nd = 0 ∨ flushes s.fs v = true ∨ lastBit s.fs v - 1 < v.lp) :
    s.roundInto d v = s.complete d .bin (roundTo s.fs v) 1 := by
  rw [State.roundInto, State.advance_eq_complete hd, roundTo]
  split_ifs with hnd hflush hkeep
  · rfl
  · rfl
  · rfl
  · exact absurd h (not_or_intro hnd (not_or_intro hflush hkeep))

/-- Every other value loses bits and is delivered through `BoundCheck` (45_round.md R180, R187). -/
theorem State.roundInto_eq_deliver (hnd : v.nd ≠ 0) (hflush : ¬ flushes s.fs v = true)
    (hlose : v.lp ≤ lastBit s.fs v - 1) :
    s.roundInto d v = s.deliver d .bin (roundTo s.fs v) (lastBit s.fs v) (roundPreDigits s.fs v) 1 := by
  rw [State.roundInto, if_neg hnd, if_neg hflush, if_neg hlose.not_gt,
    roundTo_of_lt_lastBit hnd hflush (Int.lt_of_le_sub_one hlose)]

/-- R183 as R180 writes it: under the floor, and with the top bit below the rounding bit. -/
theorem flushes_iff_subnormal (spec : FloatSpec) (v : BigFloat) :
    flushes spec v = true ↔
      spec.den = true ∧ highBit v + spec.e1.toInt ≤ 0 ∧ highBit v < lastBit spec v - 1 := by
  rw [flushes, Bool.and_eq_true, isSubnormal_iff, decide_eq_true_iff, and_assoc]

/-- Settles O46: by what Vd and FSV hold, the allocator's answer, whether bits are lost, and the answer of `BoundCheck`. -/
theorem roundWritesTheRoundedValue : Obligations.RoundWritesTheRoundedValue := by
  intro d s
  refine ⟨congrArg (· :: []) (wordA_eq_append .round d), fun hbad => ?_, ?_⟩
  · cases hd : s.reg d with
    | empty => exact exec_round_of_empty hd
    | value t v =>
      cases t with
      | bin => simp [hd, VReg.tag] at hbad
      | dec => exact exec_round_of_dec hd
  rintro v high last pnd hd rfl hlast hpnd
  change last = (if s.fs.den = true ∧ highBit v + s.fs.e1.toInt ≤ 0 then _ else highBit v - _) at hlast
  obtain rfl : last = lastBit s.fs v := hlast.trans (lastBit_eq_ite s.fs v).symm
  obtain rfl : pnd = roundPreDigits s.fs v := hpnd
  have hloaded (hfsv : s.fsv = true) : ¬ s.fsv = false := by simp [hfsv]
  rw [exec_round_of_bin hd]
  refine ⟨fun hfsv => ?_, fun hfsv halloc => ?_, fun hfsv halloc hkeep => ?_, fun hfsv halloc hnd hflush hlose => ?_⟩
  · rw [if_pos hfsv]
  · rw [if_neg (hloaded hfsv), State.allocating_of_allocFails halloc]; rfl
  · have hkeep' : v.nd = 0 ∨ flushes s.fs v = true ∨ lastBit s.fs v - 1 < v.lp := by
      rw [flushes_iff_subnormal]
      exact hkeep
    rw [if_neg (hloaded hfsv), State.allocating_of_not_allocFails halloc,
      State.roundInto_eq_complete (s := s.withOracle s.oracle.afterAlloc) hd hkeep']
    rfl
  · have hflush' : ¬ flushes s.fs v = true := mt (flushes_iff_subnormal s.fs v).1 hflush
    rw [if_neg (hloaded hfsv), State.allocating_of_not_allocFails halloc,
      State.roundInto_eq_deliver (s := s.withOracle s.oracle.afterAlloc) hnd hflush' hlose, State.withOracle_fs]
    refine ⟨fun hfinal hpre => ?_, fun hfinal => ?_, fun hfinal hpre => ?_⟩
    · rw [State.deliver_of_inBounds hfinal hpre]; rfl
    · rw [State.deliver_of_not_inBounds hfinal]; rfl
    · rw [State.deliver_of_grey hfinal hpre]; rfl

/-! ### Another FloatSpec in FS -/

/-- The state with another FloatSpec in FS. -/
def State.withFloatSpec (s : State) (f : FloatSpec) : State := { s with fs := f }

@[simp] theorem State.withFloatSpec_fs (s : State) (f : FloatSpec) : (s.withFloatSpec f).fs = f := rfl
@[simp] theorem State.withFloatSpec_oracle (s : State) (f : FloatSpec) : (s.withFloatSpec f).oracle = s.oracle := rfl

theorem State.deliver_withFloatSpec (t : Radix) (x : BigFloat) (plp : Int) (pnd n : Nat) :
    (s.withFloatSpec f).deliver d t x plp pnd n = (s.deliver d t x plp pnd n).withFloatSpec f := by
  unfold State.deliver
  cases boundCheck x.lp x.nd plp pnd with
  | fits => rfl
  | overflow => rfl
  | grey =>
    dsimp only
    rw [State.withFloatSpec_oracle]
    split_ifs
    · rfl
    · rfl

theorem State.allocating_withFloatSpec {rest : State → State}
    (hrest : ∀ o, rest ((s.withOracle o).withFloatSpec f) = (rest (s.withOracle o)).withFloatSpec f) (t : Radix) :
    (s.withFloatSpec f).allocating d t rest = (s.allocating d t rest).withFloatSpec f := by
  rcases s.allocating_cases d t rest with ⟨halloc, he⟩ | ⟨halloc, he⟩ <;> rw [he]
  · exact State.allocating_of_allocFails (s := s.withFloatSpec f) halloc d t rest
  · exact (State.allocating_of_not_allocFails (s := s.withFloatSpec f) halloc d t rest).trans (hrest _)

/-- Rounding reads `m`, `e1` and `den` only (45_round.md R188). -/
theorem State.roundInto_withFloatSpec (hm : f.m = s.fs.m) (he1 : f.e1 = s.fs.e1) (hden : f.den = s.fs.den) :
    (s.withFloatSpec f).roundInto d v = (s.roundInto d v).withFloatSpec f := by
  have hlast : lastBit f v = lastBit s.fs v := by rw [lastBit_eq_ite, lastBit_eq_ite, hm, he1, hden]
  have hflush : flushes f v = flushes s.fs v := by rw [Bool.eq_iff_iff, flushes_iff, flushes_iff, hlast]
  have hdrop : dropCount f v = dropCount s.fs v := by rw [dropCount, dropCount, hlast]
  have hkept : keptBits f v = keptBits s.fs v := by rw [keptBits, keptBits, hdrop]
  have hvalue : roundedValue f v = roundedValue s.fs v := by
    rw [roundedValue, roundedValue, roundUp, roundUp, hkept, hdrop, hlast]
  have hdigits : roundPreDigits f v = roundPreDigits s.fs v := by rw [roundPreDigits, roundPreDigits, hdrop]
  rw [State.roundInto, State.roundInto, State.withFloatSpec_fs, hflush, hlast, hvalue, hdigits]
  split_ifs
  · rfl
  · rfl
  · rfl
  · exact State.deliver_withFloatSpec _ _ _ _ _

/-- ROUND with another FloatSpec of the same `m`, `e1` and `den` does the same (45_round.md R188). -/
theorem exec_round_withFloatSpec (hm : f.m = s.fs.m) (he1 : f.e1 = s.fs.e1) (hden : f.den = s.fs.den) :
    ∃ t, exec (.round d) s = .next t ∧ exec (.round d) (s.withFloatSpec f) = .next (t.withFloatSpec f) := by
  cases hd : s.reg d with
  | empty => exact ⟨_, exec_round_of_empty hd, exec_round_of_empty (s := s.withFloatSpec f) hd⟩
  | value t v =>
    cases t with
    | dec => exact ⟨_, exec_round_of_dec hd, exec_round_of_dec (s := s.withFloatSpec f) hd⟩
    | bin =>
      refine ⟨_, exec_round_of_bin hd, (exec_round_of_bin (s := s.withFloatSpec f) hd).trans (congrArg _ ?_)⟩
      rw [apply_ite (State.withFloatSpec · f),
        ← State.allocating_withFloatSpec fun o => State.roundInto_withFloatSpec (s := s.withOracle o) hm he1 hden]
      rfl

/-- Settles O60: the two fields are none of those that ROUND reads. -/
theorem roundIgnoresExponentBitsAndNaNs : Obligations.RoundIgnoresExponentBitsAndNaNs :=
  fun _ _ _ _ => exec_round_withFloatSpec rfl rfl rfl

end Sys2Proof.Machine
end

section
/-! PROOFS. What a step does, by the host's schedule, RUN, PC and the words at PC, and that no command stops the machine; the
commands NOP and LDFS (46_system.md R200 to R202, 70_reset_and_hazards.md R264). -/

namespace Sys2Proof.Machine

open Sys2Proof

variable {s : State} {rest : List (Option HostAction)}

/-! ### The step, by the host's schedule (notes/assumptions/3.md) -/

theorem step_of_host_eq_nil (h : s.host = []) : step s = unitStep s := by
  rw [step, stepScheduled, h]

theorem step_of_host_eq_none_cons (h : s.host = none :: rest) : step s = unitStep (s.withHost rest) := by
  rw [step, stepScheduled, h]

theorem step_of_host_eq_some_cons {a : HostAction} (h : s.host = some a :: rest) :
    step s = hostAct a (s.withHost rest) := by
  rw [step, stepScheduled, h]

/-! ### The unit's own step, by RUN, PC and the words at PC (46_system.md R202) -/

theorem unitStep_of_run_ne_running (h : s.run ≠ .running) : unitStep s = .next s := by
  unfold unitStep
  cases hrun : s.run with
  | running => exact absurd hrun h
  | idle | done | faulted => rfl

theorem unitStep_of_run_eq_running (h : s.run = .running) : unitStep s = runCommand s := by
  rw [unitStep, h]

/-- PC at PLEN ends the run (70_reset_and_hazards.md R264). -/
theorem unitStep_of_pc_eq (hrun : s.run = .running) (hpc : s.pc.toNat = s.prog.length) :
    unitStep s = .next s.endRun := by
  have hfetch : s.fetch = .endOfProgram := if_pos hpc
  rw [unitStep_of_run_eq_running hrun, runCommand, hfetch]

theorem State.fetch_of_pc_lt (h : s.pc.toNat < s.prog.length) : s.fetch = .words (s.prog.drop s.pc.toNat) := by
  rw [State.fetch, if_neg h.ne, if_neg h.not_gt]

theorem unitStep_of_decode_eq_ok {i : Instr} (hrun : s.run = .running) (hpc : s.pc.toNat < s.prog.length)
    (h : decode (s.prog.drop s.pc.toNat) = .ok i) : unitStep s = exec i s := by
  rw [unitStep_of_run_eq_running hrun, runCommand, State.fetch_of_pc_lt hpc]
  dsimp only
  rw [h]

/-- Words that decode to no command raise IllegalCommand (60_exceptions.md R237). -/
theorem unitStep_of_decode_ne_ok (hrun : s.run = .running) (hpc : s.pc.toNat < s.prog.length)
    (h : ∀ i, decode (s.prog.drop s.pc.toNat) ≠ .ok i) : unitStep s = .next (s.raise .illegalCommand) := by
  rw [unitStep_of_run_eq_running hrun, runCommand, State.fetch_of_pc_lt hpc]
  dsimp only
  cases hdecode : decode (s.prog.drop s.pc.toNat) with
  | ok i => exact absurd hdecode (h i)
  | error _ => rfl

/-! ### No command stops the machine -/

/-- The one stop of the unit's own step is PC past PLEN, which the invariant excludes (70_reset_and_hazards.md R264). -/
theorem State.Inv.exists_unitStep_eq_next (h : s.Inv) : ∃ t, unitStep s = .next t := by
  by_cases hrun : s.run = .running
  · rcases (h.runningPc hrun).eq_or_lt with hpc | hpc
    · exact ⟨_, unitStep_of_pc_eq hrun hpc⟩
    · by_cases hdecode : ∃ i, decode (s.prog.drop s.pc.toNat) = .ok i
      · obtain ⟨i, hi⟩ := hdecode
        obtain ⟨t, ht, -⟩ := exec_effect i s
        exact ⟨t, (unitStep_of_decode_eq_ok hrun hpc hi).trans ht⟩
      · exact ⟨_, unitStep_of_decode_ne_ok hrun hpc (not_exists.1 hdecode)⟩
  · exact ⟨s, unitStep_of_run_ne_running hrun⟩

/-- A host action answers a next state, but for a START with too long a list (notes/assumptions/9.md). -/
theorem hostAct_cases (a : HostAction) (s : State) :
    (∃ t, hostAct a s = .next t)
      ∨ ∃ p, a = .start p ∧ 2 ^ 32 ≤ p.length ∧ hostAct a s = .refused .programTooLong := by
  cases a with
  | reset => exact .inl ⟨_, rfl⟩
  | clrerr => exact .inl ⟨_, rfl⟩
  | start p =>
    by_cases hp : p.length < 4294967296
    · exact .inl ⟨_, if_pos hp⟩
    · exact .inr ⟨p, rfl, Nat.le_of_not_lt hp, if_neg hp⟩

/-- A step from a state that meets the invariant answers a next state, but for such a START. -/
theorem State.Inv.step_cases (h : s.Inv) :
    (∃ t, step s = .next t)
      ∨ ∃ p rest, s.host = some (.start p) :: rest ∧ 2 ^ 32 ≤ p.length ∧ step s = .refused .programTooLong := by
  cases hhost : s.host with
  | nil => exact .inl (step_of_host_eq_nil hhost ▸ h.exists_unitStep_eq_next)
  | cons entry rest =>
    cases entry with
    | none => exact .inl (step_of_host_eq_none_cons hhost ▸ (h.withHost rest).exists_unitStep_eq_next)
    | some a =>
      rw [step_of_host_eq_some_cons hhost]
      rcases hostAct_cases a (s.withHost rest) with hnext | ⟨p, rfl, hp, hrefused⟩
      · exact .inl hnext
      · exact .inr ⟨p, rest, rfl, hp, hrefused⟩

/-- Settles O20: the only answer but a next state is the refusal of such a START. -/
theorem invariantStatesNeverStop : Obligations.InvariantStatesNeverStop := by
  intro s hinv
  rcases hinv.step_cases with ⟨t, hnext⟩ | ⟨p, rest, hhost, hp, hrefused⟩
  · simp [hnext]
  · exact ⟨fun f => by simp [hrefused], fun _ _ => ⟨p, rest, hhost, hp⟩⟩

/-! ### Sequencing -/

/-- Settles O8: the unit's own step at a command, with and without an entry of the schedule to take off first. -/
theorem stepRunsTheDecodedCommand : Obligations.StepRunsTheDecodedCommand := by
  intro s i hrun hpc hdecode
  refine ⟨fun hhost => ?_, fun rest hhost => ?_⟩
  · rw [step_of_host_eq_nil hhost, unitStep_of_decode_eq_ok hrun hpc hdecode]
  · exact (step_of_host_eq_none_cons hhost).trans (unitStep_of_decode_eq_ok (s := s.withHost rest) hrun hpc hdecode)

/-- Settles O9: the unit's own step at PLEN, with and without an entry of the schedule to take off first. -/
theorem runEndsAtTheProgramsEnd : Obligations.RunEndsAtTheProgramsEnd := by
  intro s hrun hpc
  refine ⟨fun hhost => ?_, fun rest hhost => ?_⟩
  · exact (step_of_host_eq_nil hhost).trans (unitStep_of_pc_eq hrun hpc)
  · exact (step_of_host_eq_none_cons hhost).trans (unitStep_of_pc_eq (s := s.withHost rest) hrun hpc)

/-! ### NOP and LDFS (46_system.md R200, R201) -/

/-- Decoding once the opcode is known: checks (2) and (3) of 30_encoding.md R81, then the operands'. -/
theorem decode_cons_eq_ok_iff_of_opField {o : Opcode} {w : Word} {ext : List Word} {i : Instr}
    (hop : opField w = o.code) :
    decode (w :: ext) = .ok i ↔ o.format.UnusedFieldsZero w ∧ o.format.words w ≤ ext.length + 1
      ∧ decodeOperands o w ext = .ok i := by
  refine ⟨fun h => ?_, fun h => decode_cons_eq_ok_iff.2 ⟨o, hop, h⟩⟩
  obtain ⟨p, hp, hfields⟩ := decode_cons_eq_ok_iff.1 h
  have hrow : some p = some o := by rw [← opcodeOf_code p, ← hp, hop, opcodeOf_code]
  cases hrow
  exact hfields

/-- With `op` 0 only the zero word is a command (46_system.md R200). -/
theorem decode_ne_ok_of_opField_eq_zero {w : Word} (hop : opField w = 0#8) (hw : w ≠ 0#32) (ext : List Word) (i : Instr) :
    decode (w :: ext) ≠ .ok i := by
  intro h
  obtain ⟨hzero, -, -⟩ := (decode_cons_eq_ok_iff_of_opField (o := .nop) hop).1 h
  exact hw ((word_eq_zero_iff_fields w).2 ⟨hop, hzero⟩)

/-- LDFS cuts the FloatSpec from `FS0` and `FS1`, and asks that the reserved bits of `FS0` be zero (46_system.md R201). -/
theorem decode_ldfs_eq_ok_iff {fs0 fs1 : Word} {ext : List Word} {i : Instr} :
    decode (0x01000000#32 :: fs0 :: fs1 :: ext) = .ok i ↔
      floatSpecReservedBits fs0 = 0#6 ∧ .ldfs (unpackFloatSpec fs0 fs1) = i := by
  have hzero : Opcode.ldfs.format.UnusedFieldsZero 0x01000000#32 := ⟨rfl, rfl, rfl⟩
  have hwords : Opcode.ldfs.format.words 0x01000000#32 ≤ (fs0 :: fs1 :: ext).length + 1 := Nat.le_add_left 3 _
  rw [decode_cons_eq_ok_iff_of_opField (o := .ldfs) rfl, and_iff_right hzero, and_iff_right hwords, decodeOperands,
    decodeF]
  split_ifs with hreserved <;> simp [hreserved]

/-- Settles O30: the spelling, the meaning, and that no other word with `op` 0 decodes. -/
theorem nopOnlyAdvancesPc : Obligations.NopOnlyAdvancesPc := by
  refine ⟨rfl, fun _ => rfl, fun s w rest hrun hhost hpc hwords hop hw => ?_⟩
  exact (step_of_host_eq_nil hhost).trans
    (unitStep_of_decode_ne_ok hrun hpc (hwords ▸ decode_ne_ok_of_opField_eq_zero hop hw rest))

/-- Settles O31: the meaning in every state, and the step by the reserved bits of `FS0`. -/
theorem ldfsLoadsTheFloatSpec : Obligations.LdfsLoadsTheFloatSpec := by
  refine ⟨fun _ _ => rfl, fun s fs0 fs1 ext hrun hhost hpc hwords => ⟨fun hreserved => ?_, fun hreserved => ?_⟩⟩
  · have hdecode : decode (s.prog.drop s.pc.toNat) = .ok (.ldfs (unpackFloatSpec fs0 fs1)) :=
      hwords ▸ decode_ldfs_eq_ok_iff.2 ⟨hreserved, rfl⟩
    exact (step_of_host_eq_nil hhost).trans (unitStep_of_decode_eq_ok hrun hpc hdecode)
  · have hdecode : ∀ i, decode (s.prog.drop s.pc.toNat) ≠ .ok i := fun i h =>
      hreserved (decode_ldfs_eq_ok_iff.1 (hwords ▸ h)).1
    exact (step_of_host_eq_nil hhost).trans (unitStep_of_decode_ne_ok hrun hpc hdecode)

end Sys2Proof.Machine
end

section
/-! PROOFS. What a faulting command leaves in ERR and in the registers, and that the causes of InvalidOperand are just those
that raise it (60_exceptions.md R230 to R241). -/

namespace Sys2Proof.Machine

open Sys2Proof

variable {s t : State} {i : Instr}

/-! ### What a command leaves in ERR -/

/-- A command that takes a running unit to FAULTED was refused, or left `Unspec_t` in Vd (60_exceptions.md R241). -/
theorem CommandEffect.faulted_cases (h : CommandEffect s i t) (hrun : s.run = .running) (hfault : t.run = .faulted) :
    (∃ code, i.Refuses s code ∧ t = s.raise code)
      ∨ ∃ d u code o, d ∈ i.spoils ∧ (code = .outOfMemory ∨ code = .integerOverflow)
          ∧ t = (s.withOracle o).raiseInto code d u := by
  cases h with
  | refuse hcause => exact .inl ⟨_, hcause, rfl⟩
  | spoil hd _ hcode => exact .inr ⟨_, _, _, _, hd, hcode, rfl⟩
  | write | nop | ldfs | mov | free | isZero | cmp => simp [hrun] at hfault

/-- A command leaves ERR as it was, or holding the code it is refused with, or that of OutOfMemory or IntegerOverflow. -/
theorem CommandEffect.err_cases (h : CommandEffect s i t) :
    t.err = s.err ∨ i.Refuses s t.err ∨ t.err = .outOfMemory ∨ t.err = .integerOverflow := by
  cases h with
  | refuse hcause => exact .inr (.inl hcause)
  | spoil _ _ hcode => exact .inr (.inr hcode)
  | write | nop | ldfs | mov | free | isZero | cmp => exact .inl rfl

/-- Settles O24: by the two ways of faulting, whose codes are disjoint. -/
theorem faultingCommandsSpoilOnlyVd : Obligations.FaultingCommandsSpoilOnlyVd := by
  intro i s t hrun hexec hfault
  rcases (effect_of_exec hexec).faulted_cases hrun hfault with ⟨code, hcause, rfl⟩ | ⟨d, u, code, o, hd, hcode, rfl⟩
  · refine ⟨rfl, rfl, rfl, rfl, rfl, fun _ => rfl, fun hspoiled => ?_⟩
    rcases CommandEffect.code_of_refuses hcause with rfl | rfl <;> simp at hspoiled
  · refine ⟨rfl, rfl, rfl, rfl, rfl, fun hrefused => ?_, fun _ => ?_⟩
    · rcases hcode with rfl | rfl <;> simp at hrefused
    · refine ⟨d, u, o.unspecified u, hd, ?_, o.unspecified_legal u, fun j hj => ?_⟩
      · rw [State.reg_raiseInto, if_pos rfl, State.withOracle_oracle]
      · rw [State.reg_raiseInto, if_neg hj, State.reg_withOracle]

/-- Settles O27: ERR is kept, or takes one of the codes 1, 2, 6 and 7. -/
theorem commandsRaiseOnlyTheUnitsCodes : Obligations.CommandsRaiseOnlyTheUnitsCodes := by
  intro i s t hs hexec
  rcases (effect_of_exec hexec).err_cases with herr | hcause | herr | herr
  · rw [herr, hs]
  · rcases CommandEffect.code_of_refuses hcause with herr | herr <;> rw [herr] <;> rfl
  · rw [herr]; rfl
  · rw [herr]; rfl

/-! ### The causes of InvalidOperand (60_exceptions.md R236) -/

/-- Past the check of equal registers, which comes first (30_encoding.md R81), a cause of InvalidOperand raises it. -/
theorem exec_of_operandCause (hdiffer : i.operandsDiffer = true) (hcause : i.operandCause s) :
    exec i s = .next (s.raise .invalidOperand) := by
  cases i with
  | nop | ldfs | ldlB | nrmB | free => exact hcause.elim
  | ldlD d x => exact congrArg _ (State.loadLimb_eq_invalidOperand (t := .dec) hcause d)
  | nrmD d p l => exact congrArg _ (State.loadGrid_eq_invalidOperand (t := .dec) hcause)
  | mov d r => rw [exec, execMov, State.distinct_of_ne (bne_iff_ne.1 hdiffer), State.withValue_of_reg_eq_empty hcause]
  | clone d r => rw [exec, execClone, State.distinct_of_ne (bne_iff_ne.1 hdiffer), State.withValue_of_reg_eq_empty hcause]
  | isZero r => exact congrArg _ (State.withValue_of_reg_eq_empty hcause _)
  | cmp a b => exact congrArg _ (State.withPair_of_badPair hcause _)
  | shift d x => exact congrArg _ (State.withValue_of_reg_eq_empty hcause _)
  | add d r => rw [exec, execAdd, State.distinct_of_ne (bne_iff_ne.1 hdiffer), State.withPair_of_badPair hcause]
  | sub d r =>
    rcases hcause with hbad | ⟨t, a, b, hd, hr, hlt⟩
    · rw [exec, execSub, State.distinct_of_ne (bne_iff_ne.1 hdiffer), State.withPair_of_badPair hbad]
    · exact exec_sub_of_lt (bne_iff_ne.1 hdiffer) hd hr hlt
  | mul d r => rw [exec, execMul, State.distinct_of_ne (bne_iff_ne.1 hdiffer), State.withPair_of_badPair hcause]
  | round d =>
    cases hd : s.reg d with
    | empty => exact exec_round_of_empty hd
    | value t v =>
      cases t with
      | dec => exact exec_round_of_dec hd
      | bin =>
        have hfsv : s.fsv = false := by simpa [Instr.operandCause, hd, VReg.tag] using hcause
        rw [exec_round_of_bin hd, if_pos hfsv]

theorem State.badPair_of_tag_ne {d r : VIx} {u v : Radix} {a b : BigFloat} (hd : s.reg d = .value u a)
    (hr : s.reg r = .value v b) (hne : u ≠ v) : s.badPair d r :=
  .inr (.inr (by simpa [hd, hr, VReg.tag] using hne))

/-- Settles O29: a command that raises InvalidOperand was refused for a cause, and each listed command meets one. -/
theorem invalidOperandCausesAreRaised : Obligations.InvalidOperandCausesAreRaised := by
  refine ⟨fun i s t hnone hexec hinvalid => ?_, fun s d r hne => ?_⟩
  · simpa [hnone, hinvalid, Instr.Refuses] using (effect_of_exec hexec).err_cases
  · refine ⟨fun hempty => ⟨fun i hi => ?empty, fun x => exec_of_operandCause rfl hempty⟩,
      fun u v a b hd hr huv i hi => ?radix,
      fun a hd => exec_of_operandCause rfl (.inr (.inl (congrArg VReg.tag hd))),
      fun hfsv => exec_of_operandCause rfl (.inr (.inr hfsv)),
      fun x hx => exec_of_operandCause rfl hx,
      fun p l x hmem hx => exec_of_operandCause rfl ⟨x, hmem, hx⟩,
      fun t a b hd hr hlt => exec_of_operandCause (bne_iff_ne.2 hne) (.inr ⟨t, a, b, hd, hr, hlt⟩)⟩
    case empty =>
      have hfirst (j : VIx) : s.badPair r j := .inl hempty
      have hsecond (j : VIx) : s.badPair j r := .inr (.inl hempty)
      obtain ⟨hdiffer, hcause⟩ : i.operandsDiffer = true ∧ i.operandCause s := by
        simp only [List.mem_cons, List.not_mem_nil, or_false] at hi
        rcases hi with rfl | rfl | rfl | rfl | rfl | rfl | rfl | rfl | rfl | rfl | rfl | rfl | rfl <;>
          simp [Instr.operandsDiffer, Instr.mustDiffer, Instr.operandCause, hempty, hfirst, hsecond, hne, hne.symm]
      exact exec_of_operandCause hdiffer hcause
    case radix =>
      have hbad : s.badPair d r := State.badPair_of_tag_ne hd hr huv
      obtain ⟨hdiffer, hcause⟩ : i.operandsDiffer = true ∧ i.operandCause s := by
        simp only [List.mem_cons, List.not_mem_nil, or_false] at hi
        rcases hi with rfl | rfl | rfl | rfl <;>
          simp [Instr.operandsDiffer, Instr.mustDiffer, Instr.operandCause, hbad, hne]
      exact exec_of_operandCause hdiffer hcause

end Sys2Proof.Machine
end

section
/-! PROOFS. Word sequences that are no command: what a word list that decodes meets, check by check, and the step at one that
does not, or that names one register twice (30_encoding.md R75 to R81, 60_exceptions.md R237). -/

namespace Sys2Proof

variable {o : Opcode} {w : Word} {ext : List Word} {i : Instr}

/-! ### What the checks on the operands have found (30_encoding.md R77, R78) -/

/-- A register field that names a register is below NV (30_encoding.md R77). -/
theorem toNat_regField_lt (d : VIx) : (regField d).toNat < 8 := by
  rw [regField, BitVec.toNat_ofNat]
  exact (Nat.mod_le _ _).trans_lt d.isLt

theorem regField_injective {d r : VIx} (h : regField d = regField r) : d = r :=
  Option.some.inj (((regOf_eq_some_iff _ d).2 rfl).symm.trans ((regOf_eq_some_iff _ r).2 h))

/-- Field `a` names a register wherever a format has it (30_encoding.md R72, R77). -/
theorem exists_aField_eq_of_decodeOperands (hfmt : o.format ∈ [Format.a, Format.ab, Format.ai, Format.an])
    (h : decodeOperands o w ext = .ok i) : ∃ d, aField w = regField d := by
  cases o with
  | nop | ldfs => simp [Opcode.format] at hfmt
  | free | isZero | round => obtain ⟨d, ha, -⟩ := decodeA_eq_ok_iff.1 h; exact ⟨d, ha⟩
  | mov | clone | cmp | add | sub | mul => obtain ⟨d, -, ha, -, -⟩ := decodeAB_eq_ok_iff.1 h; exact ⟨d, ha⟩
  | ldlB | ldlD | shift => obtain ⟨d, -, -, -, ha, -⟩ := decodeAI_eq_ok_iff.1 h; exact ⟨d, ha⟩
  | nrmB | nrmD => obtain ⟨d, -, -, -, ha, -⟩ := decodeAN_eq_ok_iff.1 h; exact ⟨d, ha⟩

/-- Field `b` names a register in format AB (30_encoding.md R72, R77). -/
theorem exists_bField_eq_of_decodeOperands (hfmt : o.format = .ab) (h : decodeOperands o w ext = .ok i) :
    ∃ r, bField w = regField r := by
  cases o with
  | mov | clone | cmp | add | sub | mul => obtain ⟨-, r, -, hb, -⟩ := decodeAB_eq_ok_iff.1 h; exact ⟨r, hb⟩
  | nop | ldfs | ldlB | ldlD | nrmB | nrmD | free | isZero | shift | round => cases hfmt

/-- Equal register fields in a command that R78 keeps apart. -/
theorem operandsDiffer_eq_false_of_decodeOperands (ho : o ∈ [Opcode.mov, Opcode.clone, Opcode.add, Opcode.sub, Opcode.mul])
    (hsame : aField w = bField w) (h : decodeOperands o w ext = .ok i) : i.operandsDiffer = false := by
  cases o with
  | mov | clone | add | sub | mul =>
    obtain ⟨d, r, ha, hb, rfl⟩ := decodeAB_eq_ok_iff.1 h
    obtain rfl : d = r := regField_injective (ha.symm.trans (hsame.trans hb))
    exact bne_self_eq_false d
  | nop | ldfs | ldlB | ldlD | nrmB | nrmD | free | isZero | cmp | shift | round => simp at ho

/-- The reserved bits of `FS0` are zero in an LDFS (30_encoding.md R75). -/
theorem reservedBits_eq_zero_of_decodeOperands {fs0 fs1 : Word}
    (h : decodeOperands .ldfs w (fs0 :: fs1 :: ext) = .ok i) :
    floatSpecReservedBits fs0 = 0#6 := by
  rw [decodeOperands, decodeF] at h
  split_ifs at h with hreserved
  exact hreserved

end Sys2Proof

namespace Sys2Proof.Machine

open Sys2Proof

variable {s : State}

/-! ### The step at such words -/

/-- One register named twice where R78 forbids it raises IllegalCommand. -/
theorem exec_of_operandsDiffer_eq_false {i : Instr} (h : i.operandsDiffer = false) :
    exec i s = .next (s.raise .illegalCommand) := by
  cases i with
  | mov d r | clone d r | add d r | sub d r | mul d r =>
    obtain rfl : d = r := by simpa [Instr.operandsDiffer, Instr.mustDiffer] using h
    exact congrArg _ (s.distinct_self d _)
  | nop | ldfs | ldlB | ldlD | nrmB | nrmD | free | isZero | cmp | shift | round => cases h

/-- The schedule says nothing for this step: it has ended, or its entry has no action (notes/assumptions/3.md). -/
theorem step_of_no_action (h : s.host = [] ∨ ∃ rest, s.host = none :: rest) :
    step s = unitStep (s.withHost s.host.tail) := by
  rcases h with hnil | ⟨rest, hcons⟩
  · have hsame : s.withHost s.host.tail = s := by rw [hnil, List.tail_nil, ← hnil]; rfl
    rw [hsame, step_of_host_eq_nil hnil]
  · rw [hcons, List.tail_cons, step_of_host_eq_none_cons hcons]

/-- Words at PC that decode to nothing, or to a command with one register named twice, raise IllegalCommand. -/
theorem unitStep_of_no_command (hrun : s.run = .running) (hpc : s.pc.toNat < s.prog.length)
    (h : ∀ i, decode (s.prog.drop s.pc.toNat) = .ok i → i.operandsDiffer = false) :
    unitStep s = .next (s.raise .illegalCommand) := by
  by_cases hdecode : ∃ i, decode (s.prog.drop s.pc.toNat) = .ok i
  · obtain ⟨i, hi⟩ := hdecode
    rw [unitStep_of_decode_eq_ok hrun hpc hi, exec_of_operandsDiffer_eq_false (h i hi)]
  · exact unitStep_of_decode_ne_ok hrun hpc (not_exists.1 hdecode)

/-- Settles O6: each clause's words fail a check of the decoder, the last one's if not check (5) then check (6). -/
theorem wordsThatAreNoCommandRaiseIllegalCommand : Obligations.WordsThatAreNoCommandRaiseIllegalCommand := by
  intro s w ext hrun hhost hpc hwords
  have hstep (h : ∀ i, decode (w :: ext) = .ok i → i.operandsDiffer = false) :
      step s = .next { s with run := .faulted, err := .illegalCommand, epc := s.pc, host := s.host.tail } :=
    (step_of_no_action hhost).trans
      (unitStep_of_no_command (s := s.withHost s.host.tail) hrun hpc fun i hi => h i (hwords ▸ hi))
  refine ⟨fun hundefined => hstep fun i hi => ?_, fun o ho => ?_⟩
  · obtain ⟨o, hop, -⟩ := decode_cons_eq_ok_iff.1 hi
    simp [hop] at hundefined
  have hchecks {i : Instr} (hi : decode (w :: ext) = .ok i) :=
    (decode_cons_eq_ok_iff_of_opField ((opcodeOf_eq_some_iff _ o).1 ho)).1 hi
  refine ⟨fun hbits => hstep fun i hi => ?mustBeZero, fun hlength => hstep fun i hi => ?truncated,
    fun fs0 fs1 rest hldfs hext hbits => hstep fun i hi => ?reserved, fun hfmt ha => hstep fun i hi => ?fieldA,
    fun hfmt hb => hstep fun i hi => ?fieldB, fun hmutates hsame => hstep fun i hi => ?equalFields⟩ <;>
    obtain ⟨hzero, hfits, hoperands⟩ := hchecks hi
  case mustBeZero => exact absurd ((and_zeroMask_eq_zero_iff o.format w).2 hzero) hbits
  case truncated => omega
  case reserved =>
    subst hldfs hext
    exact absurd (reservedBits_eq_zero_of_decodeOperands hoperands) hbits
  case fieldA =>
    obtain ⟨d, hd⟩ := exists_aField_eq_of_decodeOperands hfmt hoperands
    exact absurd (hd ▸ toNat_regField_lt d) ha.not_gt
  case fieldB =>
    obtain ⟨r, hr⟩ := exists_bField_eq_of_decodeOperands hfmt hoperands
    exact absurd (hr ▸ toNat_regField_lt r) hb.not_gt
  case equalFields => exact operandsDiffer_eq_false_of_decodeOperands hmutates hsame hoperands

end Sys2Proof.Machine
end

section
/-! PROOFS. The host's actions, the unit that waits, and that every run ends (60_exceptions.md R240 to R247,
70_reset_and_hazards.md R260 to R269). -/

namespace Sys2Proof.Machine

open Sys2Proof

variable {s t : State}

/-! ### The host's actions and the waiting unit -/

theorem step_of_waiting (hrun : s.run ≠ .running) (hhost : s.host = []) : step s = .next s :=
  (step_of_host_eq_nil hhost).trans (unitStep_of_run_ne_running hrun)

/-- A START with a program launches it, or is refused by RUN (70_reset_and_hazards.md R263). -/
theorem hostAct_start_of_length_lt {prog : List Word} (h : prog.length < 2 ^ 32) :
    hostAct (.start prog) s = .next (s.launch prog) := if_pos h

theorem State.launch_of_run (h : s.run = .idle ∨ s.run = .done) (prog : List Word) :
    s.launch prog = { s with pc := 0#32, run := .running, prog := prog } := by
  rcases State.launch_cases s prog with ⟨-, he⟩ | ⟨hrun | hrun, -⟩
  · exact he
  · simp [hrun] at h
  · simp [hrun] at h

theorem State.launch_refused (h : s.run = .running ∨ s.run = .faulted) (prog : List Word) : s.launch prog = s := by
  rcases State.launch_cases s prog with ⟨hrun | hrun, -⟩ | ⟨-, he⟩
  · simp [hrun] at h
  · simp [hrun] at h
  · exact he

theorem hostAct_clrerr (s : State) : hostAct .clrerr s = .next s.clearError := rfl

theorem State.clearError_of_faulted (h : s.run = .faulted) : s.clearError = { s with run := .idle, err := .none } := by
  rcases State.clearError_cases s with ⟨-, he⟩ | ⟨hother, -⟩
  · exact he
  · exact absurd h hother

theorem State.clearError_of_run_ne_faulted (h : s.run ≠ .faulted) : s.clearError = s := by
  rcases State.clearError_cases s with ⟨hfault, -⟩ | ⟨-, he⟩
  · exact absurd hfault h
  · exact he

/-- Settles O12: CLRERR by RUN, and a START in FAULTED. -/
theorem clearErrorLeavesOnlyFaulted : Obligations.ClearErrorLeavesOnlyFaulted := by
  intro s
  refine ⟨fun hfault => ?_, fun hother => ?_, fun prog hfault hprog => ?_⟩
  · rw [hostAct_clrerr, State.clearError_of_faulted hfault]
  · rw [hostAct_clrerr, State.clearError_of_run_ne_faulted hother]
  · rw [hostAct_start_of_length_lt hprog, State.launch_refused (.inr hfault)]

/-- Settles O14: the step by the first entry of the schedule. -/
theorem scheduledActionsLandBetweenCommands : Obligations.ScheduledActionsLandBetweenCommands :=
  fun s rest => ⟨fun _ hhost => step_of_host_eq_some_cons hhost, fun hhost hrun =>
    (step_of_host_eq_none_cons hhost).trans (unitStep_of_run_ne_running (s := s.withHost rest) hrun)⟩

/-- Settles O15: fault entry is one update of the state, and leaves a unit that waits. -/
theorem faultEntryLatchesCodeAndCounter : Obligations.FaultEntryLatchesCodeAndCounter :=
  fun s code => ⟨rfl, rfl, fun hhost => step_of_waiting (s := s.raise code) (by simp) hhost⟩

/-- Settles O10: a step without a host action is the unit's own, and the unit waits. -/
theorem unitWaitsUnlessRunning : Obligations.UnitWaitsUnlessRunning :=
  fun _ hrun hhost => step_of_waiting hrun hhost

/-- Settles O11: START by RUN; the empty program is at its end from the start. -/
theorem startLaunchesFromIdleOrDoneOnly : Obligations.StartLaunchesFromIdleOrDoneOnly := by
  intro s prog hprog
  rw [hostAct_start_of_length_lt hprog]
  refine ⟨fun hrun => by rw [State.launch_of_run hrun], fun hrun => by rw [State.launch_refused hrun], ?_⟩
  rintro hhost rfl
  obtain ⟨hends, -⟩ := runEndsAtTheProgramsEnd { s with pc := 0#32, run := .running, prog := [] } rfl rfl
  exact hends hhost

/-- Settles O13: the state RESET leaves, item by item, is a unit that waits. -/
theorem resetActionRestoresTheResetState : Obligations.ResetActionRestoresTheResetState := by
  intro s
  obtain ⟨hregs, hfs, -, hrun, herr, hfsv, -, hpc, hepc, -⟩ := resetStateIsTheTable
  exact ⟨s.hostReset, rfl, hregs, hfs, hfsv, rfl, hrun, herr, hpc, hepc,
    fun hhost => step_of_waiting (s := s.hostReset) (by simp [hrun]) hhost⟩

/-! ### Every run ends (70_reset_and_hazards.md R264, R269) -/

/-- A command that lies inside the program moves PC on by its length, without wrapping (10_state.md R29). -/
theorem State.Inv.toNat_pc_add (h : s.Inv) {n : Nat} (hn : s.pc.toNat + n ≤ s.prog.length) :
    (s.pc + BitVec.ofNat 32 n).toNat = s.pc.toNat + n := by
  have hfits := h.programFits
  rw [BitVec.toNat_add, BitVec.toNat_ofNat]
  omega

/-- The unit's own step ends the run, or leaves it running with PC moved on inside the same program. -/
theorem State.Inv.run_ends_or_pc_lt (h : s.Inv) (hrun : s.run = .running) (hstep : unitStep s = .next t) :
    (t.run = .done ∨ t.run = .faulted)
      ∨ (t.run = .running ∧ t.host = s.host ∧ t.prog = s.prog ∧ s.pc.toNat < t.pc.toNat) := by
  rcases (h.runningPc hrun).eq_or_lt with hpc | hpc
  · cases hstep.symm.trans (unitStep_of_pc_eq hrun hpc)
    exact .inl (.inl rfl)
  by_cases hdecode : ∃ i, decode (s.prog.drop s.pc.toNat) = .ok i
  · obtain ⟨i, hi⟩ := hdecode
    have heffect := effect_of_exec ((unitStep_of_decode_eq_ok hrun hpc hi).symm.trans hstep)
    rcases heffect.completes_or_faults with ⟨htrun, -, -, htpc⟩ | ⟨htrun, -⟩
    · obtain ⟨hprog, hhost⟩ := heffect.prog_host_eq
      have hlength := length_le_of_decode hi
      rw [List.length_drop] at hlength
      have hadd := h.toNat_pc_add (n := i.length) (by omega)
      have hpos := i.length_pos
      exact .inr ⟨htrun.trans hrun, hhost, hprog, by rw [htpc]; omega⟩
    · exact .inl (.inr htrun)
  · cases hstep.symm.trans (unitStep_of_decode_ne_ok hrun hpc (not_exists.1 hdecode))
    exact .inl (.inr rfl)

/-- A step that answers a next state is the first step of a run. -/
theorem core_run_succ (M : Host.Core) {s t : M.State} (h : M.step s = .next t) (k : Nat) : M.run (k + 1) s = M.run k t := by
  rw [Host.Core.run, h]

/-- Each step ends the run or takes PC nearer to PLEN. -/
theorem State.Inv.exists_run_ends {s : State} (h : s.Inv) (hrun : s.run = .running) (hhost : s.host = []) :
    ∃ (k : Nat) (t : State), k ≤ s.prog.length - s.pc.toNat + 1
      ∧ (Host.Core.run Sys2Proof.core k s : Host.Outcome State Fault Refusal) = .next t
      ∧ (t.run = .done ∨ t.run = .faulted) := by
  obtain ⟨t, hunit⟩ := h.exists_unitStep_eq_next
  have hstep : step s = .next t := (step_of_host_eq_nil hhost).trans hunit
  rcases h.run_ends_or_pc_lt hrun hunit with hend | ⟨htrun, hthost, hprog, hpc⟩
  · exact ⟨1, t, Nat.le_add_left 1 _, core_run_succ core hstep 0, hend⟩
  · have ht : t.Inv := h.of_step hstep
    have hinside := ht.runningPc htrun
    rw [hprog] at hinside
    have hless : t.prog.length - t.pc.toNat < s.prog.length - s.pc.toNat := by rw [hprog]; omega
    obtain ⟨k, u, hk, hruns, hend⟩ := ht.exists_run_ends htrun (hthost.trans hhost)
    exact ⟨k + 1, u, by omega, (core_run_succ core hstep k).trans hruns, hend⟩
termination_by s.prog.length - s.pc.toNat

/-- Settles O21: by the number of words left. -/
theorem everyRunEnds : Obligations.EveryRunEnds :=
  fun _ hinv hrun hhost => hinv.exists_run_ends hrun hhost

end Sys2Proof.Machine
end
